-- ==== Sys2Proof/Word.lean ====
section
/-! DEFINITION. The word types of the two buses (spec 00_scope.md R6, R7). Every value is an unsigned bit vector; `+` and `-` wrap. -/

namespace Sys2Proof

/-- An address or a data word of the slave bus: `ADDR_W = S_DATA_W = 32` (R6). -/
abbrev Word := BitVec 32

/-- A data word of the memory-facing bus: `M_DATA_W = 64` (R6). -/
abbrev DWord := BitVec 64

/-- One byte lane (R67). -/
abbrev Byte := BitVec 8

/-- Two to the 32: the size of both address spaces (R35). -/
def addressSpace : Nat := 2 ^ 32

end Sys2Proof
end

