-- ==== Sys2Proof/Config.lean ====
section
/-! DEFINITION. What an implementation fixes (spec 00_scope.md R6): the open parameters, their bounds and
defaults, the constants of the source, and the free values. The parameters are carried by `State.cfg`, so that
a claim about every state is a claim about every choice of them (log 1). -/

namespace Sys2Proof

/-- The kind of a cell of the register-bank slave (R23, R154). The special cells of R23 are the six words of
the DMA block; they are the cells of the slave `Port.dma`. -/
inductive CellKind where
  /-- read-only fixed: `dataOut` is a constant -/
  | fixed (value : Word)
  /-- read-only external: `dataOut` is driven by other logic in the cycle -/
  | external
  /-- read/write, with its `CELL_RESET` (R25) -/
  | readWrite (resetValue : Word)
  deriving DecidableEq, Repr

/-- The storage of a cell after reset: `CELL_RESET[i]` for a read/write cell (R25, R341). A read-only cell has
no storage; its place in the array is never read. -/
def CellKind.resetStorage : CellKind → Word
  | .fixed _ => 0
  | .external => 0
  | .readWrite v => v

/-- The parameters of R6 that a model takes as arguments. -/
structure Config where
  /-- `S_ID_W` -/
  sIdW : Nat
  /-- `M_ID_W` -/
  mIdW : Nat
  /-- `BASE` of the register bank -/
  bankBase : Word
  /-- `CELLS`, with `CELL_RESET`; `NCELLS` is its length -/
  bankCells : List CellKind
  /-- `BASE` of the DMA configuration block (six cells) -/
  dmaBase : Word
  /-- `BASE` of the reference slave -/
  refBase : Word
  /-- `REF_WORDS` -/
  refWords : Nat
  /-- `COUNT_W` -/
  countW : Nat
  /-- `INFL_W` -/
  inflW : Nat
  /-- `M_ID` -/
  mId : Nat
  /-- `REF_RESET_RECOVERY` -/
  refResetRecovery : Bool
  deriving DecidableEq, Repr

/-- The number of cells of the DMA configuration block (R34, R99). -/
def Config.dmaCells : Nat := 6

/-- `SENTINEL`: the read data of an undecoded address (R6, R160). -/
def Config.sentinel : Word := 0xDEADBEEF

/-- A decode window in bounds (R63, D20, U12): the base a multiple of 4, at least one cell, the window inside
the 32-bit space. -/
def Config.windowOk (base : Word) (cells : Nat) : Bool :=
  decide (base.toNat % 4 = 0) && decide (0 < cells) && decide (base.toNat + 4 * cells ≤ addressSpace)

/-- The bounds on the parameters (R63, R6). `COUNT_W` is at most 32 because the register is one 32-bit word (R34). -/
def Config.wf (c : Config) : Bool :=
  Config.windowOk c.bankBase c.bankCells.length && Config.windowOk c.dmaBase Config.dmaCells &&
  Config.windowOk c.refBase c.refWords &&
  decide (1 ≤ c.countW) && decide (c.countW ≤ 32) && decide (1 ≤ c.inflW) && decide (c.mId < 2 ^ c.mIdW)

/-- DESIGN CHOICE (log 1). The parameters `State.reset` has: the defaults of R6, the four read/write cells at
`0x40000000` that the programs of 95_test_vectors.md use, a reference slave over the same window. -/
def Config.default : Config where
  sIdW := 12
  mIdW := 6
  bankBase := 0x40000000
  bankCells := [.readWrite 0, .readWrite 0, .readWrite 0, .readWrite 0]
  dmaBase := 0x40001000
  refBase := 0x40000000
  refWords := 4
  countW := 32
  inflW := 32
  mId := 0
  refResetRecovery := false

/-- FREE VALUE (log 8). What byte `a` of the reference slave's array holds from power-on until it is written:
unspecified, "a draw per word" (R29, R226). It has no body on purpose. -/
opaque Config.refPowerOn : Nat → Byte

/-- FREE VALUE (log 9). What a read-only external cell shows in a cycle in which the environment's pins do not
say what the other logic drives: a function of the cycle number and the cell. It has no body on purpose. -/
opaque Config.undriven : Nat → Nat → Word

/-- FREE VALUE (log 22). Whether an error response handed over at the very edge of a start, in the cycle of that number,
outlasts the clears of the start: the spec ranks neither R265 nor R294 first. It has no body on purpose. -/
opaque Config.outlastsStart : Nat → Bool

end Sys2Proof
end

