-- ==== Sys2Proof/Syntax.lean ====
section
/-! DEFINITION. The bus operations of the spec's table as ONE inductive, and the payloads of the five channels
(spec 30_encoding.md R90, R91, R103). -/

namespace Sys2Proof

/-- The bus slave an operation of the AW, W, B, AR or R channel is on (log 2). Each has ports of its own. -/
inductive Port where
  /-- the register-bank slave of 42 and 43, with the generic cells of R23 -/
  | bank
  /-- the register bank whose six cells are the DMA configuration block (R34) -/
  | dma
  /-- the reference slave of 44 -/
  | ref
  deriving DecidableEq, Repr

/-- The payload of the AW or the AR channel (R90). The id is an opaque tag (R95). -/
structure AxCmd where
  id : Nat
  addr : Word
  /-- length-minus-one (R92) -/
  len : BitVec 4
  /-- log2 of the bytes per beat (R93) -/
  size : BitVec 2
  /-- FIXED 00, INCR 01, WRAP 10, reserved 11 (R94) -/
  burst : BitVec 2
  deriving DecidableEq, Repr

/-- The payload of the W channel of a slave (R90). -/
structure WBeat where
  last : Bool
  strb : BitVec 4
  data : Word
  deriving DecidableEq, Repr

/-- The payload of a B channel (R90). -/
structure BResp where
  id : Nat
  resp : BitVec 2
  deriving DecidableEq, Repr

/-- The payload of the R channel (R90). -/
structure RBeat where
  id : Nat
  last : Bool
  resp : BitVec 2
  data : Word
  deriving DecidableEq, Repr

/-- The payload of the memory-facing W channel; the strobes are all ones (R269). -/
structure MBeat where
  last : Bool
  data : DWord
  deriving DecidableEq, Repr

/-- The response codes (R97). -/
def respOkay : BitVec 2 := 0b00
def respExokay : BitVec 2 := 0b01
def respSlverr : BitVec 2 := 0b10
def respDecerr : BitVec 2 := 0b11

/-- The burst type codes (R94). -/
def burstFixed : BitVec 2 := 0b00
def burstIncr : BitVec 2 := 0b01
def burstWrap : BitVec 2 := 0b10
def burstRsvd : BitVec 2 := 0b11

/-- The operations, one constructor per row of spec/opcode_table.json (R103). -/
inductive Instr where
  | awFixed (p : Port) (id : Nat) (size : BitVec 2) (len : BitVec 4) (addr : Word)
  | awIncr (p : Port) (id : Nat) (size : BitVec 2) (len : BitVec 4) (addr : Word)
  | awWrap (p : Port) (id : Nat) (size : BitVec 2) (len : BitVec 4) (addr : Word)
  | awRsvd (p : Port) (id : Nat) (size : BitVec 2) (len : BitVec 4) (addr : Word)
  | arFixed (p : Port) (id : Nat) (size : BitVec 2) (len : BitVec 4) (addr : Word)
  | arIncr (p : Port) (id : Nat) (size : BitVec 2) (len : BitVec 4) (addr : Word)
  | arWrap (p : Port) (id : Nat) (size : BitVec 2) (len : BitVec 4) (addr : Word)
  | arRsvd (p : Port) (id : Nat) (size : BitVec 2) (len : BitVec 4) (addr : Word)
  | wBeat (p : Port) (strb : BitVec 4) (data : Word)
  | wLast (p : Port) (strb : BitVec 4) (data : Word)
  | bOkay (p : Port) (id : Nat)
  | bDecerr (p : Port) (id : Nat)
  | rOkay (p : Port) (id : Nat) (last : Bool) (data : Word)
  | rDecerr (p : Port) (id : Nat) (last : Bool)
  | dmaAw (id : Nat) (len : BitVec 4) (addr : Word)
  | dmaW (data : DWord)
  | dmaWlast (data : DWord)
  | mbOkay (id : Nat)
  | mbExokay (id : Nat)
  | mbSlverr (id : Nat)
  | mbDecerr (id : Nat)
  | rdAddr
  | wrAddr (last : Bool) (be : BitVec 4) (d : Word)
  | rdCount
  | wrCount (last : Bool) (be : BitVec 4) (d : Word)
  | rdStatus
  | wrStatus (last : Bool) (be : BitVec 4) (d : Word)
  | rdCtrl
  | wrCtrl (last : Bool) (be : BitVec 4) (d : Word)
  | rdIntcfg
  | wrIntcfg (last : Bool) (be : BitVec 4) (d : Word)
  | rdIntstat
  | wrIntstat (last : Bool) (be : BitVec 4) (d : Word)
  | rdUnmapped (o : BitVec 1)
  | wrUnmapped (o : BitVec 1) (last : Bool) (be : BitVec 4) (d : Word)
  deriving DecidableEq, Repr

end Sys2Proof
end

