-- ==== Sys2Proof/WellFormed.lean ====
section
/-! DEFINITION. Well-formed operations: what the encoding can carry, and the duties of the master on a command
(spec 70_reset_and_hazards.md R352). -/

namespace Sys2Proof

/-- WRAP beat counts are 2, 4, 8 and 16 (R105). -/
def wrapLenOk (len : BitVec 4) : Bool :=
  decide (len = 1) || decide (len = 3) || decide (len = 7) || decide (len = 15)

/-- The address is a multiple of `1 << size` (R70). -/
def addrAligned (addr : Word) (size : BitVec 2) : Bool :=
  decide (addr.toNat % 2 ^ size.toNat = 0)

/-- The duties of R352 on a command to a slave: no reserved burst type, no malformed WRAP, no size 3, an
aligned address. -/
def AxCmd.legal (c : AxCmd) : Bool :=
  decide (c.burst ≠ burstRsvd) && (decide (c.burst ≠ burstWrap) || wrapLenOk c.len) &&
  decide (c.size ≠ 3) && addrAligned c.addr c.size

/-- The packed word of the table can carry the operation: the address of `DMA.AW` has bits 2:0 zero (R103).
Every other operand is carried at every value. -/
def Instr.encodable : Instr → Bool
  | .dmaAw _ _ addr => decide (addr.toNat % 8 = 0)
  | _ => true

/-- The id fits the bus it is on (R91, R6). -/
def Instr.idFits (c : Config) : Instr → Bool
  | .awFixed _ id _ _ _ | .awIncr _ id _ _ _ | .awWrap _ id _ _ _ | .awRsvd _ id _ _ _
  | .arFixed _ id _ _ _ | .arIncr _ id _ _ _ | .arWrap _ id _ _ _ | .arRsvd _ id _ _ _
  | .bOkay _ id | .bDecerr _ id | .rOkay _ id _ _ | .rDecerr _ id _ => decide (id < 2 ^ c.sIdW)
  | .dmaAw id _ _ | .mbOkay id | .mbExokay id | .mbSlverr id | .mbDecerr id => decide (id < 2 ^ c.mIdW)
  | _ => true

/-- The command part of a well-formed operation is legal (R352); an operation with no command has no duty here. -/
def Instr.commandLegal : Instr → Bool
  | .awFixed _ id size len addr | .arFixed _ id size len addr => AxCmd.legal ⟨id, addr, len, size, burstFixed⟩
  | .awIncr _ id size len addr | .arIncr _ id size len addr => AxCmd.legal ⟨id, addr, len, size, burstIncr⟩
  | .awWrap _ id size len addr | .arWrap _ id size len addr => AxCmd.legal ⟨id, addr, len, size, burstWrap⟩
  | .awRsvd _ id size len addr | .arRsvd _ id size len addr => AxCmd.legal ⟨id, addr, len, size, burstRsvd⟩
  | _ => true

/-- A well-formed operation under the parameters `c`. -/
def Instr.wf (c : Config) (i : Instr) : Bool :=
  i.encodable && i.idFits c && i.commandLegal

end Sys2Proof
end

