-- ==== Sys2Proof/Decode.lean ====
section
/-! DEFINITION. The packed words of spec 30_encoding.md R102, the decoder (total on any transfer, rejecting by
name) and the encoder. Every field travels on wires of its own (R102); the word is the notional packing of the
table, and the channel it is on, the id and a register write's beat stand beside it (log 18). -/

namespace Sys2Proof

/-- The channel a packed word is on. `reg` is the register-access view of a beat of the DMA block (R99, format
`REGACC`); `mAw`, `mW`, `mB` are the memory-facing channels of the engine. -/
inductive Channel where
  | aw (p : Port)
  | w (p : Port)
  | b (p : Port)
  | ar (p : Port)
  | r (p : Port)
  | mAw
  | mW
  | mB
  | reg
  deriving DecidableEq, Repr

/-- One transfer as the table writes it: the channel, the packed word (bit 0 least significant, at most 73 bits
used), and what travels beside it: the id, and for a register write the W beat (`be`, `d`, last). -/
structure Transfer where
  chan : Channel
  word : BitVec 80
  id : Nat
  beat : BitVec 37
  deriving DecidableEq, Repr

/-- Why a transfer is no operation of the table. -/
inductive DecodeError where
  /-- a bit above the width of the channel's format is 1 -/
  | excessBits
  /-- a slave answers only OKAY and DECERR on B (R98, R314) -/
  | responseNotOfSlave
  /-- a slave answers only OKAY, or DECERR with the sentinel, on R (R98, R245) -/
  | readBeatNotOfSlave
  /-- not burst INCR, size 3, address a multiple of 8 (R103, R261) -/
  | commandNotOfEngine
  /-- the engine drives all eight strobes (R269) -/
  | strobesNotAllOnes
  deriving DecidableEq, Repr

/-! ## Packed formats (R102) -/

/-- `AXCMD = {burst, size, len, addr}`, 40 bits. -/
def AxCmd.pack (c : AxCmd) : BitVec 40 := c.burst ++ c.size ++ c.len ++ c.addr

/-- The fields of an `AXCMD` word, with the id beside it. -/
def AxCmd.unpack (id : Nat) (w : BitVec 40) : AxCmd where
  id := id
  addr := w.extractLsb' 0 32
  len := w.extractLsb' 32 4
  size := w.extractLsb' 36 2
  burst := w.extractLsb' 38 2

/-- `WBEAT32 = {last, strb, data}`, 37 bits. -/
def WBeat.pack (b : WBeat) : BitVec 37 := BitVec.ofBool b.last ++ b.strb ++ b.data

/-- The fields of a `WBEAT32` word. -/
def WBeat.unpack (w : BitVec 37) : WBeat where
  last := w.getLsbD 36
  strb := w.extractLsb' 32 4
  data := w.extractLsb' 0 32

/-- `RBEAT32 = {last, resp, data}`, 35 bits; the id is beside it. -/
def RBeat.pack (b : RBeat) : BitVec 35 := BitVec.ofBool b.last ++ b.resp ++ b.data

/-- The fields of an `RBEAT32` word, with the id beside it. -/
def RBeat.unpack (id : Nat) (w : BitVec 35) : RBeat where
  id := id
  last := w.getLsbD 34
  resp := w.extractLsb' 32 2
  data := w.extractLsb' 0 32

/-- `WBEAT64 = {last, strb, data}`, 73 bits, with the engine's strobes `0xFF` (R269). -/
def MBeat.pack (b : MBeat) : BitVec 73 := BitVec.ofBool b.last ++ (0xFF#8) ++ b.data

/-- `REGACC = {write, woff}`, 4 bits. -/
def regWord (write : Bool) (woff : BitVec 3) : BitVec 4 := BitVec.ofBool write ++ woff

/-! ## Decoding -/

/-- The rows of format `AXCMD` on the AW channel of slave `p`, selected by bits 39:38 (R102, R103). -/
def decodeAw (p : Port) (c : AxCmd) : Instr :=
  if c.burst = burstFixed then .awFixed p c.id c.size c.len c.addr
  else if c.burst = burstIncr then .awIncr p c.id c.size c.len c.addr
  else if c.burst = burstWrap then .awWrap p c.id c.size c.len c.addr
  else .awRsvd p c.id c.size c.len c.addr

/-- The rows of format `AXCMD` on the AR channel of slave `p`. -/
def decodeAr (p : Port) (c : AxCmd) : Instr :=
  if c.burst = burstFixed then .arFixed p c.id c.size c.len c.addr
  else if c.burst = burstIncr then .arIncr p c.id c.size c.len c.addr
  else if c.burst = burstWrap then .arWrap p c.id c.size c.len c.addr
  else .arRsvd p c.id c.size c.len c.addr

/-- The rows of format `WBEAT32`, selected by bit 36. -/
def decodeW (p : Port) (b : WBeat) : Instr :=
  if b.last then .wLast p b.strb b.data else .wBeat p b.strb b.data

/-- The rows of format `BRESP` on a slave's B channel: `00` and `11`. -/
def decodeB (p : Port) (b : BResp) : Except DecodeError Instr :=
  if b.resp = respOkay then .ok (.bOkay p b.id)
  else if b.resp = respDecerr then .ok (.bDecerr p b.id)
  else .error .responseNotOfSlave

/-- The rows of format `RBEAT32`: OKAY, or DECERR with the sentinel as data. -/
def decodeR (p : Port) (b : RBeat) : Except DecodeError Instr :=
  if b.resp = respOkay then .ok (.rOkay p b.id b.last b.data)
  else if b.resp = respDecerr ∧ b.data = Config.sentinel then .ok (.rDecerr p b.id b.last)
  else .error .readBeatNotOfSlave

/-- The row `DMA.AW`: burst 01, size 11, address bits 2:0 = 000. -/
def decodeMAw (c : AxCmd) : Except DecodeError Instr :=
  if c.burst = burstIncr ∧ c.size = 3 ∧ c.addr.extractLsb' 0 3 = 0 then .ok (.dmaAw c.id c.len c.addr)
  else .error .commandNotOfEngine

/-- The rows `DMA.W` and `DMA.WLAST`: strobes all ones, selected by bit 72. -/
def decodeMW (w : BitVec 73) : Except DecodeError Instr :=
  if w.extractLsb' 64 8 = 0xFF#8 then
    .ok (if w.getLsbD 72 then .dmaWlast (w.extractLsb' 0 64) else .dmaW (w.extractLsb' 0 64))
  else .error .strobesNotAllOnes

/-- The rows of format `BRESP` on the memory-facing B channel: all four codes. -/
def decodeMB (b : BResp) : Instr :=
  if b.resp = respOkay then .mbOkay b.id
  else if b.resp = respExokay then .mbExokay b.id
  else if b.resp = respSlverr then .mbSlverr b.id
  else .mbDecerr b.id

/-- The rows of format `REGACC`: bit 3 is the direction, bits 2:0 the word offset; `6` and `7` are the unmapped
rows `011o` and `111o`. A write's `be`, `d` and last are the beat beside the word. -/
def decodeReg (w : BitVec 4) (b : WBeat) : Instr :=
  let woff : BitVec 3 := w.extractLsb' 0 3
  if w.getLsbD 3 then
    if woff = 0 then .wrAddr b.last b.strb b.data
    else if woff = 1 then .wrCount b.last b.strb b.data
    else if woff = 2 then .wrStatus b.last b.strb b.data
    else if woff = 3 then .wrCtrl b.last b.strb b.data
    else if woff = 4 then .wrIntcfg b.last b.strb b.data
    else if woff = 5 then .wrIntstat b.last b.strb b.data
    else .wrUnmapped (woff.extractLsb' 0 1) b.last b.strb b.data
  else
    if woff = 0 then .rdAddr
    else if woff = 1 then .rdCount
    else if woff = 2 then .rdStatus
    else if woff = 3 then .rdCtrl
    else if woff = 4 then .rdIntcfg
    else if woff = 5 then .rdIntstat
    else .rdUnmapped (woff.extractLsb' 0 1)

/-- The width of the format used on a channel (R102). -/
def Channel.width : Channel → Nat
  | .aw _ | .ar _ | .mAw => 40
  | .w _ => 37
  | .b _ | .mB => 2
  | .r _ => 35
  | .mW => 73
  | .reg => 4

/-- The decoder, total on any transfer. -/
def decode (t : Transfer) : Except DecodeError Instr :=
  if t.word >>> t.chan.width ≠ 0 then .error .excessBits
  else
    match t.chan with
    | .aw p => .ok (decodeAw p (AxCmd.unpack t.id (t.word.setWidth 40)))
    | .ar p => .ok (decodeAr p (AxCmd.unpack t.id (t.word.setWidth 40)))
    | .w p => .ok (decodeW p (WBeat.unpack (t.word.setWidth 37)))
    | .b p => decodeB p ⟨t.id, t.word.setWidth 2⟩
    | .r p => decodeR p (RBeat.unpack t.id (t.word.setWidth 35))
    | .mAw => decodeMAw (AxCmd.unpack t.id (t.word.setWidth 40))
    | .mW => decodeMW (t.word.setWidth 73)
    | .mB => .ok (decodeMB ⟨t.id, t.word.setWidth 2⟩)
    | .reg => .ok (decodeReg (t.word.setWidth 4) (WBeat.unpack t.beat))

/-! ## Encoding -/

/-- The transfer of each payload. -/
def AxCmd.toAw (p : Port) (c : AxCmd) : Transfer := ⟨.aw p, c.pack.setWidth 80, c.id, 0⟩
def AxCmd.toAr (p : Port) (c : AxCmd) : Transfer := ⟨.ar p, c.pack.setWidth 80, c.id, 0⟩
def AxCmd.toMAw (c : AxCmd) : Transfer := ⟨.mAw, c.pack.setWidth 80, c.id, 0⟩
def WBeat.toW (p : Port) (b : WBeat) : Transfer := ⟨.w p, b.pack.setWidth 80, 0, 0⟩
def BResp.toB (p : Port) (b : BResp) : Transfer := ⟨.b p, b.resp.setWidth 80, b.id, 0⟩
def BResp.toMB (b : BResp) : Transfer := ⟨.mB, b.resp.setWidth 80, b.id, 0⟩
def RBeat.toR (p : Port) (b : RBeat) : Transfer := ⟨.r p, b.pack.setWidth 80, b.id, 0⟩
def MBeat.toMW (b : MBeat) : Transfer := ⟨.mW, b.pack.setWidth 80, 0, 0⟩
def regRead (woff : BitVec 3) : Transfer := ⟨.reg, (regWord false woff).setWidth 80, 0, 0⟩
def regWrite (woff : BitVec 3) (b : WBeat) : Transfer := ⟨.reg, (regWord true woff).setWidth 80, 0, b.pack⟩

/-- The transfer of an operation, from the table's packings. -/
def encode : Instr → Transfer
  | .awFixed p id size len addr => AxCmd.toAw p ⟨id, addr, len, size, burstFixed⟩
  | .awIncr p id size len addr => AxCmd.toAw p ⟨id, addr, len, size, burstIncr⟩
  | .awWrap p id size len addr => AxCmd.toAw p ⟨id, addr, len, size, burstWrap⟩
  | .awRsvd p id size len addr => AxCmd.toAw p ⟨id, addr, len, size, burstRsvd⟩
  | .arFixed p id size len addr => AxCmd.toAr p ⟨id, addr, len, size, burstFixed⟩
  | .arIncr p id size len addr => AxCmd.toAr p ⟨id, addr, len, size, burstIncr⟩
  | .arWrap p id size len addr => AxCmd.toAr p ⟨id, addr, len, size, burstWrap⟩
  | .arRsvd p id size len addr => AxCmd.toAr p ⟨id, addr, len, size, burstRsvd⟩
  | .wBeat p strb data => WBeat.toW p ⟨false, strb, data⟩
  | .wLast p strb data => WBeat.toW p ⟨true, strb, data⟩
  | .bOkay p id => BResp.toB p ⟨id, respOkay⟩
  | .bDecerr p id => BResp.toB p ⟨id, respDecerr⟩
  | .rOkay p id last data => RBeat.toR p ⟨id, last, respOkay, data⟩
  | .rDecerr p id last => RBeat.toR p ⟨id, last, respDecerr, Config.sentinel⟩
  | .dmaAw id len addr => AxCmd.toMAw ⟨id, addr, len, 3, burstIncr⟩
  | .dmaW data => MBeat.toMW ⟨false, data⟩
  | .dmaWlast data => MBeat.toMW ⟨true, data⟩
  | .mbOkay id => BResp.toMB ⟨id, respOkay⟩
  | .mbExokay id => BResp.toMB ⟨id, respExokay⟩
  | .mbSlverr id => BResp.toMB ⟨id, respSlverr⟩
  | .mbDecerr id => BResp.toMB ⟨id, respDecerr⟩
  | .rdAddr => regRead 0
  | .wrAddr last be d => regWrite 0 ⟨last, be, d⟩
  | .rdCount => regRead 1
  | .wrCount last be d => regWrite 1 ⟨last, be, d⟩
  | .rdStatus => regRead 2
  | .wrStatus last be d => regWrite 2 ⟨last, be, d⟩
  | .rdCtrl => regRead 3
  | .wrCtrl last be d => regWrite 3 ⟨last, be, d⟩
  | .rdIntcfg => regRead 4
  | .wrIntcfg last be d => regWrite 4 ⟨last, be, d⟩
  | .rdIntstat => regRead 5
  | .wrIntstat last be d => regWrite 5 ⟨last, be, d⟩
  | .rdUnmapped o => regRead (0b11#2 ++ o)
  | .wrUnmapped o last be d => regWrite (0b11#2 ++ o) ⟨last, be, d⟩

/-! ## Words numbered as the table numbers them -/

/-- A table word has no channel bits, so one word can stand for rows of several channels (log 18). The channel
taken is the one whose row for this word fixes the most bits, the first in table order where several do. Both the
format's own width and its width in whole bytes are read. -/
def tableChannel (nbits w : Nat) : Option Channel :=
  if nbits = 2 then some (if w = 0 ∨ w = 3 then .b .bank else .mB)
  else if nbits = 4 ∨ nbits = 8 then some .reg
  else if nbits = 35 then some (.r .bank)
  else if nbits = 37 then some (.w .bank)
  else if nbits = 40 then
    some (if w % 2 ^ 34 = 0x3DEADBEEF ∧ w < 2 ^ 35 then .r .bank
      else if w / 2 ^ 36 = 7 ∧ w % 8 = 0 then .mAw
      else if w = 2 ^ 36 then .w .bank
      else .aw .bank)
  else if nbits = 73 ∨ nbits = 80 then some .mW
  else none

/-- The operation the decoder reads from a table word of `nbits` bits. The id and a register write's beat,
which the table gives no bits, are zero. -/
def decodeTableWord (nbits w : Nat) : Option Instr :=
  if w < 2 ^ nbits then
    match tableChannel nbits w with
    | none => none
    | some ch => (decode ⟨ch, BitVec.ofNat 80 w, 0, 0⟩).toOption
  else none

end Sys2Proof
end

