-- ==== Sys2Proof/Machine/State.lean ====
section
/-! DEFINITION. The whole state of the machine as plain data (spec 10_state.md), the pins of a cycle
(R37, R38), the state after reset (R39), and the reasons a step can stop. -/

namespace Sys2Proof.Machine

/-! ## The pins of one cycle -/

/-- The inputs of one bus slave in a cycle (R37). A payload is present exactly when its valid is 1, so the
payload of a channel whose valid is 0 has no value at all (U10, log 5). -/
structure SlaveIn where
  aw : Option AxCmd
  w : Option WBeat
  bready : Bool
  ar : Option AxCmd
  rready : Bool
  deriving DecidableEq, Repr

/-- Every valid and ready of the master low. -/
def SlaveIn.idle : SlaveIn := ⟨none, none, false, none, false⟩

/-- The inputs of the whole hardware in a cycle (R37, R38). -/
structure Inputs where
  /-- `rst`, active high (R340) -/
  rst : Bool
  bank : SlaveIn
  dma : SlaveIn
  ref : SlaveIn
  /-- what other logic drives on read-only external cells: position `i` is cell `i` (R23, log 9) -/
  bankExt : List Word
  mAwready : Bool
  mWready : Bool
  /-- the memory's write response, present when `m_bvalid = 1` -/
  mB : Option BResp
  /-- words the filling side puts into the FIFO at the end of the cycle (R262, log 11) -/
  fifoPush : List DWord
  deriving DecidableEq, Repr

/-- A cycle in which no environment agent does anything. -/
def Inputs.idle : Inputs := ⟨false, .idle, .idle, .idle, [], false, false, none, []⟩

/-! ## The slave's machines -/

/-- The states of the write machine (R27). -/
inductive WState where
  | reset
  | waitAddr
  | waitData
  | waitRespReady
  deriving DecidableEq, Repr

/-- The registers of a write machine (R27), and the response handed over at the last edge (log 20). -/
structure WriteMachine where
  wstate : WState
  awready : Bool
  wready : Bool
  bvalid : Bool
  bresp : BitVec 2
  bid : Nat
  wCur : Word
  wMask : Word
  wSize : BitVec 2
  gaveB : Option BResp
  deriving DecidableEq, Repr

/-- The states of the read machine (R28). -/
inductive RState where
  | reset
  | waitValid
  | sendData
  deriving DecidableEq, Repr

/-- The registers of a read machine (R28), and the beat handed over at the last edge (log 20). -/
structure ReadMachine where
  rstate : RState
  arready : Bool
  rvalid : Bool
  rid : Nat
  rCur : Word
  rMask : Word
  rSize : BitVec 2
  rLen : BitVec 4
  gaveR : Option RBeat
  deriving DecidableEq, Repr

/-! ## The DMA write engine -/

/-- The states of the engine (R31, R260). -/
inductive DState where
  | waitStart
  | run
  deriving DecidableEq, Repr

/-- The configuration registers `reg_addr`, `reg_count`, `int_en` (R30). -/
structure DmaRegs where
  addr : Word
  count : Word
  intEn : Bool
  deriving DecidableEq, Repr

/-- The registers of the address channel: `d_awvalid`, `d_awaddr`, `d_awlen`, `a_rem`, `addr_done` (R31). -/
structure AddrChannel where
  awvalid : Bool
  awaddr : Word
  awlen : BitVec 4
  aRem : Nat
  addrDone : Bool
  deriving DecidableEq, Repr

/-- The registers of the data channel: `d_rem`, `b_rem` (R31). -/
structure DataChannel where
  dRem : Nat
  bRem : BitVec 5
  deriving DecidableEq, Repr

/-- The response tracker: `inflight`, `err`, `err_resp` (R31). -/
structure Tracker where
  inflight : Nat
  err : Bool
  errResp : BitVec 2
  deriving DecidableEq, Repr

/-- `busy_prev` and `int_pend` (R31). -/
structure Interrupt where
  busyPrev : Bool
  intPend : Bool
  deriving DecidableEq, Repr

/-- The DMA write engine (R30, R31), and the address and data beat handed over at the last edge (log 20). -/
structure Engine where
  dstate : DState
  ac : AddrChannel
  dc : DataChannel
  trk : Tracker
  irq : Interrupt
  regs : DmaRegs
  gaveAw : Option AxCmd
  gaveW : Option MBeat
  deriving DecidableEq, Repr

/-! ## The state -/

/-- The machine. Addresses of `refMem` are slave-space byte addresses, those of `mem` memory-space ones. -/
structure State where
  /-- the parameters of R6; no step changes them (log 1) -/
  cfg : Config
  /-- the number of the coming edge (R8) -/
  cycle : Nat
  /-- the pins of the coming cycles, the head being the cycle the next edge ends (log 4) -/
  feed : List Inputs
  bankW : WriteMachine
  bankR : ReadMachine
  /-- `x[i]` of the register bank (R22); read/write cells only are stored in it -/
  bankCells : List Word
  dmaW : WriteMachine
  dmaR : ReadMachine
  eng : Engine
  refW : WriteMachine
  refR : ReadMachine
  /-- `ref_mem` of the reference slave, byte by byte, only what has been written (R29, log 8) -/
  refMem : List Host.Cell
  /-- the words in the FIFO, the head first (R262, log 11) -/
  fifo : List DWord
  /-- the memory space: the bytes the engine has handed over (R64, log 10) -/
  mem : List Host.Cell
  deriving DecidableEq, Repr

/-- The write machine after reset (R39); the registers R27 leaves unspecified are zero (DESIGN CHOICE, log 6). -/
def WriteMachine.atReset : WriteMachine :=
  ⟨.reset, false, false, false, 0, 0, 0, 0, 0, none⟩

/-- The read machine after reset (R39); the registers R28 leaves unspecified are zero (DESIGN CHOICE, log 6). -/
def ReadMachine.atReset : ReadMachine :=
  ⟨.reset, false, false, 0, 0, 0, 0, 0, none⟩

/-- The engine after reset (R39); `d_awaddr`, `d_awlen`, `a_rem`, `b_rem` are zero (DESIGN CHOICE, log 6). -/
def Engine.atReset : Engine where
  dstate := .waitStart
  ac := ⟨false, 0, 0, 0, true⟩
  dc := ⟨0, 0⟩
  trk := ⟨0, false, 0⟩
  irq := ⟨false, false⟩
  regs := ⟨0, 0, false⟩
  gaveAw := none
  gaveW := none

/-- The state at power-on under the parameters `c` (R39, R345). The FIFO, which is environment, is empty, and nothing
has been handed to the memory (DESIGN CHOICE, log 11, log 10). -/
def State.powerOn (c : Config) : State where
  cfg := c
  cycle := 0
  feed := []
  bankW := .atReset
  bankR := .atReset
  bankCells := c.bankCells.map CellKind.resetStorage
  dmaW := .atReset
  dmaR := .atReset
  eng := .atReset
  refW := .atReset
  refR := .atReset
  refMem := []
  fifo := []
  mem := []

/-- The machine right after reset (R39), with the default parameters (log 1). -/
def State.reset : State := State.powerOn Config.default

/-- Faults. There is none: no rule of the spec stops the hardware, and the spec's treatment of everything it
leaves outside is `refuse` (93_implementation_defined.md; log 14). -/
inductive Fault where
  deriving DecidableEq, Repr

/-- Why a step has no meaning. Every one is safe: the model stops where the hardware would go on. -/
inductive Refusal where
  /-- raised by an arm of `exec` that has no meaning yet; safe -/
  | notModelled (mnemonic : String)
  /-- U1, R104: a command with burst type `0b11`; raised by AW.RSVD, AR.RSVD and a capture of one; safe -/
  | reservedBurst
  /-- U2, R105: a WRAP command whose beat count is not 2, 4, 8, 16; raised at its capture; safe -/
  | malformedWrap
  /-- U4, R73: size 3 on the 32-bit slave bus; raised at its capture; safe -/
  | sizeTooWide
  /-- U3, R70: a command address that is not a multiple of `1 << size`; raised at its capture; safe -/
  | misaligned
  /-- U7, R267: a start pulse in `WAIT_START` while responses are owed; raised by that write of control; safe -/
  | startWhileOwed
  /-- U9, R65: a start of a transfer that would pass `2^32`; raised by that write of control; safe -/
  | transferPastTop
  /-- U12, R63: parameters outside their bounds; raised by every step under them; safe -/
  | parametersOutOfBounds
  deriving DecidableEq, Repr

end Sys2Proof.Machine
end

