-- ==== Sys2Proof/Machine/Operands.lean ====
section
/-! DEFINITION. The operand forms: the address-advance sequencer (spec 40_address_sequencer.md), the decode of an
address and the byte-lane decoder (41_decode_bytelane.md), and the master's duties on a command (R352). -/

namespace Sys2Proof.Machine

/-! ## The address-advance sequencer -/

/-- `wrap_mask(burst, len, size)` (R131). The reserved burst type has no mask: such a command is refused. -/
def wrapMask (burst : BitVec 2) (len : BitVec 4) (size : BitVec 2) : Option Word :=
  if burst = burstFixed then some 0
  else if burst = burstIncr then some (BitVec.allOnes 32)
  else if burst = burstWrap then some (BitVec.ofNat 32 ((len.toNat + 1) * 2 ^ size.toNat - 1))
  else none

/-- `advance(cur, mask, size)`: one formula for the three burst types, modulo `2^32` (R135). -/
def advance (cur mask : Word) (size : BitVec 2) : Word :=
  (cur &&& ~~~mask) ||| ((cur + (1#32 <<< size.toNat)) &&& mask)

/-! ## Decode -/

/-- `in_range(a)` of a window of `n` cells at `base`, as unsigned comparisons (R150). -/
def inRange (base : Word) (n : Nat) (a : Word) : Bool :=
  decide (base ≤ a) && decide ((a - base).toNat < 4 * n)

/-- `idx(a) = (a - BASE) >> 2` (R151). -/
def idx (base a : Word) : Nat := (a - base).toNat / 4

/-! ## The byte-lane decoder -/

/-- The mask of the enabled lanes: `0xFF` in lane `k` exactly when `be[k] = 1` (R157). -/
def laneMask (be : BitVec 4) : Word :=
  (if be.getLsbD 3 then 0xFF000000#32 else 0) ||| (if be.getLsbD 2 then 0x00FF0000#32 else 0) |||
  (if be.getLsbD 1 then 0x0000FF00#32 else 0) ||| (if be.getLsbD 0 then 0x000000FF#32 else 0)

/-- `val <- (val & ~M) | (data & M)`: only the enabled lanes change (R157). -/
def mergeLanes (be : BitVec 4) (data old : Word) : Word :=
  (old &&& ~~~(laneMask be)) ||| (data &&& laneMask be)

/-- Byte lane `k` of a 32-bit word: bits `8k+7:8k` (R67). -/
def laneByte (v : Word) (k : Nat) : Byte := v.extractLsb' (8 * k) 8

/-- Byte lane `k` of a 64-bit word (R67, R162). -/
def laneByte64 (v : DWord) (k : Nat) : Byte := v.extractLsb' (8 * k) 8

/-! ## The duties of the master on a command -/

/-- The first duty of R352 a command breaks, as the refusal the spec gives it (U1 to U4). -/
def commandBreach (c : AxCmd) : Option Refusal :=
  if c.burst = burstRsvd then some .reservedBurst
  else if c.burst = burstWrap ∧ wrapLenOk c.len = false then some .malformedWrap
  else if c.size = 3 then some .sizeTooWide
  else if addrAligned c.addr c.size = false then some .misaligned
  else none

end Sys2Proof.Machine
end

