-- ==== Sys2Proof/Machine/Flags.lean ====
section
/-! DEFINITION. The flag-like state of R33: the sticky decode error, the first-error latch, `busy`, the status
word, the completion edge and the pending bit. -/

namespace Sys2Proof.Machine

/-- A response code is an error code when its top bit is 1 (R97). -/
def isErrorCode (r : BitVec 2) : Bool := r.getLsbD 1

/-- `busy = (dstate == RUN) | (inflight != 0)` (R32). -/
def Engine.busy (e : Engine) : Bool := decide (e.dstate = .run) || decide (e.trk.inflight ≠ 0)

/-- The status word `{21 zero bits, err_resp, err, 7 zero bits, busy}` (R100, R237). -/
def Engine.statusWord (e : Engine) : Word :=
  (0#21 ++ e.trk.errResp ++ BitVec.ofBool e.trk.err ++ 0#7 ++ BitVec.ofBool e.busy : BitVec 32)

/-- A one-bit field in bit 0 of a word (R34). -/
def bitWord (b : Bool) : Word := (0#31 ++ BitVec.ofBool b : BitVec 32)

/-- The completion edge: `busy_prev = 1` and `busy = 0` (R298). -/
def Engine.completionEdge (e : Engine) : Bool := e.irq.busyPrev && !e.busy

/-- `bresp` after a beat at an address that is in range or not: `raise DECERR` (R310) when it is not, and
never back to OKAY (R176). -/
def raiseDecerr (inRange : Bool) (bresp : BitVec 2) : BitVec 2 :=
  if inRange then bresp else respDecerr

/-- The error flag after a response handshake carrying `r` (R294). -/
def nextErr (err : Bool) (r : BitVec 2) : Bool := err || isErrorCode r

/-- The latched code after a response handshake carrying `r`: the first error wins (R295). -/
def nextErrResp (err : Bool) (errResp r : BitVec 2) : BitVec 2 :=
  if isErrorCode r && !err then r else errResp

/-- `int_pend` after an edge: the completion edge with the enable sets it, and wins over a write-1-to-clear of
the same edge (R299, R300, R243). -/
def nextIntPend (complete intEn clear pend : Bool) : Bool :=
  if complete && intEn then true else if clear then false else pend

end Sys2Proof.Machine
end

