-- ==== Sys2Proof/Machine/Ops.lean ====
section
/-! DEFINITION. The shared operations over memory and registers: byte memory in canonical form, the write and
read machines of a slave (42_write_channel.md, 43_read_channel.md) with `raise DECERR` and its preset (the
spec's only "exception" and "return", R310, R320, R321), the register-bank cells and the reference array. -/

namespace Sys2Proof.Machine

/-! ## Byte memory -/

/-- The canonical form: addresses strictly rising, all inside the 32-bit space. An unlisted byte has no value,
so no entry can equal it. -/
abbrev Memory.wf (m : List Host.Cell) : Prop :=
  m.Pairwise (fun x y => x.1 < y.1) ∧ ∀ x ∈ m, x.1 < addressSpace

/-- The byte at `a`, or none when nothing has written it. -/
def Memory.read : List Host.Cell → Nat → Option Byte
  | [], _ => none
  | c :: m, a => if c.1 = a then some c.2 else Memory.read m a

/-- Write the byte at `a`, keeping the addresses rising. -/
def Memory.write : List Host.Cell → Nat → Byte → List Host.Cell
  | [], a, b => [(a, b)]
  | c :: m, a, b =>
    if a < c.1 then (a, b) :: c :: m
    else if a = c.1 then (a, b) :: m
    else c :: Memory.write m a b

/-- The byte address of lane `k` of the word at `a`, in the 32-bit space (R68). -/
def laneAddr (a : Word) (k : Nat) : Nat := (a + BitVec.ofNat 32 k).toNat

/-- Write lane `k` if it is enabled. -/
def Memory.writeLane (m : List Host.Cell) (a : Word) (en : Bool) (b : Byte) (k : Nat) : List Host.Cell :=
  if en then Memory.write m (laneAddr a k) b else m

/-- The enabled lanes of a 32-bit word at `a` (R222). -/
def Memory.writeWord (m : List Host.Cell) (a : Word) (be : BitVec 4) (d : Word) : List Host.Cell :=
  [0, 1, 2, 3].foldl (fun m k => Memory.writeLane m a (be.getLsbD k) (laneByte d k) k) m

/-- All eight lanes of a 64-bit word at `a` (R269, R68). -/
def Memory.writeDWord (m : List Host.Cell) (a : Word) (d : DWord) : List Host.Cell :=
  [0, 1, 2, 3, 4, 5, 6, 7].foldl (fun m k => Memory.writeLane m a true (laneByte64 d k) k) m

/-! ## The write machine of a slave -/

/-- The command captured at the coming edge: `WAIT_ADDR` with `awvalid = 1` (R173). -/
def WriteMachine.captures (m : WriteMachine) (i : SlaveIn) : Option AxCmd :=
  if m.wstate = .waitAddr then i.aw else none

/-- The beat accepted at the coming edge: `WAIT_DATA` with `wvalid & wready` (R175). -/
def WriteMachine.accepts (m : WriteMachine) (i : SlaveIn) : Option WBeat :=
  if m.wstate = .waitData ∧ m.wready = true then i.w else none

/-- The response offered: `WAIT_RESP_READY` with `bvalid = 1` (R180). -/
def WriteMachine.offersB (m : WriteMachine) : Option BResp :=
  if m.wstate = .waitRespReady ∧ m.bvalid = true then some ⟨m.bid, m.bresp⟩ else none

/-- The response handed over at the coming edge (R180). -/
def WriteMachine.gives (m : WriteMachine) (i : SlaveIn) : Option BResp :=
  if i.bready then m.offersB else none

/-- An edge at which no rule but R181 fires: `awready <- 0`. -/
def WriteMachine.quiet (m : WriteMachine) : WriteMachine := { m with awready := false, gaveB := none }

/-- Capture a command: load the cursor, preset the response to OKAY, echo the id (R130, R173). The mask of the
reserved burst type is never asked for, since the capture is refused. -/
def WriteMachine.capture (m : WriteMachine) (c : AxCmd) : WriteMachine :=
  { m with
    wCur := c.addr
    wSize := c.size
    wMask := (wrapMask c.burst c.len c.size).getD m.wMask
    bresp := respOkay
    bid := c.id
    awready := true
    wready := true
    wstate := .waitData
    gaveB := none }

/-- Accept a beat: latch a decode error, advance the cursor whatever the decode outcome, and end the burst on the
write-last flag (R176, R177, R178). -/
def WriteMachine.takeBeat (base : Word) (n : Nat) (m : WriteMachine) (b : WBeat) : WriteMachine :=
  { m with
    awready := false
    gaveB := none
    bresp := raiseDecerr (inRange base n m.wCur) m.bresp
    wCur := advance m.wCur m.wMask m.wSize
    wready := if b.last then false else m.wready
    bvalid := if b.last then true else m.bvalid
    wstate := if b.last then .waitRespReady else .waitData }

/-- Give the response (R180). -/
def WriteMachine.give (m : WriteMachine) : WriteMachine :=
  { m with awready := false, bvalid := false, wstate := .waitAddr, gaveB := some ⟨m.bid, m.bresp⟩ }

/-- The write machine at an edge with `rst = 0` (R171 to R181). -/
def WriteMachine.next (base : Word) (n : Nat) (m : WriteMachine) (i : SlaveIn) : WriteMachine :=
  match m.wstate with
  | .reset => { m.quiet with wstate := .waitAddr }
  | .waitAddr =>
    match m.captures i with
    | some c => m.capture c
    | none => m.quiet
  | .waitData =>
    match m.accepts i with
    | some b => m.takeBeat base n b
    | none => m.quiet
  | .waitRespReady =>
    match m.gives i with
    | some _ => m.give
    | none => m.quiet

/-- The write machine at an edge with `rst = 1` (R341). -/
def WriteMachine.resetEdge (m : WriteMachine) : WriteMachine :=
  { m with wstate := .reset, awready := false, wready := false, bvalid := false, gaveB := none }

/-! ## The read machine of a slave -/

/-- The command captured at the coming edge: `WAIT_VALID` with `arvalid & arready` (R203). -/
def ReadMachine.captures (m : ReadMachine) (i : SlaveIn) : Option AxCmd :=
  if m.rstate = .waitValid ∧ m.arready = true then i.ar else none

/-- `MemRead`: the word of an address in range with OKAY, else the sentinel with DECERR (R160, R204, R205). -/
def readResult (inRange : Bool) (v : Word) : BitVec 2 × Word :=
  if inRange then (respOkay, v) else (respDecerr, Config.sentinel)

/-- The beat offered in `SEND_DATA` with `rvalid = 1`: `rdata` and `rresp` combinational, `rlast = (r_len == 0)`
(R204, R205, R206). `v` is the value the addressed cell shows in this cycle. -/
def ReadMachine.offersR (m : ReadMachine) (inRange : Bool) (v : Word) : Option RBeat :=
  if m.rstate = .sendData ∧ m.rvalid = true then
    some ⟨m.rid, decide (m.rLen = 0), (readResult inRange v).1, (readResult inRange v).2⟩
  else none

/-- Capture a command (R130, R203). -/
def ReadMachine.capture (m : ReadMachine) (c : AxCmd) : ReadMachine :=
  { m with
    rid := c.id
    rCur := c.addr
    rLen := c.len
    rSize := c.size
    rMask := (wrapMask c.burst c.len c.size).getD m.rMask
    arready := false
    rvalid := true
    rstate := .sendData
    gaveR := none }

/-- Give a beat: the last one returns to `WAIT_VALID` (R207), another advances the cursor (R208). -/
def ReadMachine.give (m : ReadMachine) (b : RBeat) : ReadMachine :=
  if m.rLen = 0 then
    { m with rvalid := false, arready := true, rstate := .waitValid, gaveR := some b }
  else
    { m with rCur := advance m.rCur m.rMask m.rSize, rLen := m.rLen - 1, gaveR := some b }

/-- An edge at which no rule fires. -/
def ReadMachine.quiet (m : ReadMachine) : ReadMachine := { m with gaveR := none }

/-- The read machine at an edge with `rst = 0` (R201 to R209). `offered` is the beat on the wires. -/
def ReadMachine.next (offered : Option RBeat) (m : ReadMachine) (i : SlaveIn) : ReadMachine :=
  match m.rstate with
  | .reset => { m.quiet with arready := true, rstate := .waitValid }
  | .waitValid =>
    match m.captures i with
    | some c => m.capture c
    | none => m.quiet
  | .sendData =>
    match offered with
    | some b => if i.rready then m.give b else m.quiet
    | none => m.quiet

/-- The read machine at an edge with `rst = 1` (R341). -/
def ReadMachine.resetEdge (m : ReadMachine) : ReadMachine :=
  { m with rstate := .reset, arready := false, rvalid := false, gaveR := none }

/-! ## The cells of the register bank -/

/-- `read()` of cell `i` (R154). `ext` is what other logic drives; a cell it says nothing of shows a free value
(log 9). -/
def readCell (c : Config) (cycle : Nat) (ext cells : List Word) (i : Nat) : Word :=
  match c.bankCells[i]? with
  | some (.fixed v) => v
  | some .external => (ext[i]?).getD (Config.undriven cycle i)
  | some (.readWrite _) => cells.getD i 0
  | none => 0

/-- `write(be, data)` of cell `i` (R154, R157): a read-only cell ignores it. -/
def writeCell (c : Config) (cells : List Word) (i : Nat) (be : BitVec 4) (d : Word) : List Word :=
  match c.bankCells[i]? with
  | some (.readWrite _) => cells.set i (mergeLanes be d (cells.getD i 0))
  | _ => cells

/-- The cells at an edge with `rst = 1`: every read/write cell takes `CELL_RESET[i]` (R25, R341). -/
def resetCells (c : Config) : List Word := c.bankCells.map CellKind.resetStorage

/-! ## The reference slave's array -/

/-- The slave-space byte address of word `i` (R221). -/
def refWordAddr (base : Word) (i : Nat) : Word := base + BitVec.ofNat 32 (4 * i)

/-- One byte of `ref_mem`: what was written, else the free value of power-on (R226, log 8). -/
def refByte (m : List Host.Cell) (a : Nat) : Byte := (Memory.read m a).getD (Config.refPowerOn a)

/-- `ref_mem[i]` (R223). -/
def refWord (base : Word) (m : List Host.Cell) (i : Nat) : Word :=
  let a := refWordAddr base i
  (refByte m (laneAddr a 3) ++ refByte m (laneAddr a 2) ++ refByte m (laneAddr a 1) ++ refByte m (laneAddr a 0) :
    BitVec 32)

end Sys2Proof.Machine
end

