-- ==== Sys2Proof/Machine/Engine.lean ====
section
/-! DEFINITION. The DMA write engine: its six registers (45_dma_registers.md), the burst splitter
(46_dma_burst_splitter.md) and the response tracker (47_dma_response_tracker.md). -/

namespace Sys2Proof.Machine

/-! ## The six registers -/

/-- A write access to word `word` of the block: an accepted beat of the `dma` slave in range (R230). -/
structure RegWrite where
  word : Nat
  be : BitVec 4
  d : Word
  deriving DecidableEq, Repr

/-- The low `w` bits of a 32-bit word. -/
def lowBits (w : Nat) (v : Word) : Word := BitVec.ofNat 32 (v.toNat % 2 ^ w)

/-- A write of `reg_addr` under the byte enables; bits 2:0 are zero (R233). -/
def DmaRegs.writeAddr (r : DmaRegs) (be : BitVec 4) (d : Word) : DmaRegs :=
  { r with addr := mergeLanes be d r.addr &&& 0xFFFFFFF8 }

/-- A write of `reg_count`; bits at or above `COUNT_W` are dropped (R235). -/
def DmaRegs.writeCount (c : Config) (r : DmaRegs) (be : BitVec 4) (d : Word) : DmaRegs :=
  { r with count := lowBits c.countW (mergeLanes be d r.count) }

/-- A write of `int_en`, in byte lane 0 (R241, R231). -/
def DmaRegs.writeIntEn (r : DmaRegs) (be : BitVec 4) (d : Word) : DmaRegs :=
  { r with intEn := if be.getLsbD 0 then d.getLsbD 0 else r.intEn }

/-- The configuration registers after an edge with the register write `wr`: words 0, 1 and 4 hold configuration;
status ignores writes, control stores nothing, interrupt-status is not configuration (R233 to R243). -/
def DmaRegs.next (c : Config) (r : DmaRegs) (wr : Option RegWrite) : DmaRegs :=
  match wr with
  | none => r
  | some a =>
    if a.word = 0 then r.writeAddr a.be a.d
    else if a.word = 1 then r.writeCount c a.be a.d
    else if a.word = 4 then r.writeIntEn a.be a.d
    else r

/-- `start = be[0] & d[0]` of a write of control (R239). -/
def startPulse (wr : Option RegWrite) : Bool :=
  match wr with
  | none => false
  | some a => decide (a.word = 3) && a.be.getLsbD 0 && a.d.getLsbD 0

/-- The write-1-to-clear of interrupt-status (R243). -/
def clearPulse (wr : Option RegWrite) : Bool :=
  match wr with
  | none => false
  | some a => decide (a.word = 5) && a.be.getLsbD 0 && a.d.getLsbD 0

/-- `read()` of word `k` of the block (R234, R236, R237, R240, R242, R244). -/
def Engine.readReg (e : Engine) (k : Nat) : Word :=
  if k = 0 then e.regs.addr &&& 0xFFFFFFF8
  else if k = 1 then e.regs.count
  else if k = 2 then e.statusWord
  else if k = 4 then bitWord e.regs.intEn
  else if k = 5 then bitWord e.irq.intPend
  else 0

/-! ## The burst splitter -/

/-- The words of a run: `n = reg_count + 1` (R265). -/
def DmaRegs.words (r : DmaRegs) : Nat := r.count.toNat + 1

/-- `first_len(addr, n)`: up to the next multiple of 128, or the whole transfer (R263). -/
def firstLen (addr : Word) (n : Nat) : Nat := min n (16 - addr.toNat / 8 % 16)

/-- The address channel at the start of a run (R265). -/
def AddrChannel.start (r : DmaRegs) : AddrChannel where
  awvalid := true
  awaddr := r.addr
  awlen := BitVec.ofNat 4 (firstLen r.addr r.words - 1)
  aRem := r.words - firstLen r.addr r.words
  addrDone := false

/-- The data channel at the start of a run (R265). -/
def DataChannel.start (r : DmaRegs) : DataChannel where
  dRem := r.words
  bRem := BitVec.ofNat 5 (firstLen r.addr r.words)

/-- `next_addr = d_awaddr + 8 * (d_awlen + 1)` modulo `2^32` (R271). -/
def AddrChannel.nextAddr (a : AddrChannel) : Word := a.awaddr + BitVec.ofNat 32 (8 * (a.awlen.toNat + 1))

/-- An address handshake: a full burst follows, the final one, or nothing (R270, R272). -/
def AddrChannel.handshake (a : AddrChannel) : AddrChannel :=
  if a.aRem > 15 then { a with awaddr := a.nextAddr, awlen := 15, aRem := a.aRem - 16 }
  else if a.aRem > 0 then
    { a with awaddr := a.nextAddr, awlen := BitVec.ofNat 4 (a.aRem - 1), aRem := 0 }
  else { a with awvalid := false, addrDone := true }

/-- A data handshake: count the word and look ahead at most 16 for the next last beat (R273). -/
def DataChannel.handshake (d : DataChannel) : DataChannel where
  dRem := d.dRem - 1
  bRem :=
    if d.bRem = 1 then (if d.dRem - 1 > 15 then 16 else BitVec.ofNat 5 (d.dRem - 1)) else d.bRem - 1

/-- The address the engine offers: `m_awvalid = d_awvalid`, burst INCR, size 3, id `M_ID` (R261). -/
def Engine.offersAw (c : Config) (e : Engine) : Option AxCmd :=
  if e.ac.awvalid then some ⟨c.mId, e.ac.awaddr, e.ac.awlen, 3, burstIncr⟩ else none

/-- The data beat the engine offers: `m_wvalid = (dstate == RUN) & (d_rem != 0) & fifo_r_rdy`,
`m_wlast = (b_rem == 1)` (R268). The FIFO shows its head word in the cycle (R262). -/
def Engine.offersW (e : Engine) (fifo : List DWord) : Option MBeat :=
  if e.dstate = .run ∧ e.dc.dRem ≠ 0 then
    match fifo with
    | [] => none
    | d :: _ => some ⟨decide (e.dc.bRem = 1), d⟩
  else none

/-- The memory-space address the data word now offered belongs to (DEDUCED, log 10). The words of a run go to
ascending addresses from its start (R64), so word `d_rem` from the end lies `8 * d_rem` below the end of the run,
and the end is `next_addr + 8 * a_rem` at every point of it (R270, R271). -/
def Engine.dataAddr (e : Engine) : Word :=
  e.ac.nextAddr + BitVec.ofNat 32 (8 * e.ac.aRem) - BitVec.ofNat 32 (8 * e.dc.dRem)

/-! ## The engine at an edge -/

/-- The start that fires at the coming edge: the pulse in `WAIT_START` (R265, R266). -/
def Engine.starts (e : Engine) (wr : Option RegWrite) : Bool :=
  startPulse wr && decide (e.dstate = .waitStart)

/-- `inc = d_awvalid & m_awready` (R291). -/
def Engine.addrHandshake (e : Engine) (i : Inputs) : Bool := e.ac.awvalid && i.mAwready

/-- The data word handed over at the coming edge: `m_wvalid & m_wready` (R273, R275). -/
def Engine.dataHandshake (e : Engine) (i : Inputs) (fifo : List DWord) : Option MBeat :=
  if i.mWready then e.offersW fifo else none

/-- The in-flight counter, in either state: unchanged when an address and a response are handed over at one edge,
counting up modulo `2^INFL_W` (R291, R7). A response nobody is owed leaves it at 0, as U8 allows (R293, log 31). -/
def nextInflight (c : Config) (inflight : Nat) (inc dec : Bool) : Nat :=
  if inc = dec then inflight else if inc then (inflight + 1) % 2 ^ c.inflW else inflight - 1

/-- The latches cleared by a start (R265). -/
def Tracker.cleared (t : Tracker) (start : Bool) : Tracker :=
  if start then { t with err := false, errResp := respOkay } else t

/-- The latches after a response (R294, R295), be it owed or not (U8). -/
def Tracker.answered (t : Tracker) (resp : BitVec 2) : Tracker :=
  { t with err := nextErr t.err resp, errResp := nextErrResp t.err t.errResp resp }

/-- The latches at an edge: a start clears them (R265), a response updates them (R294, R295). Where both fall on one edge
and the response carries an error code, `outlasts` says whether the code is latched: a free value (log 22). -/
def Tracker.latched (t : Tracker) (start : Bool) (resp : Option BResp) (outlasts : Bool) : Tracker :=
  match resp with
  | some b =>
    if isErrorCode b.resp && start && !outlasts then t.cleared start else (t.cleared start).answered b.resp
  | none => t.cleared start

/-- The tracker at an edge: the counter (R291) and the latches. -/
def Tracker.next (c : Config) (t : Tracker) (start inc : Bool) (resp : Option BResp) (outlasts : Bool) : Tracker :=
  { t.latched start resp outlasts with inflight := nextInflight c t.inflight inc resp.isSome }

/-- The state register: a start runs (R265), the run completes when both channels are done (R277). -/
def Engine.nextState (e : Engine) (start : Bool) : DState :=
  if start then .run
  else if e.dstate = .run ∧ e.ac.addrDone = true ∧ e.dc.dRem = 0 then .waitStart
  else e.dstate

/-- The engine at an edge with `rst = 0`; everything on the right is the value before the edge (R8).
`outlasts` is the free value of log 22. -/
def Engine.next (c : Config) (e : Engine) (i : Inputs) (fifo : List DWord) (wr : Option RegWrite)
    (outlasts : Bool) : Engine where
  dstate := e.nextState (e.starts wr)
  ac :=
    if e.starts wr then AddrChannel.start e.regs
    else if e.dstate = .run ∧ e.addrHandshake i = true then e.ac.handshake else e.ac
  dc :=
    if e.starts wr then DataChannel.start e.regs
    else if (e.dataHandshake i fifo).isSome then e.dc.handshake else e.dc
  trk := e.trk.next c (e.starts wr) (e.addrHandshake i) i.mB outlasts
  irq := ⟨e.busy, nextIntPend e.completionEdge e.regs.intEn (clearPulse wr) e.irq.intPend⟩
  regs := e.regs.next c wr
  gaveAw := if i.mAwready then e.offersAw c else none
  gaveW := e.dataHandshake i fifo

/-- The engine at an edge with `rst = 1` (R343). -/
def Engine.resetEdge (e : Engine) : Engine where
  dstate := .waitStart
  ac := { e.ac with awvalid := false, addrDone := true }
  dc := { e.dc with dRem := 0 }
  trk := ⟨0, false, 0⟩
  irq := ⟨false, false⟩
  regs := ⟨0, 0, false⟩
  gaveAw := none
  gaveW := none

/-- A transfer that would pass `2^32`: `reg_addr + 8*(reg_count+1) > 2^32` (R65, U9). -/
def DmaRegs.pastTop (r : DmaRegs) : Bool := decide (r.addr.toNat + 8 * r.words > addressSpace)

/-- The duty of software that the coming edge breaks (U7, U9). Where it breaks both, the first named here gives the name
(DESIGN CHOICE, log 14). -/
def Engine.breach (e : Engine) (wr : Option RegWrite) : Option Refusal :=
  if e.starts wr = true ∧ e.trk.inflight ≠ 0 then some .startWhileOwed
  else if e.starts wr = true ∧ e.regs.pastTop = true then some .transferPastTop
  else none

end Sys2Proof.Machine
end

