-- ==== Sys2Proof/Machine/Clock.lean ====
section
/-! DEFINITION. One rising edge of the clock for the whole hardware: all machines together, every right side read
before the edge (spec R8, R317, R319), the outputs of a cycle (R37, R38), and how the environment plays its side
of an operation. -/

namespace Sys2Proof.Machine

/-! ## The ports of a slave -/

/-- The write machine of slave `p`. -/
def State.wm (p : Port) (s : State) : WriteMachine :=
  match p with
  | .bank => s.bankW
  | .dma => s.dmaW
  | .ref => s.refW

/-- The read machine of slave `p`. -/
def State.rm (p : Port) (s : State) : ReadMachine :=
  match p with
  | .bank => s.bankR
  | .dma => s.dmaR
  | .ref => s.refR

/-- `BASE` of slave `p`. -/
def Config.base (p : Port) (c : Config) : Word :=
  match p with
  | .bank => c.bankBase
  | .dma => c.dmaBase
  | .ref => c.refBase

/-- `NCELLS` of slave `p` (R221: `REF_WORDS` for the reference slave). -/
def Config.cells (p : Port) (c : Config) : Nat :=
  match p with
  | .bank => c.bankCells.length
  | .dma => Config.dmaCells
  | .ref => c.refWords

/-- The pins of slave `p` in a cycle. -/
def Inputs.port (p : Port) (i : Inputs) : SlaveIn :=
  match p with
  | .bank => i.bank
  | .dma => i.dma
  | .ref => i.ref

/-- Change the pins of slave `p`. -/
def Inputs.onPort (p : Port) (f : SlaveIn → SlaveIn) (i : Inputs) : Inputs :=
  match p with
  | .bank => { i with bank := f i.bank }
  | .dma => { i with dma := f i.dma }
  | .ref => { i with ref := f i.ref }

/-- The low `w` bits of an id: what an id port of `w` bits carries (R37, R38, R91; log 16). -/
def fitId (w id : Nat) : Nat := id % 2 ^ w

/-- A command on a channel whose id port has `w` bits. -/
def fitCmd (w : Nat) (c : AxCmd) : AxCmd := { c with id := fitId w c.id }

/-- A response on a channel whose id port has `w` bits. -/
def fitResp (w : Nat) (b : BResp) : BResp := { b with id := fitId w b.id }

/-- The pins of a slave with id ports of `w` bits: `awid` and `arid` (R37). -/
def SlaveIn.fit (w : Nat) (i : SlaveIn) : SlaveIn := { i with aw := i.aw.map (fitCmd w), ar := i.ar.map (fitCmd w) }

/-- The pins of the hardware: `S_ID_W` bits of id at each slave, `M_ID_W` at `m_bid` (R6, R37, R38). -/
def Inputs.fit (c : Config) (i : Inputs) : Inputs :=
  { i with
    bank := i.bank.fit c.sIdW
    dma := i.dma.fit c.sIdW
    ref := i.ref.fit c.sIdW
    mB := i.mB.map (fitResp c.mIdW) }

/-- The pins of the cycle the coming edge ends: the head of the feed, as the ports carry it; when the feed is used up
the environment does nothing (log 4). -/
def State.inputs (s : State) : Inputs := (s.feed.headD Inputs.idle).fit s.cfg

/-- Whether reset reaches a machine of slave `p` at the coming edge, `inReset` saying that the machine is in `RESET`.
The reference slave without `REF_RESET_RECOVERY` heeds `rst` only until it has left its start-up `RESET`, which R171
and R201 do at edges with `rst = 0` (R224, R225, R344; log 26). -/
def State.resetReaches (p : Port) (inReset : Bool) (s : State) : Bool :=
  match p with
  | .ref => s.inputs.rst && (s.cfg.refResetRecovery || inReset)
  | _ => s.inputs.rst

/-- Whether the coming edge resets the write machine of slave `p`. -/
def State.resetsW (p : Port) (s : State) : Bool := s.resetReaches p (decide ((s.wm p).wstate = .reset))

/-- Whether the coming edge resets the read machine of slave `p`. -/
def State.resetsR (p : Port) (s : State) : Bool := s.resetReaches p (decide ((s.rm p).rstate = .reset))

/-- `in_range` of an address of slave `p`. -/
def State.decodes (p : Port) (a : Word) (s : State) : Bool :=
  inRange (Config.base p s.cfg) (Config.cells p s.cfg) a

/-- The cell of slave `p` an address selects. -/
def State.cellOf (p : Port) (a : Word) (s : State) : Nat := idx (Config.base p s.cfg) a

/-- `read()` of the cell of slave `p` that `a` selects, in this cycle (R156, R204, R223, R230). -/
def State.cellValue (p : Port) (a : Word) (s : State) : Word :=
  match p with
  | .bank => readCell s.cfg s.cycle s.inputs.bankExt s.bankCells (s.cellOf .bank a)
  | .dma => s.eng.readReg (s.cellOf .dma a)
  | .ref => refWord s.cfg.refBase s.refMem (s.cellOf .ref a)

/-- The read beat slave `p` offers in this cycle (R204 to R206). -/
def State.offersR (p : Port) (s : State) : Option RBeat :=
  (s.rm p).offersR (s.decodes p (s.rm p).rCur) (s.cellValue p (s.rm p).rCur)

/-- The beat slave `p` accepts at the coming edge (R175), none when the edge resets it (R317). -/
def State.acceptsW (p : Port) (s : State) : Option WBeat :=
  if s.resetsW p then none else (s.wm p).accepts (s.inputs.port p)

/-- The write access of the DMA block at the coming edge (R230, R239). -/
def State.regWrite (s : State) : Option RegWrite :=
  match s.acceptsW .dma with
  | some b => if s.decodes .dma s.dmaW.wCur then some ⟨s.cellOf .dma s.dmaW.wCur, b.strb, b.data⟩ else none
  | none => none

/-! ## The edge -/

/-- The register bank's cells after the edge (R155, R157, R341). -/
def State.nextCells (s : State) : List Word :=
  if s.inputs.rst then resetCells s.cfg
  else
    match s.acceptsW .bank with
    | some b =>
      if s.decodes .bank s.bankW.wCur then writeCell s.cfg s.bankCells (s.cellOf .bank s.bankW.wCur) b.strb b.data
      else s.bankCells
    | none => s.bankCells

/-- The reference slave's array after the edge (R222, R226). -/
def State.nextRefMem (s : State) : List Host.Cell :=
  match s.acceptsW .ref with
  | some b =>
    if s.decodes .ref s.refW.wCur then
      Memory.writeWord s.refMem (refWordAddr s.cfg.refBase (s.cellOf .ref s.refW.wCur)) b.strb b.data
    else s.refMem
  | none => s.refMem

/-- The write machine of slave `p` after the edge. -/
def State.nextW (p : Port) (s : State) : WriteMachine :=
  if s.resetsW p then (s.wm p).resetEdge
  else (s.wm p).next (Config.base p s.cfg) (Config.cells p s.cfg) (s.inputs.port p)

/-- The read machine of slave `p` after the edge. -/
def State.nextR (p : Port) (s : State) : ReadMachine :=
  if s.resetsR p then (s.rm p).resetEdge else (s.rm p).next (s.offersR p) (s.inputs.port p)

/-- The data word the engine hands over at the coming edge, none under reset (R273, R317). -/
def State.dataOut (s : State) : Option MBeat :=
  if s.inputs.rst then none else s.eng.dataHandshake s.inputs s.fifo

/-- The memory space after the edge: the handed-over word at its address (R64, R68, log 10). -/
def State.nextMem (s : State) : List Host.Cell :=
  match s.dataOut with
  | some b => Memory.writeDWord s.mem s.eng.dataAddr b.data
  | none => s.mem

/-- The FIFO after the edge: the head dropped when taken (R262, R275), then what the filling side put in. -/
def State.nextFifo (s : State) : List DWord :=
  (match s.dataOut with
    | some _ => s.fifo.tail
    | none => s.fifo) ++ s.inputs.fifoPush

/-- The engine after the edge. -/
def State.nextEng (s : State) : Engine :=
  if s.inputs.rst then s.eng.resetEdge else s.eng.next s.cfg s.inputs s.fifo s.regWrite (Config.outlastsStart s.cycle)

/-- The whole hardware after the edge; the cycle's pins are used up. -/
def State.edge (s : State) : State where
  cfg := s.cfg
  cycle := s.cycle + 1
  feed := s.feed.tail
  bankW := s.nextW .bank
  bankR := s.nextR .bank
  bankCells := s.nextCells
  dmaW := s.nextW .dma
  dmaR := s.nextR .dma
  eng := s.nextEng
  refW := s.nextW .ref
  refR := s.nextR .ref
  refMem := s.nextRefMem
  fifo := s.nextFifo
  mem := s.nextMem

/-! ## What the spec refuses -/

/-- The write command captured at the coming edge by slave `p`, none when the edge resets it (R173, R317). -/
def State.capturesW (p : Port) (s : State) : Option AxCmd :=
  if s.resetsW p then none else (s.wm p).captures (s.inputs.port p)

/-- The read command captured at the coming edge by slave `p`, none when the edge resets it (R203, R317). -/
def State.capturesR (p : Port) (s : State) : Option AxCmd :=
  if s.resetsR p then none else (s.rm p).captures (s.inputs.port p)

/-- The duty a captured command of slave `p` breaks: commands are judged where they are captured (R173, R203). Where a
write and a read command captured at one edge both break a duty, the write command's gives the name (DESIGN CHOICE,
log 12). -/
def State.portBreach (p : Port) (s : State) : Option Refusal :=
  ((s.capturesW p).bind commandBreach).or ((s.capturesR p).bind commandBreach)

/-- The duty software breaks at the engine (U7, U9). -/
def State.engineBreach (s : State) : Option Refusal :=
  if s.inputs.rst then none else s.eng.breach s.regWrite

/-- The first duty the coming edge breaks: bank, DMA block, reference slave, engine (DESIGN CHOICE, log 14). -/
def State.breach (s : State) : Option Refusal :=
  (s.portBreach .bank).or ((s.portBreach .dma).or ((s.portBreach .ref).or s.engineBreach))

/-- One clock edge: the next state, or the refusal the spec asks for (93_implementation_defined.md). -/
def State.clock (s : State) : Host.Outcome State Fault Refusal :=
  if s.cfg.wf then
    match s.breach with
    | some r => .refused r
    | none => .next s.edge
  else .refused .parametersOutOfBounds

/-! ## The outputs of a cycle (R37, R38) -/

/-- The outputs of a slave. A payload is present exactly when its valid is 1 (U10, log 5). -/
structure SlaveOut where
  awready : Bool
  wready : Bool
  b : Option BResp
  arready : Bool
  r : Option RBeat
  deriving DecidableEq, Repr

/-- The outputs of the engine; `m_wstrb` is `0xFF` in every cycle (R269). -/
structure EngineOut where
  aw : Option AxCmd
  w : Option MBeat
  wstrb : BitVec 8
  bready : Bool
  fifoREn : Bool
  irq : Bool
  deriving DecidableEq, Repr

/-- The outputs of slave `p` in this cycle (R170, R200). -/
def State.slaveOut (p : Port) (s : State) : SlaveOut :=
  ⟨(s.wm p).awready, (s.wm p).wready, (s.wm p).offersB, (s.rm p).arready, s.offersR p⟩

/-- The outputs of the engine in this cycle: `m_bready = 1` (R290), `fifo_r_en = m_wvalid & m_wready` (R275),
`irq = int_pend` (R301). -/
def State.engineOut (s : State) : EngineOut :=
  ⟨s.eng.offersAw s.cfg, s.eng.offersW s.fifo, 0xFF, true, (s.eng.dataHandshake s.inputs s.fifo).isSome,
    s.eng.irq.intPend⟩

/-! ## Playing the environment's side of an operation (log 3, log 25)

`exec` of an operation is the edge of a cycle whose pins are those of the feed, with this operation's pins driven:
a payload the hardware receives is put on its channel; for one the hardware gives, the receiver raises its ready
exactly when that payload is what is offered. -/

/-- Drive pins in the cycle the coming edge ends. -/
def State.drive (f : Inputs → Inputs) (s : State) : State := { s with feed := f s.inputs :: s.feed.tail }

/-- Drive pins of slave `p`. -/
def State.drivePort (p : Port) (f : SlaveIn → SlaveIn) (s : State) : State := s.drive (Inputs.onPort p f)

/-- The master offers a command on AW. -/
def offerAw (p : Port) (c : AxCmd) (s : State) : Host.Outcome State Fault Refusal :=
  (s.drivePort p fun q => { q with aw := some c }).clock

/-- The master offers a command on AR. -/
def offerAr (p : Port) (c : AxCmd) (s : State) : Host.Outcome State Fault Refusal :=
  (s.drivePort p fun q => { q with ar := some c }).clock

/-- A command of the reserved burst type has no meaning, in whatever state it is offered (R104, U1). -/
def refuseReserved (s : State) : Host.Outcome State Fault Refusal :=
  if s.cfg.wf then .refused .reservedBurst else .refused .parametersOutOfBounds

/-- The master offers a beat on W. -/
def offerW (p : Port) (b : WBeat) (s : State) : Host.Outcome State Fault Refusal :=
  (s.drivePort p fun q => { q with w := some b }).clock

/-- The master takes response `b`, if that is the one offered. -/
def takeB (p : Port) (b : BResp) (s : State) : Host.Outcome State Fault Refusal :=
  (s.drivePort p fun q => { q with bready := decide ((s.wm p).offersB = some b) }).clock

/-- The master takes read beat `b`, if that is the one offered. -/
def takeR (p : Port) (b : RBeat) (s : State) : Host.Outcome State Fault Refusal :=
  (s.drivePort p fun q => { q with rready := decide (s.offersR p = some b) }).clock

/-- The memory takes address `a`, if that is the one offered. -/
def takeMAw (a : AxCmd) (s : State) : Host.Outcome State Fault Refusal :=
  (s.drive fun i => { i with mAwready := decide (s.eng.offersAw s.cfg = some a) }).clock

/-- The memory takes data beat `b`, if that is the one offered. -/
def takeMW (b : MBeat) (s : State) : Host.Outcome State Fault Refusal :=
  (s.drive fun i => { i with mWready := decide (s.eng.offersW s.fifo = some b) }).clock

/-- The memory gives a write response; `m_bready = 1` always (R290). -/
def offerMB (b : BResp) (s : State) : Host.Outcome State Fault Refusal :=
  (s.drive fun i => { i with mB := some b }).clock

/-- The write machine of the `dma` slave is at a beat of word `k` (R230): in `WAIT_DATA`, cursor in range. -/
def State.atWriteOf (k : Nat) (s : State) : Bool :=
  decide (s.dmaW.wstate = .waitData) && s.dmaW.wready && s.decodes .dma s.dmaW.wCur &&
  decide (s.cellOf .dma s.dmaW.wCur = k)

/-- The write machine of the `dma` slave is at a beat outside the six words (R246). -/
def State.atWriteOutside (s : State) : Bool :=
  decide (s.dmaW.wstate = .waitData) && s.dmaW.wready && !s.decodes .dma s.dmaW.wCur

/-- The read machine of the `dma` slave is at a beat of word `k` (R230). -/
def State.atReadOf (k : Nat) (s : State) : Bool :=
  decide (s.dmaR.rstate = .sendData) && s.dmaR.rvalid && s.decodes .dma s.dmaR.rCur &&
  decide (s.cellOf .dma s.dmaR.rCur = k)

/-- The read machine of the `dma` slave is at a beat outside the six words (R245). -/
def State.atReadOutside (s : State) : Bool :=
  decide (s.dmaR.rstate = .sendData) && s.dmaR.rvalid && !s.decodes .dma s.dmaR.rCur

/-- A write access of the DMA block: the master offers the beat when the machine is at the access (log 21). -/
def writeAccess (here : Bool) (b : WBeat) (s : State) : Host.Outcome State Fault Refusal :=
  (s.drivePort .dma fun q => { q with w := if here then some b else none }).clock

/-- A read access of the DMA block: the master takes the beat when the machine is at the access (log 21). -/
def readAccess (here : Bool) (s : State) : Host.Outcome State Fault Refusal :=
  (s.drivePort .dma fun q => { q with rready := here }).clock

end Sys2Proof.Machine
end

