-- ==== Sys2Proof/Machine/DmaMaster.lean ====
section
/-! DEFINITION. What the DMA write engine gives to the memory bus (spec 46_dma_burst_splitter.md). -/

namespace Sys2Proof.Machine

/-- DMA.AW: hand over a burst address (R270 to R272, R261, R291). -/
def execDmaAw (id : Nat) (len : BitVec 4) (addr : Word) (s : State) : Host.Outcome State Fault Refusal :=
  takeMAw ⟨id, addr, len, 3, burstIncr⟩ s

/-- DMA.W: hand over a data word that does not end its burst (R268, R273, R275). -/
def execDmaW (data : DWord) (s : State) : Host.Outcome State Fault Refusal :=
  takeMW ⟨false, data⟩ s

/-- DMA.WLAST: hand over the data word that ends its burst (R268, R273, R275). -/
def execDmaWlast (data : DWord) (s : State) : Host.Outcome State Fault Refusal :=
  takeMW ⟨true, data⟩ s

end Sys2Proof.Machine
end

