-- ==== Sys2Proof/Machine/DmaResponse.lean ====
section
/-! DEFINITION. The write responses the DMA write engine accepts (spec 47_dma_response_tracker.md). The id is not
looked at (R293). A response nobody is owed is run as U8 allows: the counter stays at 0, the latches follow R294 and
R295 (log 31). -/

namespace Sys2Proof.Machine

/-- MB.OKAY: one burst answered, no error (R291, R294). -/
def execMbOkay (id : Nat) (s : State) : Host.Outcome State Fault Refusal := offerMB ⟨id, respOkay⟩ s

/-- MB.EXOKAY: one burst answered, no error, since the top bit is 0 (R291, R294, R98). -/
def execMbExokay (id : Nat) (s : State) : Host.Outcome State Fault Refusal := offerMB ⟨id, respExokay⟩ s

/-- MB.SLVERR: one burst answered with an error (R291, R294, R295). -/
def execMbSlverr (id : Nat) (s : State) : Host.Outcome State Fault Refusal := offerMB ⟨id, respSlverr⟩ s

/-- MB.DECERR: one burst answered with an error (R291, R294, R295). -/
def execMbDecerr (id : Nat) (s : State) : Host.Outcome State Fault Refusal := offerMB ⟨id, respDecerr⟩ s

end Sys2Proof.Machine
end

