-- ==== Sys2Proof/Machine/ReadChannel.lean ====
section
/-! DEFINITION. The operations of a slave's read channels: AR, R (spec 43_read_channel.md). -/

namespace Sys2Proof.Machine

/-- AR.FIXED: accept a command whose address does not move (R203, R136). -/
def execArFixed (p : Port) (id : Nat) (size : BitVec 2) (len : BitVec 4) (addr : Word) (s : State) :
    Host.Outcome State Fault Refusal :=
  offerAr p ⟨id, addr, len, size, burstFixed⟩ s

/-- AR.INCR: accept a command whose address climbs (R203, R137). -/
def execArIncr (p : Port) (id : Nat) (size : BitVec 2) (len : BitVec 4) (addr : Word) (s : State) :
    Host.Outcome State Fault Refusal :=
  offerAr p ⟨id, addr, len, size, burstIncr⟩ s

/-- AR.WRAP: accept a command whose address wraps in its window (R203, R138). -/
def execArWrap (p : Port) (id : Nat) (size : BitVec 2) (len : BitVec 4) (addr : Word) (s : State) :
    Host.Outcome State Fault Refusal :=
  offerAr p ⟨id, addr, len, size, burstWrap⟩ s

/-- AR.RSVD: refused (R104). -/
def execArRsvd (_p : Port) (_id : Nat) (_size : BitVec 2) (_len : BitVec 4) (_addr : Word) (s : State) :
    Host.Outcome State Fault Refusal :=
  refuseReserved s

/-- R.OKAY: give a beat at an address in range (R204 to R208). -/
def execROkay (p : Port) (id : Nat) (last : Bool) (data : Word) (s : State) : Host.Outcome State Fault Refusal :=
  takeR p ⟨id, last, respOkay, data⟩ s

/-- R.DECERR: give a beat at an address out of range, with the sentinel (R204 to R208). -/
def execRDecerr (p : Port) (id : Nat) (last : Bool) (s : State) : Host.Outcome State Fault Refusal :=
  takeR p ⟨id, last, respDecerr, Config.sentinel⟩ s

end Sys2Proof.Machine
end

