-- ==== Sys2Proof/Machine/Registers.lean ====
section
/-! DEFINITION. The register accesses of the DMA configuration block (spec 45_dma_registers.md): a beat of the `dma`
slave seen at the word it is for. -/

namespace Sys2Proof.Machine

/-- RD.ADDR: read word 0, reg_addr (R234). -/
def execRdAddr (s : State) : Host.Outcome State Fault Refusal := readAccess (s.atReadOf 0) s

/-- WR.ADDR: write word 0, reg_addr (R233). -/
def execWrAddr (last : Bool) (be : BitVec 4) (d : Word) (s : State) : Host.Outcome State Fault Refusal :=
  writeAccess (s.atWriteOf 0) ⟨last, be, d⟩ s

/-- RD.COUNT: read word 1, reg_count (R236). -/
def execRdCount (s : State) : Host.Outcome State Fault Refusal := readAccess (s.atReadOf 1) s

/-- WR.COUNT: write word 1, reg_count (R235). -/
def execWrCount (last : Bool) (be : BitVec 4) (d : Word) (s : State) : Host.Outcome State Fault Refusal :=
  writeAccess (s.atWriteOf 1) ⟨last, be, d⟩ s

/-- RD.STATUS: read word 2, status (R237). -/
def execRdStatus (s : State) : Host.Outcome State Fault Refusal := readAccess (s.atReadOf 2) s

/-- WR.STATUS: write word 2, status; a write changes nothing (R238). -/
def execWrStatus (last : Bool) (be : BitVec 4) (d : Word) (s : State) : Host.Outcome State Fault Refusal :=
  writeAccess (s.atWriteOf 2) ⟨last, be, d⟩ s

/-- RD.CTRL: read word 3, control (R240). -/
def execRdCtrl (s : State) : Host.Outcome State Fault Refusal := readAccess (s.atReadOf 3) s

/-- WR.CTRL: write word 3, control; a write of 1 to bit 0 starts a run (R239, R265, R266). -/
def execWrCtrl (last : Bool) (be : BitVec 4) (d : Word) (s : State) : Host.Outcome State Fault Refusal :=
  writeAccess (s.atWriteOf 3) ⟨last, be, d⟩ s

/-- RD.INTCFG: read word 4, int_en (R242). -/
def execRdIntcfg (s : State) : Host.Outcome State Fault Refusal := readAccess (s.atReadOf 4) s

/-- WR.INTCFG: write word 4, int_en (R241). -/
def execWrIntcfg (last : Bool) (be : BitVec 4) (d : Word) (s : State) : Host.Outcome State Fault Refusal :=
  writeAccess (s.atWriteOf 4) ⟨last, be, d⟩ s

/-- RD.INTSTAT: read word 5, int_pend (R244). -/
def execRdIntstat (s : State) : Host.Outcome State Fault Refusal := readAccess (s.atReadOf 5) s

/-- WR.INTSTAT: write word 5, int_pend; write-1-to-clear (R243, R300). -/
def execWrIntstat (last : Bool) (be : BitVec 4) (d : Word) (s : State) : Host.Outcome State Fault Refusal :=
  writeAccess (s.atWriteOf 5) ⟨last, be, d⟩ s

/-- RD.UNMAPPED: the sentinel with DECERR, for every address outside the six words (R245). -/
def execRdUnmapped (_o : BitVec 1) (s : State) : Host.Outcome State Fault Refusal := readAccess s.atReadOutside s

/-- WR.UNMAPPED: nothing written, the burst answers DECERR (R246). -/
def execWrUnmapped (_o : BitVec 1) (last : Bool) (be : BitVec 4) (d : Word) (s : State) :
    Host.Outcome State Fault Refusal :=
  writeAccess s.atWriteOutside ⟨last, be, d⟩ s

end Sys2Proof.Machine
end

