-- ==== Sys2Proof/Machine/WriteChannel.lean ====
section
/-! DEFINITION. The operations of a slave's write channels: AW, W, B (spec 42_write_channel.md). -/

namespace Sys2Proof.Machine

/-- AW.FIXED: accept a command whose address does not move (R173, R136). -/
def execAwFixed (p : Port) (id : Nat) (size : BitVec 2) (len : BitVec 4) (addr : Word) (s : State) :
    Host.Outcome State Fault Refusal :=
  offerAw p ⟨id, addr, len, size, burstFixed⟩ s

/-- AW.INCR: accept a command whose address climbs (R173, R137). -/
def execAwIncr (p : Port) (id : Nat) (size : BitVec 2) (len : BitVec 4) (addr : Word) (s : State) :
    Host.Outcome State Fault Refusal :=
  offerAw p ⟨id, addr, len, size, burstIncr⟩ s

/-- AW.WRAP: accept a command whose address wraps in its window (R173, R138). -/
def execAwWrap (p : Port) (id : Nat) (size : BitVec 2) (len : BitVec 4) (addr : Word) (s : State) :
    Host.Outcome State Fault Refusal :=
  offerAw p ⟨id, addr, len, size, burstWrap⟩ s

/-- AW.RSVD: refused (R104). -/
def execAwRsvd (_p : Port) (_id : Nat) (_size : BitVec 2) (_len : BitVec 4) (_addr : Word) (s : State) :
    Host.Outcome State Fault Refusal :=
  refuseReserved s

/-- W.BEAT: accept a beat that is not the last (R175 to R177). -/
def execWBeat (p : Port) (strb : BitVec 4) (data : Word) (s : State) : Host.Outcome State Fault Refusal :=
  offerW p ⟨false, strb, data⟩ s

/-- W.LAST: accept the beat that ends the burst (R175 to R178). -/
def execWLast (p : Port) (strb : BitVec 4) (data : Word) (s : State) : Host.Outcome State Fault Refusal :=
  offerW p ⟨true, strb, data⟩ s

/-- B.OKAY: give the response of a burst that was in range throughout (R180). -/
def execBOkay (p : Port) (id : Nat) (s : State) : Host.Outcome State Fault Refusal :=
  takeB p ⟨id, respOkay⟩ s

/-- B.DECERR: give the response of a burst with a beat out of range (R180, R176). -/
def execBDecerr (p : Port) (id : Nat) (s : State) : Host.Outcome State Fault Refusal :=
  takeB p ⟨id, respDecerr⟩ s

end Sys2Proof.Machine
end

