-- ==== Sys2Proof/Machine/Dispatch.lean ====
section
/-! DEFINITION. The meaning of every operation: one arm per constructor of `Instr`. -/

namespace Sys2Proof.Machine

def exec (i : Instr) (s : State) : Host.Outcome State Fault Refusal :=
  match i with
  | .awFixed p id size len addr => Sys2Proof.Machine.execAwFixed p id size len addr s
  | .awIncr p id size len addr => Sys2Proof.Machine.execAwIncr p id size len addr s
  | .awWrap p id size len addr => Sys2Proof.Machine.execAwWrap p id size len addr s
  | .awRsvd p id size len addr => Sys2Proof.Machine.execAwRsvd p id size len addr s
  | .arFixed p id size len addr => Sys2Proof.Machine.execArFixed p id size len addr s
  | .arIncr p id size len addr => Sys2Proof.Machine.execArIncr p id size len addr s
  | .arWrap p id size len addr => Sys2Proof.Machine.execArWrap p id size len addr s
  | .arRsvd p id size len addr => Sys2Proof.Machine.execArRsvd p id size len addr s
  | .wBeat p strb data => Sys2Proof.Machine.execWBeat p strb data s
  | .wLast p strb data => Sys2Proof.Machine.execWLast p strb data s
  | .bOkay p id => Sys2Proof.Machine.execBOkay p id s
  | .bDecerr p id => Sys2Proof.Machine.execBDecerr p id s
  | .rOkay p id last data => Sys2Proof.Machine.execROkay p id last data s
  | .rDecerr p id last => Sys2Proof.Machine.execRDecerr p id last s
  | .dmaAw id len addr => Sys2Proof.Machine.execDmaAw id len addr s
  | .dmaW data => Sys2Proof.Machine.execDmaW data s
  | .dmaWlast data => Sys2Proof.Machine.execDmaWlast data s
  | .mbOkay id => Sys2Proof.Machine.execMbOkay id s
  | .mbExokay id => Sys2Proof.Machine.execMbExokay id s
  | .mbSlverr id => Sys2Proof.Machine.execMbSlverr id s
  | .mbDecerr id => Sys2Proof.Machine.execMbDecerr id s
  | .rdAddr => Sys2Proof.Machine.execRdAddr s
  | .wrAddr last be d => Sys2Proof.Machine.execWrAddr last be d s
  | .rdCount => Sys2Proof.Machine.execRdCount s
  | .wrCount last be d => Sys2Proof.Machine.execWrCount last be d s
  | .rdStatus => Sys2Proof.Machine.execRdStatus s
  | .wrStatus last be d => Sys2Proof.Machine.execWrStatus last be d s
  | .rdCtrl => Sys2Proof.Machine.execRdCtrl s
  | .wrCtrl last be d => Sys2Proof.Machine.execWrCtrl last be d s
  | .rdIntcfg => Sys2Proof.Machine.execRdIntcfg s
  | .wrIntcfg last be d => Sys2Proof.Machine.execWrIntcfg last be d s
  | .rdIntstat => Sys2Proof.Machine.execRdIntstat s
  | .wrIntstat last be d => Sys2Proof.Machine.execWrIntstat last be d s
  | .rdUnmapped o => Sys2Proof.Machine.execRdUnmapped o s
  | .wrUnmapped o last be d => Sys2Proof.Machine.execWrUnmapped o last be d s

end Sys2Proof.Machine
end

