-- ==== Sys2Proof/Machine/Fetch.lean ====
section
/-! DEFINITION. Which operations the coming edge carries out, read off the wires as the table's words (the hardware's
analogue of a fetch, R26, R102), and how an operation is placed so that the very next step runs it (log 19). -/

namespace Sys2Proof.Machine

/-! ## The transfers of the coming edge -/

/-- The register-access view of a write beat accepted by the `dma` slave (R99, R230, R246). -/
def State.regWriteWire (s : State) (b : WBeat) : Transfer :=
  if s.decodes .dma s.dmaW.wCur then Sys2Proof.regWrite (BitVec.ofNat 3 (s.cellOf .dma s.dmaW.wCur)) b
  else Sys2Proof.regWrite (0b11#2 ++ BitVec.ofNat 1 (s.cellOf .dma s.dmaW.wCur)) b

/-- The register-access view of a read beat given by the `dma` slave (R99, R230, R245). -/
def State.regReadWire (s : State) : Transfer :=
  if s.decodes .dma s.dmaR.rCur then regRead (BitVec.ofNat 3 (s.cellOf .dma s.dmaR.rCur))
  else regRead (0b11#2 ++ BitVec.ofNat 1 (s.cellOf .dma s.dmaR.rCur))

/-- The write beat slave `p` accepts, for the `dma` slave preceded by its register-access view. -/
def State.beatWires (p : Port) (s : State) (b : WBeat) : List Transfer :=
  match p with
  | .dma => [s.regWriteWire b, b.toW .dma]
  | .bank => [b.toW .bank]
  | .ref => [b.toW .ref]

/-- The read beat slave `p` gives, for the `dma` slave preceded by its register-access view. -/
def State.readWires (p : Port) (s : State) (b : RBeat) : List Transfer :=
  match p with
  | .dma => [s.regReadWire, b.toR .dma]
  | .bank => [b.toR .bank]
  | .ref => [b.toR .ref]

/-- The response slave `p` hands over at the coming edge, none when the edge resets it (R180, R317). -/
def State.givesB (p : Port) (s : State) : Option BResp :=
  if s.resetsW p then none else (s.wm p).gives (s.inputs.port p)

/-- The read beat slave `p` hands over at the coming edge, none when the edge resets it (R207, R208, R317). -/
def State.givesR (p : Port) (s : State) : Option RBeat :=
  if !s.resetsR p && (s.inputs.port p).rready then s.offersR p else none

/-- The transfers of slave `p` at the coming edge: the command captured, the beat accepted, the response given, the
read command captured, the read beat given. Under reset there is none (R317). -/
def State.portWires (p : Port) (s : State) : List Transfer :=
  ((s.capturesW p).map (AxCmd.toAw p)).toList ++
  (match s.acceptsW p with | some b => s.beatWires p b | none => []) ++
  ((s.givesB p).map (BResp.toB p)).toList ++
  ((s.capturesR p).map (AxCmd.toAr p)).toList ++
  (match s.givesR p with | some b => s.readWires p b | none => [])

/-- The transfers of the memory-facing bus at the coming edge. -/
def State.engineWires (s : State) : List Transfer :=
  if s.inputs.rst then []
  else
    (if s.inputs.mAwready then ((s.eng.offersAw s.cfg).map AxCmd.toMAw).toList else []) ++
    ((s.eng.dataHandshake s.inputs s.fifo).map MBeat.toMW).toList ++
    (s.inputs.mB.map BResp.toMB).toList

/-- Every transfer the coming edge carries out, as table words. All of them happen at that one edge (R8, R319). -/
def State.wires (s : State) : List Transfer :=
  s.portWires .bank ++ (s.portWires .dma ++ (s.portWires .ref ++ s.engineWires))

/-! ## Placing an operation -/

/-- Put the pins of a further cycle before the feed. -/
def State.present (f : Inputs → Inputs) (s : State) : State := { s with feed := f Inputs.idle :: s.feed }

/-- Replace the write machine of slave `p`. -/
def State.setWm (p : Port) (m : WriteMachine) (s : State) : State :=
  match p with
  | .bank => { s with bankW := m }
  | .dma => { s with dmaW := m }
  | .ref => { s with refW := m }

/-- Replace the read machine of slave `p`. -/
def State.setRm (p : Port) (m : ReadMachine) (s : State) : State :=
  match p with
  | .bank => { s with bankR := m }
  | .dma => { s with dmaR := m }
  | .ref => { s with refR := m }

/-- Place a command on AW: the write machine waiting for an address, the command on the wires. -/
def State.stageAw (p : Port) (c : AxCmd) (s : State) : State :=
  (s.setWm p { s.wm p with wstate := .waitAddr }).present (Inputs.onPort p fun q => { q with aw := some c })

/-- Place a command on AR. -/
def State.stageAr (p : Port) (c : AxCmd) (s : State) : State :=
  (s.setRm p { s.rm p with rstate := .waitValid, arready := true }).present
    (Inputs.onPort p fun q => { q with ar := some c })

/-- Place a beat on W: the write machine waiting for data. -/
def State.stageW (p : Port) (b : WBeat) (s : State) : State :=
  (s.setWm p { s.wm p with wstate := .waitData, wready := true }).present
    (Inputs.onPort p fun q => { q with w := some b })

/-- Place a response on B: the write machine offering it, the master ready. -/
def State.stageB (p : Port) (b : BResp) (s : State) : State :=
  (s.setWm p { s.wm p with wstate := .waitRespReady, bvalid := true, bid := b.id, bresp := b.resp }).present
    (Inputs.onPort p fun q => { q with bready := true })

/-- Place a read beat on R: the read machine offering it with the cursor at `a`, the master ready. -/
def State.stageR (p : Port) (id : Nat) (last : Bool) (a : Word) (s : State) : State :=
  (s.setRm p
    { s.rm p with rstate := .sendData, rvalid := true, rid := id, rCur := a, rLen := if last then 0 else 1 }).present
    (Inputs.onPort p fun q => { q with rready := true })

/-- Give cell 0 of slave `p` the value `v`, so that a read beat at it carries `v`. -/
def State.setCell0 (p : Port) (v : Word) (s : State) : State :=
  match p with
  | .bank => { s with bankCells := s.bankCells.set 0 v }
  | .dma => { s with eng := { s.eng with regs := { s.eng.regs with addr := v } } }
  | .ref => { s with refMem := Memory.writeWord s.refMem s.cfg.refBase 0xF v }

/-- The first address past the window of slave `p`. -/
def State.pastWindow (p : Port) (s : State) : Word :=
  Config.base p s.cfg + BitVec.ofNat 32 (4 * Config.cells p s.cfg)

/-- The address of word `k` of the DMA block (R34). -/
def State.dmaWord (k : Nat) (s : State) : Word := s.cfg.dmaBase + BitVec.ofNat 32 (4 * k)

/-- Place a write access of the DMA block at address `a`. -/
def State.stageWr (a : Word) (b : WBeat) (s : State) : State :=
  (s.setWm .dma { s.dmaW with wstate := .waitData, wready := true, wCur := a }).present
    (Inputs.onPort .dma fun q => { q with w := some b })

/-- Place an engine address of the memory-facing bus. -/
def State.stageMAw (len : BitVec 4) (addr : Word) (s : State) : State :=
  { s with
    eng := { s.eng with
      dstate := .run
      ac := { s.eng.ac with awvalid := true, awaddr := addr, awlen := len, addrDone := false } } }.present
    fun i => { i with mAwready := true }

/-- Place a data beat of the memory-facing bus: the word at the head of the FIFO, the engine at that beat. -/
def State.stageMW (last : Bool) (data : DWord) (s : State) : State :=
  { s with
    fifo := data :: s.fifo
    eng := { s.eng with
      dstate := .run
      dc := ⟨max s.eng.dc.dRem 2, if last then 1 else 2⟩ } }.present
    fun i => { i with mWready := true }

/-- Place a memory response: at least one burst owed. -/
def State.stageMB (b : BResp) (s : State) : State :=
  { s with
    eng := { s.eng with trk := { s.eng.trk with inflight := max s.eng.trk.inflight 1 } } }.present
    fun i => { i with mB := some b }

/-- Place an operation so that the very next step runs it: the sequencing state it is due in (the analogue of a
program counter, R26), and its pins (log 19). -/
def State.stage (i : Instr) (s : State) : State :=
  match i with
  | .awFixed p id size len addr => s.stageAw p ⟨id, addr, len, size, burstFixed⟩
  | .awIncr p id size len addr => s.stageAw p ⟨id, addr, len, size, burstIncr⟩
  | .awWrap p id size len addr => s.stageAw p ⟨id, addr, len, size, burstWrap⟩
  | .awRsvd p id size len addr => s.stageAw p ⟨id, addr, len, size, burstRsvd⟩
  | .arFixed p id size len addr => s.stageAr p ⟨id, addr, len, size, burstFixed⟩
  | .arIncr p id size len addr => s.stageAr p ⟨id, addr, len, size, burstIncr⟩
  | .arWrap p id size len addr => s.stageAr p ⟨id, addr, len, size, burstWrap⟩
  | .arRsvd p id size len addr => s.stageAr p ⟨id, addr, len, size, burstRsvd⟩
  | .wBeat p strb data => s.stageW p ⟨false, strb, data⟩
  | .wLast p strb data => s.stageW p ⟨true, strb, data⟩
  | .bOkay p id => s.stageB p ⟨id, respOkay⟩
  | .bDecerr p id => s.stageB p ⟨id, respDecerr⟩
  | .rOkay p id last data => (s.setCell0 p data).stageR p id last (Config.base p s.cfg)
  | .rDecerr p id last => s.stageR p id last (s.pastWindow p)
  | .dmaAw _ len addr => s.stageMAw len addr
  | .dmaW data => s.stageMW false data
  | .dmaWlast data => s.stageMW true data
  | .mbOkay id => s.stageMB ⟨id, respOkay⟩
  | .mbExokay id => s.stageMB ⟨id, respExokay⟩
  | .mbSlverr id => s.stageMB ⟨id, respSlverr⟩
  | .mbDecerr id => s.stageMB ⟨id, respDecerr⟩
  | .rdAddr => s.stageR .dma 0 true (s.dmaWord 0)
  | .wrAddr last be d => s.stageWr (s.dmaWord 0) ⟨last, be, d⟩
  | .rdCount => s.stageR .dma 0 true (s.dmaWord 1)
  | .wrCount last be d => s.stageWr (s.dmaWord 1) ⟨last, be, d⟩
  | .rdStatus => s.stageR .dma 0 true (s.dmaWord 2)
  | .wrStatus last be d => s.stageWr (s.dmaWord 2) ⟨last, be, d⟩
  | .rdCtrl => s.stageR .dma 0 true (s.dmaWord 3)
  | .wrCtrl last be d => s.stageWr (s.dmaWord 3) ⟨last, be, d⟩
  | .rdIntcfg => s.stageR .dma 0 true (s.dmaWord 4)
  | .wrIntcfg last be d => s.stageWr (s.dmaWord 4) ⟨last, be, d⟩
  | .rdIntstat => s.stageR .dma 0 true (s.dmaWord 5)
  | .wrIntstat last be d => s.stageWr (s.dmaWord 5) ⟨last, be, d⟩
  | .rdUnmapped o => s.stageR .dma 0 true (s.dmaWord (6 + o.toNat))
  | .wrUnmapped o last be d => s.stageWr (s.dmaWord (6 + o.toNat)) ⟨last, be, d⟩

/-- Place the operation a table word stands for; a word that is none places nothing. -/
def State.placeTableWord (s : State) (nbits w : Nat) : State :=
  match decodeTableWord nbits w with
  | some i => s.stage i
  | none => s

/-- The step: the first transfer of the edge is decoded and run. An edge with none, or whose wires show a word no
row has (log 30), is the bare clock edge. -/
def runWires (s : State) : Host.Outcome State Fault Refusal :=
  match s.wires with
  | [] => s.clock
  | t :: _ =>
    match decode t with
    | .ok i => exec i s
    | .error _ => s.clock

end Sys2Proof.Machine
end

