-- ==== Sys2Proof/Machine/Step.lean ====
section
/-! DEFINITION. One step of the machine: one rising edge of the clock (spec R8). -/

namespace Sys2Proof.Machine

/-- One step: the operations on the wires of the coming edge are read and run. -/
def step (s : State) : Host.Outcome State Fault Refusal := runWires s

/-- `s` with the operation of a table word placed so that the very next step runs it (log 18, log 19). -/
def State.withFetchWord (s : State) (nbits w : Nat) : State := s.placeTableWord nbits w

end Sys2Proof.Machine
end

