-- ==== Sys2Proof/Safety.lean ====
section
/-! DEFINITION. The terms claims are made in: when an edge runs, what an edge with nothing on the pins does to each
part, and the invariants of the hardware. -/

namespace Sys2Proof.Machine

/-! ## When an edge runs -/

/-- The coming edge runs the traffic of its cycle: parameters in bounds, reset low, no duty broken on any channel.
What else is on the pins is left free. -/
abbrev State.runs (s : State) : Prop := s.cfg.wf = true ∧ s.inputs.rst = false ∧ s.breach = none

/-- The environment does nothing in the coming cycle, and the parameters are in bounds. -/
abbrev State.quiet (s : State) : Prop := s.cfg.wf = true ∧ s.inputs = Inputs.idle

/-- A start pulse at the coming edge would not break a duty: the engine runs (the pulse is lost, R266), or nothing is
owed and the transfer stays below `2^32` (R267, R357). -/
abbrev State.startAllowed (s : State) : Prop :=
  s.eng.dstate = .run ∨ (s.eng.trk.inflight = 0 ∧ s.eng.regs.addr.toNat + 8 * (s.eng.regs.count.toNat + 1) ≤ addressSpace)

/-- The state with no write beat of the DMA block on the pins of the coming cycle, all else as it is: what the engine
would do at this edge without the register write. -/
def State.withoutRegWrite (s : State) : State := s.drivePort .dma fun q => { q with w := none }

/-! ## What an edge does to a part nothing is handed over to -/

/-- A write machine at an edge with nothing handed over: `RESET` is left (R171), `awready` falls (R181), every other
register holds (R172, R174, R179). -/
def WriteMachine.rest (m : WriteMachine) : WriteMachine :=
  { m with awready := false, gaveB := none, wstate := if m.wstate = .reset then .waitAddr else m.wstate }

/-- A read machine at an edge with nothing handed over: `RESET` is left with `arready` raised (R201), every other
register holds (R202, R209). -/
def ReadMachine.rest (m : ReadMachine) : ReadMachine :=
  { m with
    gaveR := none
    arready := if m.rstate = .reset then true else m.arready
    rstate := if m.rstate = .reset then .waitValid else m.rstate }

/-- The state register of the engine when nothing is handed over: a finished run completes (R277). -/
def Engine.restState (e : Engine) : DState :=
  if e.dstate = .run ∧ e.ac.addrDone = true ∧ e.dc.dRem = 0 then .waitStart else e.dstate

/-- The interrupt registers at an edge with no register write: `busy_prev` follows `busy` (R298), the completion edge
sets `int_pend` if enabled (R299). -/
def Engine.restIrq (e : Engine) : Interrupt :=
  ⟨e.busy, e.irq.intPend || (e.irq.busyPrev && !e.busy && e.regs.intEn)⟩

/-- The engine at an edge with nothing handed over. -/
def Engine.rest (e : Engine) : Engine :=
  { e with dstate := e.restState, irq := e.restIrq, gaveAw := none, gaveW := none }

/-- The parameters, the bank's cells, the FIFO and every byte of both memories are as before. -/
abbrev State.sameStorage (s t : State) : Prop :=
  t.cfg = s.cfg ∧ t.bankCells = s.bankCells ∧ t.fifo = s.fifo ∧
  (∀ a, Memory.read t.refMem a = Memory.read s.refMem a) ∧ (∀ a, Memory.read t.mem a = Memory.read s.mem a)

/-! ## Invariants -/

/-- The control bits of a write machine are those of its state (R170), `bresp` is OKAY or DECERR (R98), and `bid` has
`S_ID_W` bits (R27). -/
abbrev WriteMachine.ok (c : Config) (m : WriteMachine) : Prop :=
  (m.bresp = respOkay ∨ m.bresp = respDecerr) ∧ m.bid < 2 ^ c.sIdW ∧
  (m.wstate = .reset → m.awready = false ∧ m.wready = false ∧ m.bvalid = false) ∧
  (m.wstate = .waitAddr → m.awready = false ∧ m.wready = false ∧ m.bvalid = false) ∧
  (m.wstate = .waitData → m.wready = true ∧ m.bvalid = false) ∧
  (m.wstate = .waitRespReady → m.awready = false ∧ m.wready = false ∧ m.bvalid = true)

/-- The control bits of a read machine are those of its state (R200), and `rid` has `S_ID_W` bits (R28). -/
abbrev ReadMachine.ok (c : Config) (m : ReadMachine) : Prop :=
  m.rid < 2 ^ c.sIdW ∧
  (m.rstate = .reset → m.arready = false ∧ m.rvalid = false) ∧
  (m.rstate = .waitValid → m.arready = true ∧ m.rvalid = false) ∧
  (m.rstate = .sendData → m.arready = false ∧ m.rvalid = true)

/-- All six slave machines are consistent. -/
abbrev State.machinesOk (s : State) : Prop :=
  (s.bankW.ok s.cfg ∧ s.dmaW.ok s.cfg ∧ s.refW.ok s.cfg) ∧ (s.bankR.ok s.cfg ∧ s.dmaR.ok s.cfg ∧ s.refR.ok s.cfg)

/-- The reserved fields of the configuration registers: `reg_addr[2:0] = 0` (R30, R233), `reg_count` inside
`COUNT_W` bits (R235). -/
abbrev DmaRegs.ok (c : Config) (r : DmaRegs) : Prop := r.addr.toNat % 8 = 0 ∧ r.count.toNat < 2 ^ c.countW

/-- The tracker: the counter inside `INFL_W` bits; no code without an error, an error code with one (R101). -/
abbrev Tracker.ok (c : Config) (t : Tracker) : Prop :=
  t.inflight < 2 ^ c.inflW ∧ (t.err = false → t.errResp = respOkay) ∧
  (t.err = true → t.errResp = respSlverr ∨ t.errResp = respDecerr)

/-- The burst on offer does not cross a multiple of 128, and if another follows it ends at one (R279). -/
abbrev AddrChannel.burstOk (a : AddrChannel) : Prop :=
  a.awvalid = true →
    a.awaddr.toNat % 8 = 0 ∧ a.awaddr.toNat % 128 + 8 * (a.awlen.toNat + 1) ≤ 128 ∧
    (0 < a.aRem → a.nextAddr.toNat % 128 = 0)

/-- The data burst in progress: `b_rem` words of it are left, inside the same 128-byte block, and it ends at the end
of the run or at a multiple of 128 (R278). -/
abbrev Engine.dataBurstOk (e : Engine) : Prop :=
  e.dc.dRem ≠ 0 →
    1 ≤ e.dc.bRem.toNat ∧ e.dc.bRem.toNat ≤ e.dc.dRem ∧ e.dataAddr.toNat % 8 = 0 ∧
    e.dataAddr.toNat % 128 + 8 * e.dc.bRem.toNat ≤ 128 ∧
    (e.dc.bRem.toNat < e.dc.dRem → e.dataAddr.toNat % 128 + 8 * e.dc.bRem.toNat = 128)

/-- The end of the run's byte range, as a number: what is offered on the address channel and what is still to come. -/
def Engine.runEnd (e : Engine) : Nat := e.ac.awaddr.toNat + 8 * (e.ac.awlen.toNat + 1) + 8 * e.ac.aRem

/-- In `WAIT_START` nothing is on offer (R260). -/
abbrev Engine.idleOk (e : Engine) : Prop :=
  e.dstate = .waitStart → e.ac.awvalid = false ∧ e.ac.addrDone = true ∧ e.dc.dRem = 0

/-- In `RUN` an address is on offer until the last is handed over (R272), and the run lies below `2^32` (R357). -/
abbrev Engine.runOk (e : Engine) : Prop :=
  e.dstate = .run →
    (e.ac.addrDone = !e.ac.awvalid) ∧ (e.ac.awvalid = false → e.ac.aRem = 0) ∧
    8 * e.dc.dRem ≤ e.runEnd ∧ e.runEnd ≤ addressSpace

/-- The invariant of the engine. -/
abbrev Engine.ok (c : Config) (e : Engine) : Prop :=
  e.regs.ok c ∧ e.trk.ok c ∧ e.idleOk ∧ e.runOk ∧ e.ac.burstOk ∧ e.dataBurstOk

/-- Storage: both byte memories in canonical form, as many cells stored as the bank has (R22). -/
abbrev State.storageOk (s : State) : Prop :=
  Memory.wf s.mem ∧ Memory.wf s.refMem ∧ s.bankCells.length = s.cfg.bankCells.length

/-- The invariant of the whole hardware. -/
abbrev State.ok (s : State) : Prop := s.machinesOk ∧ s.eng.ok s.cfg ∧ s.storageOk

end Sys2Proof.Machine
end

