-- ==== Sys2Proof/Certificates/Slice0/Obligations.lean ====
section
/-! DEFINITION. The statements for the provers. Each docstring names the rules of the spec, or the model's own log
entries, that it rests on. `State.runs`, `State.quiet`, `rest` and the invariants are in Safety.lean. -/

open Sys2Proof Sys2Proof.Machine

/-! ## Encoding -/

/-- Decoding an encoded operation gives it back, with every operand at every value the packing carries
(30_encoding.md sections 3 and 4; the packing is the spec's decision D25, the channel beside the word is log 18). -/
def Obligations.DecodeOfEncodeGivesOperationBack : Prop :=
  ∀ i : Instr, i.encodable = true → decode (encode i) = .ok i

/-- A transfer that decodes is the encoding of what it decodes to: same channel, same word. So no word has two
operations on one channel and no bit of it is ignored (30_encoding.md sections 3 and 4, D25). -/
def Obligations.DecodedWordIsTheEncodedWord : Prop :=
  ∀ (t : Transfer) (i : Instr), decode t = .ok i → (encode i).chan = t.chan ∧ (encode i).word = t.word

/-- Words written out from the encodings of the table and from the worked encodings of R108. -/
def Obligations.WorkedWordsDecode : Prop :=
  decode ⟨.aw .bank, 0x6040000004, 5, 0⟩ = .ok (.awIncr .bank 5 2 0 0x40000004) ∧
  decode ⟨.ar .ref, 0xA340000008, 9, 0⟩ = .ok (.arWrap .ref 9 2 3 0x40000008) ∧
  decode ⟨.aw .dma, 0x2140000000, 0, 0⟩ = .ok (.awFixed .dma 0 2 1 0x40000000) ∧
  decode ⟨.mAw, 0x7F50001000, 0, 0⟩ = .ok (.dmaAw 0 15 0x50001000) ∧
  decode ⟨.w .bank, 0x1F11223344, 0, 0⟩ = .ok (.wLast .bank 0b1111 0x11223344) ∧
  decode ⟨.b .bank, 0b11, 7, 0⟩ = .ok (.bDecerr .bank 7) ∧
  decode ⟨.r .bank, 0x7DEADBEEF, 2, 0⟩ = .ok (.rDecerr .bank 2 true) ∧
  decode ⟨.mW, 0x1FF00000000000000D1, 0, 0⟩ = .ok (.dmaWlast 0xD1) ∧
  decode ⟨.mB, 0b10, 0, 0⟩ = .ok (.mbSlverr 0) ∧
  decode ⟨.reg, 0b0101, 0, 0⟩ = .ok .rdIntstat ∧
  decode ⟨.reg, 0b1011, 0, 0x1F00000001⟩ = .ok (.wrCtrl true 0b1111 1)

/-! ## The step -/

/-- A step runs the operation decoded from the first transfer on the wires; step adds nothing around `exec`
(log 3, log 19). -/
def Obligations.StepRunsTheDecodedTransfer : Prop :=
  ∀ (s : State) (t : Transfer) (ts : List Transfer) (i : Instr),
    s.wires = t :: ts → decode t = .ok i → step s = exec i s

/-- The operation view and the clocked view are one machine: in every state, running the decoded operation is the
clock edge of the whole hardware, where "all `<-` assignments of all rules that fire at one edge take effect
together" (00_scope.md section 4). That an instruction is a bus operation is log 3; an edge whose wires show a word of no
row is the bare edge by log 30. -/
def Obligations.StepIsOneClockEdge : Prop := ∀ s : State, step s = s.clock

/-- Every operation the edge carries out has the same edge as its effect, whichever of them is named; only the
reserved commands, refused wherever they are named (log 24), are left out (00_scope.md section 4, 60_exceptions.md
section 3). That a receiver is ready exactly for the payload named is log 25. -/
def Obligations.SimultaneousOperationsShareTheEdge : Prop :=
  ∀ (s : State) (t : Transfer) (i : Instr), t ∈ s.wires → decode t = .ok i →
    (∀ p id size len addr, i ≠ .awRsvd p id size len addr ∧ i ≠ .arRsvd p id size len addr) →
    exec i s = step s

/-! ## The address-advance sequencer and the decode -/

/-- Beat `k` of a WRAP burst: the closed form of R138, in the window of R139, back at the start after `len + 1`
advances. Both rules are inferences the spec marks as its own, from the formula of R135. -/
def Obligations.WrapBurstVisitsItsWindow : Prop :=
  ∀ (addr mask : Word) (len : BitVec 4) (size : BitVec 2), wrapLenOk len = true →
    wrapMask burstWrap len size = some mask →
    (∀ k : Nat, (fun a => advance a mask size)^[k] addr =
      (addr &&& ~~~mask) ||| ((addr + BitVec.ofNat 32 (k * 2 ^ size.toNat)) &&& mask)) ∧
    (∀ k : Nat, ((fun a => advance a mask size)^[k] addr).toNat / (mask.toNat + 1) = addr.toNat / (mask.toNat + 1)) ∧
    (fun a => advance a mask size)^[len.toNat + 1] addr = addr

/-- Beat `k` of a FIXED burst is at the command's address, of an INCR burst `k` beats on, modulo `2^32` (R136, R137,
inferences the spec marks as its own; the wrap is its decision D9). -/
def Obligations.FixedStaysAndIncrClimbs : Prop :=
  ∀ (addr mf mi : Word) (len : BitVec 4) (size : BitVec 2) (k : Nat),
    wrapMask burstFixed len size = some mf → wrapMask burstIncr len size = some mi →
    (fun a => advance a mf size)^[k] addr = addr ∧
    (fun a => advance a mi size)^[k] addr = addr + BitVec.ofNat 32 (k * 2 ^ size.toNat)

/-- R150 and R151: in a window in bounds, the decode test is the interval, and the index is the word of the
interval, below `NCELLS`. -/
def Obligations.DecodeSelectsTheCell : Prop :=
  ∀ (base a : Word) (n : Nat), Config.windowOk base n = true →
    (inRange base n a = true ↔ base.toNat ≤ a.toNat ∧ a.toNat < base.toNat + 4 * n) ∧
    (inRange base n a = true → idx base a < n ∧ idx base a = (a.toNat - base.toNat) / 4)

/-! ## The write channels of a slave -/

/-- AW.FIXED, AW.INCR and AW.WRAP complete where the machine waits for an address and the command is legal: cursor,
size and mask are loaded, the response preset, the id echoed, both readies raised (42_write_channel.md section 2;
the trigger is the spec's decision D3). Of an id given with more bits than the port has, the port carries the low
`S_ID_W` (log 16): a command with it, on either channel, is the command with its low bits. -/
def Obligations.WriteCommandIsCaptured : Prop :=
  (∀ (s : State) (p : Port) (id : Nat) (size : BitVec 2) (len : BitVec 4) (addr : Word),
    s.runs → (s.wm p).wstate = .waitAddr →
    ∀ (i : Instr) (burst : BitVec 2) (mask : Word),
      (i = .awFixed p id size len addr ∧ burst = 0b00 ∧ mask = 0) ∨
      (i = .awIncr p id size len addr ∧ burst = 0b01 ∧ mask = 0xFFFFFFFF) ∨
      (i = .awWrap p id size len addr ∧ burst = 0b10 ∧
        mask = BitVec.ofNat 32 ((len.toNat + 1) * 2 ^ size.toNat - 1)) →
      AxCmd.legal ⟨id, addr, len, size, burst⟩ = true →
      ∃ t, exec i s = .next t ∧
        t.wm p = { s.wm p with
          wstate := .waitData, awready := true, wready := true, bresp := 0b00, bid := id % 2 ^ s.cfg.sIdW,
          wCur := addr, wMask := mask, wSize := size, gaveB := none }) ∧
  (∀ (s : State) (p : Port) (id low : Nat) (size : BitVec 2) (len : BitVec 4) (addr : Word), low = id % 2 ^ s.cfg.sIdW →
    exec (.awFixed p id size len addr) s = exec (.awFixed p low size len addr) s ∧
    exec (.awIncr p id size len addr) s = exec (.awIncr p low size len addr) s ∧
    exec (.awWrap p id size len addr) s = exec (.awWrap p low size len addr) s ∧
    exec (.arFixed p id size len addr) s = exec (.arFixed p low size len addr) s ∧
    exec (.arIncr p id size len addr) s = exec (.arIncr p low size len addr) s ∧
    exec (.arWrap p id size len addr) s = exec (.arWrap p low size len addr) s)

/-- R175's condition, R176 and R177: a beat, W.BEAT or W.LAST, completes in `WAIT_DATA`; the cursor advances whatever the
decode outcome, a beat out of range latches DECERR, one in range leaves `bresp`. After W.BEAT the burst goes on:
`wready` is held (R178, the spec's decision D4), `awready` is 0 (R181, its decision D3) and every other register is as it
was. A beat that is a start pulse needs a start that breaks no duty. -/
def Obligations.WriteBeatAdvancesTheBurst : Prop :=
  ∀ (s : State) (p : Port) (strb : BitVec 4) (data : Word) (i : Instr),
    s.runs → (s.wm p).wstate = .waitData → (s.wm p).wready = true →
    (p = .dma → s.atWriteOf 3 = true → strb.getLsbD 0 = true → data.getLsbD 0 = true → s.startAllowed) →
    i = .wBeat p strb data ∨ i = .wLast p strb data →
    ∃ t, exec i s = .next t ∧
      (t.wm p).wCur = (((s.wm p).wCur &&& ~~~(s.wm p).wMask) |||
        (((s.wm p).wCur + (1#32 <<< (s.wm p).wSize.toNat)) &&& (s.wm p).wMask)) ∧
      (t.wm p).bresp = (if s.decodes p (s.wm p).wCur then (s.wm p).bresp else 0b11) ∧
      (i = .wBeat p strb data → t.wm p = { s.wm p with
        awready := false, gaveB := none, wCur := (t.wm p).wCur, bresp := (t.wm p).bresp })

/-- W.LAST completes in `WAIT_DATA`: as W.BEAT, and the burst ends: `wready` falls, `bvalid` rises
(42_write_channel.md section 2; that `wready` is held until then is the spec's decision D4). -/
def Obligations.LastBeatEndsTheBurst : Prop :=
  ∀ (s : State) (p : Port) (strb : BitVec 4) (data : Word),
    s.runs → (s.wm p).wstate = .waitData → (s.wm p).wready = true →
    (p = .dma → s.atWriteOf 3 = true → strb.getLsbD 0 = true → data.getLsbD 0 = true → s.startAllowed) →
    ∃ t, exec (.wLast p strb data) s = .next t ∧
      t.wm p = { s.wm p with
        awready := false
        gaveB := none
        wready := false
        bvalid := true
        wstate := .waitRespReady
        wCur := advance (s.wm p).wCur (s.wm p).wMask (s.wm p).wSize
        bresp := if s.decodes p (s.wm p).wCur then (s.wm p).bresp else 0b11 }

/-- R157 and R159 on the register bank, for both kinds of beat: in range, a read/write cell changes exactly in its
enabled lanes, a read-only cell does not change, nor does any other cell, and the response stays; out of range no cell
changes and the response is DECERR. -/
def Obligations.BankBeatWritesEnabledLanes : Prop :=
  ∀ (s : State) (strb : BitVec 4) (data : Word) (b : Instr),
    s.runs → s.bankW.wstate = .waitData → s.bankW.wready = true →
    b = .wBeat .bank strb data ∨ b = .wLast .bank strb data →
    ∃ t, exec b s = .next t ∧
      t.bankW.bresp = (if s.decodes .bank s.bankW.wCur then s.bankW.bresp else 0b11) ∧
      (s.decodes .bank s.bankW.wCur = false → t.bankCells = s.bankCells) ∧
      (s.decodes .bank s.bankW.wCur = true →
        (∀ r old, s.cfg.bankCells[s.cellOf .bank s.bankW.wCur]? = some (CellKind.readWrite r) →
          s.bankCells[s.cellOf .bank s.bankW.wCur]? = some old →
          ∃ new, t.bankCells[s.cellOf .bank s.bankW.wCur]? = some new ∧
            ∀ k < 4, laneByte new k = if strb.getLsbD k then laneByte data k else laneByte old k) ∧
        ((∀ r, s.cfg.bankCells[s.cellOf .bank s.bankW.wCur]? ≠ some (CellKind.readWrite r)) → t.bankCells = s.bankCells) ∧
        (∀ j, j ≠ s.cellOf .bank s.bankW.wCur → t.bankCells[j]? = s.bankCells[j]?))

/-- R222 on the reference slave, for both kinds of beat: in range, the addressed word takes the data in its enabled lanes
and every other word is as it was; out of range nothing is written and the response is DECERR. The same byte by byte:
that the array is held in bytes is log 8, that lane `k` is the byte at `laneAddr a k` is log 29 (PRESUMED). -/
def Obligations.ReferenceBeatWritesEnabledLanes : Prop :=
  ∀ (s : State) (strb : BitVec 4) (data : Word) (b : Instr),
    s.runs → s.refW.wstate = .waitData → s.refW.wready = true →
    b = .wBeat .ref strb data ∨ b = .wLast .ref strb data →
    ∃ t, exec b s = .next t ∧
      t.refW.bresp = (if s.decodes .ref s.refW.wCur then s.refW.bresp else 0b11) ∧
      (s.decodes .ref s.refW.wCur = false →
        (∀ x, Memory.read t.refMem x = Memory.read s.refMem x) ∧
        ∀ j, refWord s.cfg.refBase t.refMem j = refWord s.cfg.refBase s.refMem j) ∧
      (s.decodes .ref s.refW.wCur = true → ∀ i, i = s.cellOf .ref s.refW.wCur →
        (∀ k < 4, laneByte (refWord s.cfg.refBase t.refMem i) k =
          if strb.getLsbD k then laneByte data k else laneByte (refWord s.cfg.refBase s.refMem i) k) ∧
        (∀ j < s.cfg.refWords, j ≠ i → refWord s.cfg.refBase t.refMem j = refWord s.cfg.refBase s.refMem j) ∧
        ∀ a, a = refWordAddr s.cfg.refBase i →
          (∀ k < 4, Memory.read t.refMem (laneAddr a k) =
            if strb.getLsbD k then some (laneByte data k) else Memory.read s.refMem (laneAddr a k)) ∧
          (∀ x, (∀ k < 4, x ≠ laneAddr a k) → Memory.read t.refMem x = Memory.read s.refMem x))

/-- B.OKAY and B.DECERR complete where the machine offers that response: it is handed over, with the id of the
burst, and the machine waits for an address again (42_write_channel.md section 2). -/
def Obligations.ResponseIsHandedOver : Prop :=
  ∀ (s : State) (p : Port), s.runs → (s.wm p).wstate = .waitRespReady → (s.wm p).bvalid = true →
    ∀ i : Instr,
      (i = .bOkay p (s.wm p).bid ∧ (s.wm p).bresp = 0b00) ∨ (i = .bDecerr p (s.wm p).bid ∧ (s.wm p).bresp = 0b11) →
      ∃ t, exec i s = .next t ∧
        t.wm p = { s.wm p with
          awready := false, bvalid := false, wstate := .waitAddr, gaveB := some ⟨(s.wm p).bid, (s.wm p).bresp⟩ }

/-! ## The read channels of a slave -/

/-- R203, with the mask of R131: AR.FIXED, AR.INCR and AR.WRAP complete where the machine waits with `arready` up and
the command is legal. The id is one the `S_ID_W` wires of the port carry (R37, R91); of any other, see
WriteCommandIsCaptured. -/
def Obligations.ReadCommandIsCaptured : Prop :=
  ∀ (s : State) (p : Port) (id : Nat) (size : BitVec 2) (len : BitVec 4) (addr : Word),
    s.runs → (s.rm p).rstate = .waitValid → (s.rm p).arready = true → id < 2 ^ s.cfg.sIdW →
    ∀ (i : Instr) (burst : BitVec 2) (mask : Word),
      (i = .arFixed p id size len addr ∧ burst = 0b00 ∧ mask = 0) ∨
      (i = .arIncr p id size len addr ∧ burst = 0b01 ∧ mask = 0xFFFFFFFF) ∨
      (i = .arWrap p id size len addr ∧ burst = 0b10 ∧
        mask = BitVec.ofNat 32 ((len.toNat + 1) * 2 ^ size.toNat - 1)) →
      AxCmd.legal ⟨id, addr, len, size, burst⟩ = true →
      ∃ t, exec i s = .next t ∧
        t.rm p =
          { rstate := .sendData, arready := false, rvalid := true, rid := id, rCur := addr, rMask := mask,
            rSize := size, rLen := len, gaveR := none }

/-- R205 to R208: in every cycle of `SEND_DATA` the beat on the wires is OKAY with the value the cell shows at an address
in range, DECERR with the sentinel out of range, and `rlast` is `r_len == 0`; R.OKAY and R.DECERR hand over exactly that
beat; the last beat returns to `WAIT_VALID`, another advances the cursor and counts down. -/
def Obligations.ReadBeatIsHandedOver : Prop :=
  ∀ (s : State) (p : Port), s.runs → (s.rm p).rstate = .sendData → (s.rm p).rvalid = true →
    ∀ (i : Instr) (resp : BitVec 2) (data : Word),
      (s.decodes p (s.rm p).rCur = true ∧ resp = 0b00 ∧ data = s.cellValue p (s.rm p).rCur ∧
        i = .rOkay p (s.rm p).rid (decide ((s.rm p).rLen = 0)) data) ∨
      (s.decodes p (s.rm p).rCur = false ∧ resp = 0b11 ∧ data = 0xDEADBEEF ∧
        i = .rDecerr p (s.rm p).rid (decide ((s.rm p).rLen = 0))) →
      (s.slaveOut p).r = some ⟨(s.rm p).rid, decide ((s.rm p).rLen = 0), resp, data⟩ ∧
      ∃ t, exec i s = .next t ∧
        (t.rm p).gaveR = (s.slaveOut p).r ∧
        ((s.rm p).rLen = 0 → t.rm p = { s.rm p with
          rvalid := false, arready := true, rstate := .waitValid, gaveR := (t.rm p).gaveR }) ∧
        ((s.rm p).rLen ≠ 0 → t.rm p = { s.rm p with
          rCur := advance (s.rm p).rCur (s.rm p).rMask (s.rm p).rSize, rLen := (s.rm p).rLen - 1,
          gaveR := (t.rm p).gaveR })

/-- R204 on the bank, with the kinds of cell of R154, and R223 on the reference slave: while a beat is offered in range,
`rdata` is the stored word of a read/write cell, the constant of a fixed cell, what the other logic drives on an external
one, and on the reference slave the addressed word, each lane the byte last written there, or its free value if none was
(log 8, log 29); out of range it is the sentinel. The DMA block's words are in StatedRegisterReads and
DecidedRegisterReads. -/
def Obligations.ReadDataIsTheCell : Prop :=
  (∀ (s : State) (b : RBeat), (s.slaveOut .bank).r = some b →
    (s.decodes .bank s.bankR.rCur = false → b.data = 0xDEADBEEF) ∧
    (s.decodes .bank s.bankR.rCur = true → ∀ k, k = s.cellOf .bank s.bankR.rCur →
      (∀ r v, s.cfg.bankCells[k]? = some (CellKind.readWrite r) → s.bankCells[k]? = some v → b.data = v) ∧
      (∀ v, s.cfg.bankCells[k]? = some (CellKind.fixed v) → b.data = v) ∧
      (∀ v, s.cfg.bankCells[k]? = some CellKind.external → s.inputs.bankExt[k]? = some v → b.data = v))) ∧
  (∀ (s : State) (b : RBeat), (s.slaveOut .ref).r = some b →
    (s.decodes .ref s.refR.rCur = false → b.data = 0xDEADBEEF) ∧
    (s.decodes .ref s.refR.rCur = true → ∀ i, i = s.cellOf .ref s.refR.rCur →
      b.data = refWord s.cfg.refBase s.refMem i ∧
      ∀ k < 4, ∀ x, x = laneAddr (refWordAddr s.cfg.refBase i) k →
        (∀ v, Memory.read s.refMem x = some v → laneByte b.data k = v) ∧
        (Memory.read s.refMem x = none → laneByte b.data k = Config.refPowerOn x)))

/-- R171, R172, R174, R179, R201, R202, R209: a machine in `RESET` leaves it at an edge without reset; one whose side of
the channel is not driven holds every register but `awready`, which is 0 (R181, the spec's decision D3), and cells do not
change while their master sends no beat. Other channels may be busy. -/
def Obligations.WaitingMachinesHold : Prop :=
  ∀ s : State, s.runs → ∃ t, step s = .next t ∧
    (∀ p, (s.wm p).wstate = .reset →
      t.wm p = { s.wm p with wstate := .waitAddr, awready := false, gaveB := none }) ∧
    (∀ p, (s.rm p).rstate = .reset →
      t.rm p = { s.rm p with rstate := .waitValid, arready := true, gaveR := none }) ∧
    (∀ p, ((s.wm p).wstate = .waitAddr ∧ (s.inputs.port p).aw = none) ∨
      ((s.wm p).wstate = .waitData ∧ (s.inputs.port p).w = none) ∨
      ((s.wm p).wstate = .waitRespReady ∧ (s.inputs.port p).bready = false) →
      t.wm p = { s.wm p with awready := false, gaveB := none }) ∧
    (∀ p, ((s.rm p).rstate = .waitValid ∧ (s.inputs.port p).ar = none) ∨
      ((s.rm p).rstate = .sendData ∧ (s.inputs.port p).rready = false) →
      t.rm p = { s.rm p with gaveR := none }) ∧
    (s.inputs.bank.w = none → t.bankCells = s.bankCells) ∧
    (s.inputs.dma.w = none → t.eng.regs = s.eng.regs) ∧
    (s.inputs.ref.w = none → t.refMem = s.refMem)

/-! ## Commands the spec refuses -/

/-- AW.RSVD and AR.RSVD stop in every state whose parameters are in bounds: burst type `0b11` has no meaning
(30_encoding.md section 5; the refusal is the spec's decision D10). -/
def Obligations.ReservedBurstIsRefused : Prop :=
  ∀ (s : State) (p : Port) (id : Nat) (size : BitVec 2) (len : BitVec 4) (addr : Word), s.cfg.wf = true →
    exec (.awRsvd p id size len addr) s = .refused .reservedBurst ∧
    exec (.arRsvd p id size len addr) s = .refused .reservedBurst

/-- A captured command that breaks a duty of the master is refused under the name of the first duty broken: a WRAP whose
beat count is not 2, 4, 8 or 16, whatever its size and address; size 3; a misaligned address
(93_implementation_defined.md U2, U3, U4). The order in which several broken duties are named is the model's (log 12). -/
def Obligations.MalformedCommandIsRefusedAtCapture : Prop :=
  ∀ (s : State) (p : Port) (id : Nat) (size : BitVec 2) (len : BitVec 4) (addr : Word), s.runs →
    ((s.wm p).wstate = .waitAddr →
      (wrapLenOk len = false → exec (.awWrap p id size len addr) s = .refused .malformedWrap) ∧
      (∀ r, (r = .sizeTooWide ∧ size = 3) ∨ (r = .misaligned ∧ size ≠ 3 ∧ addr.toNat % 2 ^ size.toNat ≠ 0) →
        exec (.awFixed p id size len addr) s = .refused r ∧ exec (.awIncr p id size len addr) s = .refused r ∧
        (wrapLenOk len = true → exec (.awWrap p id size len addr) s = .refused r))) ∧
    ((s.rm p).rstate = .waitValid → (s.rm p).arready = true →
      (wrapLenOk len = false → exec (.arWrap p id size len addr) s = .refused .malformedWrap) ∧
      (∀ r, (r = .sizeTooWide ∧ size = 3) ∨ (r = .misaligned ∧ size ≠ 3 ∧ addr.toNat % 2 ^ size.toNat ≠ 0) →
        exec (.arFixed p id size len addr) s = .refused r ∧ exec (.arIncr p id size len addr) s = .refused r ∧
        (wrapLenOk len = true → exec (.arWrap p id size len addr) s = .refused r)))

/-- Under parameters out of bounds nothing runs (93_implementation_defined.md U12, D20, log 1). -/
def Obligations.ParametersOutOfBoundsAreRefused : Prop :=
  ∀ (i : Instr) (s : State), s.cfg.wf = false →
    exec i s = .refused .parametersOutOfBounds ∧ step s = .refused .parametersOutOfBounds

/-! ## The six registers of the DMA block -/

/-- R230: a register access is the beat of the `dma` slave at its cell. A write access at word `k` and the write beat
with the same operands are one operation, and so are a read access and the read beat with the word's value. The encoding
is `{write, woff}`. -/
def Obligations.RegisterAccessIsABeat : Prop :=
  ∀ (s : State) (last : Bool) (be : BitVec 4) (d : Word) (i b : Instr) (k : Nat),
    (b = if last then .wLast .dma be d else .wBeat .dma be d) →
    (s.atWriteOf k = true →
      (k = 0 ∧ i = .wrAddr last be d) ∨ (k = 1 ∧ i = .wrCount last be d) ∨ (k = 2 ∧ i = .wrStatus last be d) ∨
      (k = 3 ∧ i = .wrCtrl last be d) ∨ (k = 4 ∧ i = .wrIntcfg last be d) ∨ (k = 5 ∧ i = .wrIntstat last be d) →
      exec i s = exec b s ∧ (encode i).chan = .reg ∧ (encode i).word = BitVec.ofNat 80 (8 + k)) ∧
    (s.atReadOf k = true →
      (k = 0 ∧ i = .rdAddr) ∨ (k = 1 ∧ i = .rdCount) ∨ (k = 2 ∧ i = .rdStatus) ∨ (k = 3 ∧ i = .rdCtrl) ∨
      (k = 4 ∧ i = .rdIntcfg) ∨ (k = 5 ∧ i = .rdIntstat) →
      exec i s = exec (.rOkay .dma s.dmaR.rid (decide (s.dmaR.rLen = 0)) (s.eng.readReg k)) s ∧
        (encode i).chan = .reg ∧ (encode i).word = BitVec.ofNat 80 k)

/-- R234, R237, R244, R245: RD.ADDR, RD.STATUS, RD.INTSTAT and RD.UNMAPPED complete where the machine is at that
access, with the value and the response each rule gives; the read of interrupt-status does not clear it. -/
def Obligations.StatedRegisterReads : Prop :=
  ∀ s : State, s.runs →
    (s.atReadOf 0 = true → ∃ t, exec .rdAddr s = .next t ∧ t.dmaR.gaveR =
      some ⟨s.dmaR.rid, decide (s.dmaR.rLen = 0), 0b00, (s.eng.regs.addr.extractLsb' 3 29 ++ 0#3 : BitVec 32)⟩) ∧
    (s.atReadOf 2 = true → ∃ t, exec .rdStatus s = .next t ∧ t.dmaR.gaveR =
      some ⟨s.dmaR.rid, decide (s.dmaR.rLen = 0), 0b00,
        (0#21 ++ s.eng.trk.errResp ++ BitVec.ofBool s.eng.trk.err ++ 0#7 ++
          BitVec.ofBool (decide (s.eng.dstate = .run) || decide (s.eng.trk.inflight ≠ 0)) : BitVec 32)⟩) ∧
    (s.atReadOf 5 = true → ∃ t, exec .rdIntstat s = .next t ∧
      t.dmaR.gaveR = some ⟨s.dmaR.rid, decide (s.dmaR.rLen = 0), 0b00,
        (0#31 ++ BitVec.ofBool s.eng.irq.intPend : BitVec 32)⟩ ∧
      (s.inputs.dma.w = none → s.eng.irq.intPend = true → t.eng.irq.intPend = true)) ∧
    (s.atReadOutside = true → ∀ o, ∃ t, exec (.rdUnmapped o) s = .next t ∧ t.dmaR.gaveR =
      some ⟨s.dmaR.rid, decide (s.dmaR.rLen = 0), 0b11, 0xDEADBEEF⟩)

/-- RD.COUNT, RD.CTRL and RD.INTCFG complete where the machine is at that access: the programmed count, zero, and the
enable bit (45_dma_registers.md sections 3, 5, 6; what they return is the spec's decision D13). -/
def Obligations.DecidedRegisterReads : Prop :=
  ∀ s : State, s.runs →
    (s.atReadOf 1 = true → ∃ t, exec .rdCount s = .next t ∧
      t.dmaR.gaveR = some ⟨s.dmaR.rid, decide (s.dmaR.rLen = 0), 0b00, s.eng.regs.count⟩) ∧
    (s.atReadOf 3 = true → ∃ t, exec .rdCtrl s = .next t ∧
      t.dmaR.gaveR = some ⟨s.dmaR.rid, decide (s.dmaR.rLen = 0), 0b00, 0⟩) ∧
    (s.atReadOf 4 = true → ∃ t, exec .rdIntcfg s = .next t ∧
      t.dmaR.gaveR = some ⟨s.dmaR.rid, decide (s.dmaR.rLen = 0), 0b00,
        (0#31 ++ BitVec.ofBool s.eng.regs.intEn : BitVec 32)⟩)

/-- R233: WR.ADDR completes; bits 2:0 are zero, every other bit is the data's in an enabled lane and the old one
elsewhere. Nothing else of the engine is touched, whatever is on the pins: it is that of the same edge without the
register write, so a run goes on as it was, handshakes included. -/
def Obligations.AddressRegisterWrite : Prop :=
  ∀ (s : State) (last : Bool) (be : BitVec 4) (d : Word), s.runs → s.atWriteOf 0 = true →
    ∃ t u, exec (.wrAddr last be d) s = .next t ∧ step s.withoutRegWrite = .next u ∧
      (∀ j < 32, t.eng.regs.addr.getLsbD j =
        if j < 3 then false else if be.getLsbD (j / 8) then d.getLsbD j else s.eng.regs.addr.getLsbD j) ∧
      t.eng.regs.count = s.eng.regs.count ∧ t.eng.regs.intEn = s.eng.regs.intEn ∧
      t.eng = { u.eng with regs := t.eng.regs } ∧
      (s.quiet → t.eng = { s.eng.rest with regs := t.eng.regs })

/-- R235: WR.COUNT completes; a bit below `COUNT_W` is the data's in an enabled lane and the old one bits at or above `COUNT_W` are zero. Nothing else of the engine is touched, whatever is on the pins: it is that of the same
edge without the register write. -/
def Obligations.CountRegisterWrite : Prop :=
  ∀ (s : State) (last : Bool) (be : BitVec 4) (d : Word), s.runs → s.atWriteOf 1 = true →
    ∃ t u, exec (.wrCount last be d) s = .next t ∧ step s.withoutRegWrite = .next u ∧
      (∀ j < 32, t.eng.regs.count.getLsbD j =
        if s.cfg.countW ≤ j then false else if be.getLsbD (j / 8) then d.getLsbD j else s.eng.regs.count.getLsbD j) ∧
      t.eng.regs.addr = s.eng.regs.addr ∧ t.eng.regs.intEn = s.eng.regs.intEn ∧
      t.eng = { u.eng with regs := t.eng.regs } ∧
      (s.quiet → t.eng = { s.eng.rest with regs := t.eng.regs })

/-- R238 and R246: WR.STATUS and WR.UNMAPPED complete and change nothing of the engine, whatever is on the pins: it is that
of the same edge without the register write. The write of status leaves the burst's response, the write outside makes
it DECERR. -/
def Obligations.WritesThatChangeNothing : Prop :=
  ∀ (s : State) (last : Bool) (be : BitVec 4) (d : Word), s.runs →
    (s.atWriteOf 2 = true → ∃ t u, exec (.wrStatus last be d) s = .next t ∧ step s.withoutRegWrite = .next u ∧
      t.dmaW.bresp = s.dmaW.bresp ∧ t.eng.regs = s.eng.regs ∧ t.eng = u.eng ∧
      (s.quiet → t.eng = s.eng.rest)) ∧
    (s.atWriteOutside = true → ∀ o, ∃ t u, exec (.wrUnmapped o last be d) s = .next t ∧
      step s.withoutRegWrite = .next u ∧ t.dmaW.bresp = 0b11 ∧ t.eng.regs = s.eng.regs ∧ t.eng = u.eng ∧
      (s.quiet → t.eng = s.eng.rest))

/-- R241 and R316: WR.INTCFG completes; `int_en` takes bit 0 if lane 0 is enabled. It neither clears `int_pend` nor
raises it for a completion already past: without a completion edge it is as before, and all but the configuration is that
of the same edge without the register write. -/
def Obligations.InterruptEnableWrite : Prop :=
  ∀ (s : State) (last : Bool) (be : BitVec 4) (d : Word), s.runs → s.atWriteOf 4 = true →
    ∃ t u, exec (.wrIntcfg last be d) s = .next t ∧ step s.withoutRegWrite = .next u ∧
      t.eng.regs.intEn = (if be.getLsbD 0 then d.getLsbD 0 else s.eng.regs.intEn) ∧
      t.eng.regs.addr = s.eng.regs.addr ∧ t.eng.regs.count = s.eng.regs.count ∧
      (s.eng.irq.intPend = true → t.eng.irq.intPend = true ∧ t.engineOut.irq = true) ∧
      (¬(s.eng.irq.busyPrev = true ∧ s.eng.busy = false) → t.eng.irq.intPend = s.eng.irq.intPend) ∧
      t.eng = { u.eng with regs := t.eng.regs } ∧
      (s.quiet → t.eng = { s.eng.rest with regs := t.eng.regs })

/-- R243: WR.INTSTAT completes; a 1 in bit 0 of an enabled lane 0 clears `int_pend` unless the completion edge sets
it; any other write leaves it to the completion edge alone, so software cannot set it. The rest of the engine is that of
the same edge without the register write. -/
def Obligations.InterruptStatusWrite : Prop :=
  ∀ (s : State) (last : Bool) (be : BitVec 4) (d : Word), s.runs → s.atWriteOf 5 = true →
    ∃ t u, exec (.wrIntstat last be d) s = .next t ∧ step s.withoutRegWrite = .next u ∧
      (s.eng.irq.busyPrev = true → s.eng.busy = false → s.eng.regs.intEn = true → t.eng.irq.intPend = true) ∧
      (¬(s.eng.irq.busyPrev = true ∧ s.eng.busy = false ∧ s.eng.regs.intEn = true) →
        t.eng.irq.intPend = if be.getLsbD 0 && d.getLsbD 0 then false else s.eng.irq.intPend) ∧
      t.eng.regs = s.eng.regs ∧
      t.eng = { u.eng with irq := t.eng.irq } ∧
      (s.quiet → t.eng = { s.eng.rest with irq := t.eng.irq })

/-- WR.CTRL with a start pulse completes in `WAIT_START` when nothing is owed and the transfer stays below `2^32`: the
run of 46_dma_burst_splitter.md section 3, every register with its value (the placement is the spec's decision D18,
the snapshot of the address D27, the byte enable D13). -/
def Obligations.StartBeginsTheRun : Prop :=
  ∀ (s : State) (last : Bool) (be : BitVec 4) (d : Word) (n f : Nat),
    s.runs → s.atWriteOf 3 = true → be.getLsbD 0 = true → d.getLsbD 0 = true →
    s.eng.dstate = .waitStart → s.eng.trk.inflight = 0 →
    s.eng.regs.addr.toNat + 8 * (s.eng.regs.count.toNat + 1) ≤ 2 ^ 32 →
    n = s.eng.regs.count.toNat + 1 → f = min n (16 - s.eng.regs.addr.toNat / 8 % 16) →
    ∃ t, exec (.wrCtrl last be d) s = .next t ∧
      t.eng.dstate = .run ∧
      ((t.eng.trk.err = false ∧ t.eng.trk.errResp = 0b00) ∨
        ∃ b, s.inputs.mB = some b ∧ b.resp.getLsbD 1 = true ∧ t.eng.trk.err = true ∧ t.eng.trk.errResp = b.resp) ∧
      t.eng.ac.awvalid = true ∧ t.eng.ac.awaddr = s.eng.regs.addr ∧ t.eng.ac.awlen.toNat + 1 = f ∧
      t.eng.ac.aRem + f = n ∧ t.eng.ac.addrDone = false ∧ t.eng.dc.dRem = n ∧ t.eng.dc.bRem.toNat = f ∧
      t.eng.regs = s.eng.regs

/-- WR.CTRL that starts nothing completes: bit 0 clear, lane 0 not enabled, or the engine running, when the pulse is
lost (45_dma_registers.md section 5, 46_dma_burst_splitter.md section 3; decisions D13, D18). The engine is that of the
same edge without the register write, whatever is on the pins. -/
def Obligations.ControlWriteWithoutStart : Prop :=
  ∀ (s : State) (last : Bool) (be : BitVec 4) (d : Word), s.runs → s.atWriteOf 3 = true →
    be.getLsbD 0 = false ∨ d.getLsbD 0 = false ∨ s.eng.dstate = .run →
    ∃ t u, exec (.wrCtrl last be d) s = .next t ∧ step s.withoutRegWrite = .next u ∧ t.eng.regs = s.eng.regs ∧
      (s.eng.dstate = .waitStart → t.eng.dstate = .waitStart) ∧ t.eng = u.eng ∧
      (s.quiet → t.eng = s.eng.rest)

/-- A start the spec refuses: with responses owed, and, with nothing owed, of a transfer that would pass `2^32`
(93_implementation_defined.md U7, U9). That the first name is given where both duties are broken is the model's order
(log 14). -/
def Obligations.StartThatBreaksADutyIsRefused : Prop :=
  ∀ (s : State) (last : Bool) (be : BitVec 4) (d : Word),
    s.runs → s.atWriteOf 3 = true → be.getLsbD 0 = true → d.getLsbD 0 = true → s.eng.dstate = .waitStart →
    (s.eng.trk.inflight ≠ 0 → exec (.wrCtrl last be d) s = .refused .startWhileOwed) ∧
    (s.eng.trk.inflight = 0 → 2 ^ 32 < s.eng.regs.addr.toNat + 8 * (s.eng.regs.count.toNat + 1) →
      exec (.wrCtrl last be d) s = .refused .transferPastTop)

/-! ## The burst splitter -/

/-- The first burst of a run: at least one beat, at most the whole transfer, not across a multiple of 128, and ending
at one when more follows (46_dma_burst_splitter.md section 2). -/
def Obligations.FirstBurstEndsAtTheBoundary : Prop :=
  ∀ (addr : Word) (n : Nat), addr.toNat % 8 = 0 → 1 ≤ n →
    1 ≤ firstLen addr n ∧ firstLen addr n ≤ n ∧ addr.toNat % 128 + 8 * firstLen addr n ≤ 128 ∧
    (firstLen addr n < n → addr.toNat % 128 + 8 * firstLen addr n = 128)

/-- R270: DMA.AW completes in `RUN` with the burst on offer; what follows is a full burst at the next address,
the final one, or nothing, and only then is `addr_done` raised. The burst offered is `{01, 11, d_awlen, d_awaddr}`
with the id `M_ID` (R261, the spec's decisions D15, D17); the next address is R271's; `inflight` counts it (R291), modulo
`2^INFL_W` (log 17). -/
def Obligations.AddressHandshakeDecidesTheNextBurst : Prop :=
  ∀ s : State, s.runs → s.eng.dstate = .run → s.eng.ac.awvalid = true →
    ∃ t, exec (.dmaAw s.cfg.mId s.eng.ac.awlen s.eng.ac.awaddr) s = .next t ∧
      t.eng.gaveAw = some ⟨s.cfg.mId, s.eng.ac.awaddr, s.eng.ac.awlen, 3, 0b01⟩ ∧
      t.eng.trk.inflight =
        (if s.inputs.mB.isSome then s.eng.trk.inflight else (s.eng.trk.inflight + 1) % 2 ^ s.cfg.inflW) ∧
      (15 < s.eng.ac.aRem → t.eng.ac =
        ⟨true, s.eng.ac.awaddr + BitVec.ofNat 32 (8 * (s.eng.ac.awlen.toNat + 1)), 15, s.eng.ac.aRem - 16,
          s.eng.ac.addrDone⟩) ∧
      (0 < s.eng.ac.aRem → s.eng.ac.aRem ≤ 15 → t.eng.ac =
        ⟨true, s.eng.ac.awaddr + BitVec.ofNat 32 (8 * (s.eng.ac.awlen.toNat + 1)),
          BitVec.ofNat 4 (s.eng.ac.aRem - 1), 0, s.eng.ac.addrDone⟩) ∧
      (s.eng.ac.aRem = 0 → t.eng.ac = ⟨false, s.eng.ac.awaddr, s.eng.ac.awlen, 0, true⟩)

/-- R273: DMA.W and DMA.WLAST complete in `RUN` with words to send and one in the FIFO; the word count falls by one and
`b_rem` looks ahead. DMA.WLAST is the beat with `b_rem == 1`. -/
def Obligations.DataHandshakeCountsTheWord : Prop :=
  ∀ (s : State) (d : DWord) (rest : List DWord) (i : Instr), s.runs → s.eng.dstate = .run → s.eng.dc.dRem ≠ 0 →
    s.fifo = d :: rest →
    (i = .dmaW d ∧ s.eng.dc.bRem ≠ 1) ∨ (i = .dmaWlast d ∧ s.eng.dc.bRem = 1) →
    ∃ t, exec i s = .next t ∧
      t.eng.dc.dRem + 1 = s.eng.dc.dRem ∧
      (s.eng.dc.bRem ≠ 1 → t.eng.dc.bRem = s.eng.dc.bRem - 1) ∧
      (s.eng.dc.bRem = 1 → t.eng.dc.bRem = if 15 < t.eng.dc.dRem then 16 else BitVec.ofNat 5 t.eng.dc.dRem)

/-- What a data handshake moves (46_dma_burst_splitter.md sections 4; 20_memory.md sections 1, 2): the head word leaves
the FIFO, and its eight bytes, lane `k` at address `A + k`, are the only bytes of the memory space that change. That
`A` is `dataAddr`, and that the bytes land at the handshake, are the model's (log 10, log 29). -/
def Obligations.DataWordGoesToItsAddress : Prop :=
  ∀ (s : State) (d : DWord) (rest : List DWord) (i : Instr), s.runs → s.eng.dstate = .run → s.eng.dc.dRem ≠ 0 →
    s.fifo = d :: rest →
    (i = .dmaW d ∧ s.eng.dc.bRem ≠ 1) ∨ (i = .dmaWlast d ∧ s.eng.dc.bRem = 1) →
    ∃ t, exec i s = .next t ∧
      t.fifo = rest ++ s.inputs.fifoPush ∧
      t.eng.gaveW = some ⟨decide (s.eng.dc.bRem = 1), d⟩ ∧
      (∀ k < 8, Memory.read t.mem (laneAddr s.eng.dataAddr k) = some (laneByte64 d k)) ∧
      (∀ x, (∀ k < 8, x ≠ laneAddr s.eng.dataAddr k) → Memory.read t.mem x = Memory.read s.mem x)

/-! ## The response tracker -/

/-- The four responses complete at every edge, owed or not (R294, R295; 93_implementation_defined.md U8 for one nobody is
owed, log 31). An error code sets `err` and, if it is the first, latches itself; OKAY and EXOKAY change neither. At the
edge of a start the latches are cleared, or hold an error code handed over at that edge: the spec ranks neither, and the
model leaves it free (log 22). Without reset only a start clears `err` or changes a latched code. -/
def Obligations.ResponseLatchesTheFirstError : Prop :=
  (∀ (s : State) (id : Nat) (i : Instr) (resp : BitVec 2), s.runs →
    (i = .mbOkay id ∧ resp = 0b00) ∨ (i = .mbExokay id ∧ resp = 0b01) ∨ (i = .mbSlverr id ∧ resp = 0b10) ∨
      (i = .mbDecerr id ∧ resp = 0b11) →
    ∃ t, exec i s = .next t ∧
      (s.eng.starts s.regWrite = false →
        t.eng.trk.err = (s.eng.trk.err || resp.getLsbD 1) ∧
        t.eng.trk.errResp = (if resp.getLsbD 1 = true ∧ s.eng.trk.err = false then resp else s.eng.trk.errResp)) ∧
      (s.eng.starts s.regWrite = true →
        (t.eng.trk.err = false ∧ t.eng.trk.errResp = 0b00) ∨
        (resp.getLsbD 1 = true ∧ t.eng.trk.err = true ∧ t.eng.trk.errResp = resp))) ∧
  (∀ s t : State, step s = .next t → s.inputs.rst = false → s.eng.trk.err = true →
    (t.eng.trk.err = true ∧ t.eng.trk.errResp = s.eng.trk.errResp) ∨
    (s.eng.dstate = .waitStart ∧ t.eng.dstate = .run ∧
      (t.eng.trk.err = false ∨
        ∃ b, s.inputs.mB = some b ∧ b.resp.getLsbD 1 = true ∧ t.eng.trk.errResp = b.resp)))

/-- R291: every edge that runs completes and, in either state of the engine, the counter goes up with an address handed
over, down with a response, and stays with both or neither; that it wraps at `INFL_W` bits is log 17. A response nobody
is owed leaves it at 0: the effect 93_implementation_defined.md U8 allows, where R293 lets a model refuse (log 31). -/
def Obligations.InflightCountsAddressesLessResponses : Prop :=
  ∀ (s : State) (inc dec : Bool), s.runs →
    inc = (s.eng.ac.awvalid && s.inputs.mAwready) → dec = s.inputs.mB.isSome →
    ∃ t, step s = .next t ∧
      (inc = dec → t.eng.trk.inflight = s.eng.trk.inflight) ∧
      (inc = true → dec = false → t.eng.trk.inflight = (s.eng.trk.inflight + 1) % 2 ^ s.cfg.inflW) ∧
      (inc = false → dec = true → s.eng.trk.inflight ≠ 0 → t.eng.trk.inflight + 1 = s.eng.trk.inflight) ∧
      (inc = false → dec = true → s.eng.trk.inflight = 0 → t.eng.trk.inflight = 0)

/-- The completion edge, `busy_prev` set and `busy` fallen, sets `int_pend` if the interrupt is enabled, whatever else
happens at the edge; `busy_prev` follows `busy`; `irq` is `int_pend`; nothing else sets `int_pend`, and only a write of 1
to bit 0 of interrupt-status clears it (47_dma_response_tracker.md section 3; decision D19). -/
def Obligations.CompletionEdgeSetsThePendingBit : Prop :=
  ∀ s t : State, step s = .next t → s.inputs.rst = false →
    t.eng.irq.busyPrev = s.eng.busy ∧ t.engineOut.irq = t.eng.irq.intPend ∧
    (s.eng.irq.busyPrev = true → s.eng.busy = false → s.eng.regs.intEn = true → t.eng.irq.intPend = true) ∧
    (s.eng.irq.intPend = false → t.eng.irq.intPend = true →
      s.eng.irq.busyPrev = true ∧ s.eng.busy = false ∧ s.eng.regs.intEn = true) ∧
    (s.eng.irq.intPend = true → t.eng.irq.intPend = false →
      s.atWriteOf 5 = true ∧ ∃ b, s.inputs.dma.w = some b ∧ b.strb.getLsbD 0 = true ∧ b.data.getLsbD 0 = true)

/-- `busy` rises only by a start, and a run ends at the edge that finds both channels done (47_dma_response_tracker.md
section 3, 46_dma_burst_splitter.md section 6): from a state that meets the engine's invariant and is not busy, an edge
leads to a busy one only through a write access of control with a start pulse. -/
def Obligations.BusyRisesOnlyByAStart : Prop :=
  ∀ s t : State, step s = .next t →
    (s.eng.ok s.cfg → s.eng.busy = false → t.eng.busy = true →
      s.atWriteOf 3 = true ∧ t.eng.dstate = .run ∧ t.eng.ac.awaddr = s.eng.regs.addr ∧
      ∃ b, s.inputs.dma.w = some b ∧ b.strb.getLsbD 0 = true ∧ b.data.getLsbD 0 = true) ∧
    (s.inputs.rst = false → s.eng.dstate = .run →
      (t.eng.dstate = .waitStart ↔ s.eng.ac.addrDone = true ∧ s.eng.dc.dRem = 0))

/-! ## Reset -/

/-- The state at power-on, under every choice of parameters: the values of 10_state.md section 13 (many are the spec's
decisions D12, D26, D29). The registers it leaves unspecified are not spoken of (log 6). -/
def Obligations.PowerOnState : Prop :=
  State.reset = State.powerOn Config.default ∧
  ∀ c : Config,
    (∀ p, ((State.powerOn c).wm p).wstate = .reset ∧ ((State.powerOn c).wm p).awready = false ∧
      ((State.powerOn c).wm p).wready = false ∧ ((State.powerOn c).wm p).bvalid = false ∧
      ((State.powerOn c).rm p).rstate = .reset ∧ ((State.powerOn c).rm p).arready = false ∧
      ((State.powerOn c).rm p).rvalid = false) ∧
    (State.powerOn c).eng.dstate = .waitStart ∧ (State.powerOn c).eng.ac.awvalid = false ∧
    (State.powerOn c).eng.ac.addrDone = true ∧ (State.powerOn c).eng.dc.dRem = 0 ∧
    (State.powerOn c).eng.trk = ⟨0, false, 0b00⟩ ∧ (State.powerOn c).eng.irq = ⟨false, false⟩ ∧
    (State.powerOn c).eng.regs = ⟨0, 0, false⟩ ∧
    (∀ (i : Nat) (v : Word), c.bankCells[i]? = some (CellKind.readWrite v) → (State.powerOn c).bankCells[i]? = some v) ∧
    (State.powerOn c).eng.busy = false ∧ (State.powerOn c).eng.statusWord = 0 ∧
    (State.powerOn c).engineOut.w = none ∧ (State.powerOn c).engineOut.irq = false

/-- An edge with reset on a slave it reaches, which is every machine of the bank and of the DMA block and those of the
reference slave that log 26 names (70_reset_and_hazards.md section 1; decisions D5, D6, D12): the machine in `RESET` with
every control output low, the other registers kept, nothing handed over, every read/write cell of the bank at its reset
value. -/
def Obligations.ResetEdgeOfASlave : Prop :=
  ∀ s t : State, step s = .next t →
    (∀ p, s.resetsW p = true →
      t.wm p = { s.wm p with wstate := .reset, awready := false, wready := false, bvalid := false, gaveB := none }) ∧
    (∀ p, s.resetsR p = true →
      t.rm p = { s.rm p with rstate := .reset, arready := false, rvalid := false, gaveR := none }) ∧
    (s.inputs.rst = true →
      (∀ p, p ≠ .ref ∨ s.cfg.refResetRecovery = true → s.resetsW p = true ∧ s.resetsR p = true) ∧
      ∀ (i : Nat) (v : Word), s.cfg.bankCells[i]? = some (CellKind.readWrite v) → t.bankCells[i]? = some v)

/-- An edge with reset on the engine (70_reset_and_hazards.md section 1; decision D26): idle, counters and latches and
configuration cleared, nothing handed over, so not busy, no interrupt, no word stored or taken. That the registers the spec
leaves unspecified are kept is log 6, that the FIFO keeps its words log 11, that the memory space is a list of what was
handed over log 10. -/
def Obligations.ResetEdgeOfTheEngine : Prop :=
  ∀ s t : State, step s = .next t → s.inputs.rst = true →
    t.eng.dstate = .waitStart ∧ t.eng.ac.awvalid = false ∧ t.eng.ac.addrDone = true ∧ t.eng.dc.dRem = 0 ∧
    t.eng.trk = ⟨0, false, 0b00⟩ ∧ t.eng.irq = ⟨false, false⟩ ∧ t.eng.regs = ⟨0, 0, false⟩ ∧
    t.eng.ac.awaddr = s.eng.ac.awaddr ∧ t.eng.ac.awlen = s.eng.ac.awlen ∧ t.eng.ac.aRem = s.eng.ac.aRem ∧
    t.eng.dc.bRem = s.eng.dc.bRem ∧
    t.eng.busy = false ∧ t.engineOut.irq = false ∧ t.engineOut.w = none ∧
    t.mem = s.mem ∧ t.fifo = s.fifo ++ s.inputs.fifoPush

/-- Reset beats everything (60_exceptions.md section 3; decision D6): two edges with reset that differ only in what
else is on the pins leave the same machines of the two resettable slaves, the same cells, engine and memory. -/
def Obligations.ResetBeatsEveryHandshake : Prop :=
  ∀ (s t1 t2 : State) (i1 i2 : Inputs), i1.rst = true → i2.rst = true →
    step { s with feed := i1 :: s.feed.tail } = .next t1 → step { s with feed := i2 :: s.feed.tail } = .next t2 →
    t1.bankW = t2.bankW ∧ t1.bankR = t2.bankR ∧ t1.dmaW = t2.dmaW ∧ t1.dmaR = t2.dmaR ∧
    t1.bankCells = t2.bankCells ∧ t1.eng = t2.eng ∧ t1.mem = t2.mem

/-- R224, R344: the reference slave powers on in `RESET` with every control output 0; without `REF_RESET_RECOVERY` a
machine of it that has left `RESET` ignores the `rst` input, making the same edge with and without it and never going back
to `RESET`, and its array never sees `rst`. A machine still in its start-up `RESET` stays there, all outputs low, while
`rst` is 1 and leaves it at the first edge without: R171 and R201, by which R224 has it leave, are for such edges
(log 26). -/
def Obligations.ReferenceSlaveIgnoresReset : Prop :=
  (∀ c : Config, (State.powerOn c).refW.wstate = .reset ∧ (State.powerOn c).refR.rstate = .reset ∧
    (State.powerOn c).slaveOut .ref = ⟨false, false, none, false, none⟩) ∧
  (∀ (s t1 t2 : State) (i : Inputs), s.cfg.refResetRecovery = false →
    step { s with feed := { i with rst := true } :: s.feed.tail } = .next t1 →
    step { s with feed := { i with rst := false } :: s.feed.tail } = .next t2 →
    t1.refMem = t2.refMem ∧
    (s.refW.wstate ≠ .reset → t1.refW = t2.refW ∧ t1.refW.wstate ≠ .reset) ∧
    (s.refR.rstate ≠ .reset → t1.refR = t2.refR ∧ t1.refR.rstate ≠ .reset) ∧
    (s.refW.wstate = .reset →
      t1.refW.wstate = .reset ∧ t1.refW.awready = false ∧ t1.refW.wready = false ∧ t1.refW.bvalid = false ∧
      t2.refW.wstate = .waitAddr) ∧
    (s.refR.rstate = .reset →
      t1.refR.rstate = .reset ∧ t1.refR.arready = false ∧ t1.refR.rvalid = false ∧
      t2.refR.rstate = .waitValid ∧ t2.refR.arready = true))

/-! ## Invariants of every step -/

/-- Power-on meets the invariant of the whole hardware, under every choice of parameters. Of `bresp`, which the spec leaves
unspecified at power-on, the invariant holds by the model's zero (log 6). -/
def Obligations.PowerOnMeetsTheInvariant : Prop := ∀ c : Config, (State.powerOn c).ok

/-- The control bits of all six slave machines stay those of their states, `bresp` stays OKAY or DECERR, and `bid` and
`rid` stay within `S_ID_W` bits (10_state.md sections 4 and 5; log 16 for an id given with more bits;
42_write_channel.md section 1, 43_read_channel.md section 1, 30_encoding.md section 2; decisions D3, D7). -/
def Obligations.StepKeepsTheMachinesConsistent : Prop :=
  ∀ s t : State, s.machinesOk → step s = .next t → t.machinesOk

/-- The engine's invariant stays: reserved register fields, the tracker's codes, nothing on offer in `WAIT_START`, no
burst across a multiple of 128 on either channel, the run below `2^32` (30_encoding.md section 3,
46_dma_burst_splitter.md section 7; log 10 for the address of a data word). -/
def Obligations.StepKeepsTheEngineConsistent : Prop :=
  ∀ s t : State, s.eng.ok s.cfg → step s = .next t → t.eng.ok t.cfg

/-- Storage stays canonical, and the parameters never change (00_scope.md section 3, 10_state.md section 1; the
canonical form is the model's, log 10). -/
def Obligations.StepKeepsStorageCanonical : Prop :=
  ∀ s t : State, s.storageOk → step s = .next t → t.storageOk ∧ t.cfg = s.cfg ∧ t.cycle = s.cycle + 1

/-! ## Whole-machine rules -/

/-- "Write state machine owns all writes; nothing else mutates cells" (10_state.md section 2): without reset, a cell of
the bank changes only by a beat its write machine accepts at an address of that cell; a byte of the reference array
only by a beat of its write machine in range; a byte of the memory space only by a data word of the engine, at the word's
address (log 10; log 29 for the lanes of both byte arrays). -/
def Obligations.OnlyItsWriterChangesStorage : Prop :=
  ∀ s t : State, step s = .next t → s.inputs.rst = false →
    (∀ j, t.bankCells[j]? ≠ s.bankCells[j]? →
      s.bankW.wstate = .waitData ∧ s.bankW.wready = true ∧ s.inputs.bank.w ≠ none ∧
      s.decodes .bank s.bankW.wCur = true ∧ s.cellOf .bank s.bankW.wCur = j) ∧
    (∀ x, Memory.read t.refMem x ≠ Memory.read s.refMem x →
      s.refW.wstate = .waitData ∧ s.refW.wready = true ∧ s.inputs.ref.w ≠ none ∧
      s.decodes .ref s.refW.wCur = true ∧
      ∃ k < 4, x = laneAddr (refWordAddr s.cfg.refBase (s.cellOf .ref s.refW.wCur)) k) ∧
    (∀ x, Memory.read t.mem x ≠ Memory.read s.mem x →
      s.eng.dstate = .run ∧ s.eng.dc.dRem ≠ 0 ∧ s.inputs.mWready = true ∧ s.fifo ≠ [] ∧
      ∃ k < 8, x = laneAddr s.eng.dataAddr k)

/-- R214: the two machines of a slave are independent. What the read side of a slave is asked changes nothing but its
own machine; what is asked of the write side changes no register of the read machine. -/
def Obligations.ReadAndWriteMachinesAreIndependent : Prop :=
  ∀ (s t1 t2 : State) (p : Port) (i : Inputs),
    (∀ (ar1 ar2 : Option AxCmd) (r1 r2 : Bool),
      step { s with feed := i.onPort p (fun q => { q with ar := ar1, rready := r1 }) :: s.feed.tail } = .next t1 →
      step { s with feed := i.onPort p (fun q => { q with ar := ar2, rready := r2 }) :: s.feed.tail } = .next t2 →
      (∀ q, t1.wm q = t2.wm q) ∧ (∀ q, q ≠ p → t1.rm q = t2.rm q) ∧ t1.bankCells = t2.bankCells ∧
      t1.refMem = t2.refMem ∧ t1.eng = t2.eng ∧ t1.mem = t2.mem ∧ t1.fifo = t2.fifo) ∧
    (∀ (aw1 aw2 : Option AxCmd) (w1 w2 : Option WBeat) (b1 b2 : Bool),
      step { s with feed := i.onPort p (fun q => { q with aw := aw1, w := w1, bready := b1 }) :: s.feed.tail } =
        .next t1 →
      step { s with feed := i.onPort p (fun q => { q with aw := aw2, w := w2, bready := b2 }) :: s.feed.tail } =
        .next t2 →
      ∀ q, t1.rm q = t2.rm q)

/-- A response is offered only after the last beat (42_write_channel.md section 2, 20_memory.md section 6): `bvalid` rises only at the edge that
accepts a beat with the write-last flag. -/
def Obligations.ResponseOnlyAfterTheLastBeat : Prop :=
  ∀ (s t : State) (p : Port), step s = .next t → (s.wm p).bvalid = false → (t.wm p).bvalid = true →
    (s.wm p).wstate = .waitData ∧ (s.wm p).wready = true ∧ ∃ b, (s.inputs.port p).w = some b ∧ b.last = true

/-- DECERR is sticky within a burst (42_write_channel.md section 2, 60_exceptions.md section 3): once latched, it is the
code of every later state of the burst and the one handed over; only the capture of a next command presets OKAY. -/
def Obligations.DecodeErrorIsStickyWithinABurst : Prop :=
  ∀ (s t : State) (p : Port), step s = .next t → (s.wm p).bresp = 0b11 →
    ((t.wm p).bresp = 0b11 ∨ ((s.wm p).wstate = .waitAddr ∧ (t.wm p).wstate = .waitData)) ∧
    (∀ b, (t.wm p).gaveB = some b → b.resp = 0b11)

/-! ## Frames: what an operation leaves, on pins that are quiet but for it -/

/-- The address commands AW.FIXED, AW.INCR, AW.WRAP, AR.FIXED, AR.INCR, AR.WRAP change one machine of their slave: all
storage reads as before, the engine and every other machine make their own edge. -/
def Obligations.AddressCommandFrame : Prop :=
  ∀ (s t : State) (p : Port) (id : Nat) (size : BitVec 2) (len : BitVec 4) (addr : Word) (i : Instr), s.quiet →
    exec i s = .next t →
    (i = .awFixed p id size len addr ∨ i = .awIncr p id size len addr ∨ i = .awWrap p id size len addr →
      s.sameStorage t ∧ t.eng = s.eng.rest ∧ (∀ q, t.rm q = (s.rm q).rest) ∧
      (∀ q, q ≠ p → t.wm q = (s.wm q).rest)) ∧
    (i = .arFixed p id size len addr ∨ i = .arIncr p id size len addr ∨ i = .arWrap p id size len addr →
      s.sameStorage t ∧ t.eng = s.eng.rest ∧ (∀ q, t.wm q = (s.wm q).rest) ∧
      (∀ q, q ≠ p → t.rm q = (s.rm q).rest))

/-- The write beats W.BEAT and W.LAST change the write machine of their slave and the storage behind it: of the `bank`
at most the addressed cell, of `ref` at most the four bytes of the addressed word; the memory space, the FIFO, every
other machine are as at a quiet edge, and the engine too unless the slave is the DMA block. -/
def Obligations.WriteBeatFrame : Prop :=
  ∀ (s t : State) (p : Port) (strb : BitVec 4) (data : Word) (i : Instr), s.quiet → exec i s = .next t →
    i = .wBeat p strb data ∨ i = .wLast p strb data →
    t.cfg = s.cfg ∧ t.fifo = s.fifo ∧ (∀ x, Memory.read t.mem x = Memory.read s.mem x) ∧
    (∀ q, t.rm q = (s.rm q).rest) ∧ (∀ q, q ≠ p → t.wm q = (s.wm q).rest) ∧
    (p ≠ .dma → t.eng = s.eng.rest) ∧
    (p ≠ .bank → t.bankCells = s.bankCells) ∧
    (p ≠ .ref → ∀ x, Memory.read t.refMem x = Memory.read s.refMem x) ∧
    (∀ j, j ≠ s.cellOf .bank s.bankW.wCur → t.bankCells[j]? = s.bankCells[j]?) ∧
    (∀ a, a = refWordAddr s.cfg.refBase (s.cellOf .ref s.refW.wCur) →
      ∀ x, (∀ k < 4, x ≠ laneAddr a k) → Memory.read t.refMem x = Memory.read s.refMem x)

/-- The responses and read beats B.OKAY, B.DECERR, R.OKAY, R.DECERR and every register read store nothing: they change
one machine of their slave, and reads have no side effect. -/
def Obligations.ResponseAndReadFrame : Prop :=
  ∀ (s t : State) (p : Port) (id : Nat) (last : Bool) (data : Word) (o : BitVec 1) (i : Instr), s.quiet →
    exec i s = .next t →
    (i = .bOkay p id ∨ i = .bDecerr p id →
      s.sameStorage t ∧ t.eng = s.eng.rest ∧ (∀ q, t.rm q = (s.rm q).rest) ∧
      (∀ q, q ≠ p → t.wm q = (s.wm q).rest)) ∧
    (i = .rOkay p id last data ∨ i = .rDecerr p id last →
      s.sameStorage t ∧ t.eng = s.eng.rest ∧ (∀ q, t.wm q = (s.wm q).rest) ∧
      (∀ q, q ≠ p → t.rm q = (s.rm q).rest)) ∧
    (i = .rdAddr ∨ i = .rdCount ∨ i = .rdStatus ∨ i = .rdCtrl ∨ i = .rdIntcfg ∨ i = .rdIntstat ∨ i = .rdUnmapped o →
      s.sameStorage t ∧ t.eng = s.eng.rest ∧ (∀ q, t.wm q = (s.wm q).rest) ∧
      (∀ q, q ≠ .dma → t.rm q = (s.rm q).rest))

/-- The register writes store to no cell of another slave and no byte of either memory, and change no other machine;
of the configuration each changes only its own register. -/
def Obligations.RegisterWriteFrame : Prop :=
  ∀ (s t : State) (last : Bool) (be : BitVec 4) (d : Word) (o : BitVec 1) (i : Instr), s.quiet →
    exec i s = .next t →
    i = .wrAddr last be d ∨ i = .wrCount last be d ∨ i = .wrStatus last be d ∨ i = .wrCtrl last be d ∨
      i = .wrIntcfg last be d ∨ i = .wrIntstat last be d ∨ i = .wrUnmapped o last be d →
    s.sameStorage t ∧ (∀ q, t.rm q = (s.rm q).rest) ∧ (∀ q, q ≠ .dma → t.wm q = (s.wm q).rest) ∧
    (i ≠ .wrAddr last be d → t.eng.regs.addr = s.eng.regs.addr) ∧
    (i ≠ .wrCount last be d → t.eng.regs.count = s.eng.regs.count) ∧
    (i ≠ .wrIntcfg last be d → t.eng.regs.intEn = s.eng.regs.intEn) ∧
    (i ≠ .wrIntstat last be d → t.eng.irq = s.eng.restIrq) ∧
    (i ≠ .wrCtrl last be d →
      t.eng.ac = s.eng.ac ∧ t.eng.dc = s.eng.dc ∧ t.eng.trk = s.eng.trk ∧ t.eng.dstate = s.eng.restState)

/-- DMA.AW and the four memory responses store nothing and change no slave; DMA.AW leaves the data channel, the error
latch, the configuration; a response leaves both channels and the configuration. -/
def Obligations.MemoryAddressAndResponseFrame : Prop :=
  ∀ (s t : State) (id : Nat) (len : BitVec 4) (addr : Word) (i : Instr), s.quiet → exec i s = .next t →
    i = .dmaAw id len addr ∨ i = .mbOkay id ∨ i = .mbExokay id ∨ i = .mbSlverr id ∨ i = .mbDecerr id →
    s.sameStorage t ∧ (∀ q, t.wm q = (s.wm q).rest) ∧ (∀ q, t.rm q = (s.rm q).rest) ∧
    t.eng.regs = s.eng.regs ∧ t.eng.dc = s.eng.dc ∧ t.eng.irq = s.eng.restIrq ∧ t.eng.dstate = s.eng.restState ∧
    (i = .dmaAw id len addr → t.eng.trk.err = s.eng.trk.err ∧ t.eng.trk.errResp = s.eng.trk.errResp) ∧
    (i ≠ .dmaAw id len addr → t.eng.ac = s.eng.ac)

/-- DMA.W and DMA.WLAST store the eight bytes of the word at `dataAddr` and no other byte; they change the data channel
and the FIFO and leave the address channel, the tracker, the configuration, both other stores and every slave
(log 10). -/
def Obligations.MemoryDataFrame : Prop :=
  ∀ (s t : State) (d : DWord) (i : Instr), s.quiet → exec i s = .next t → i = .dmaW d ∨ i = .dmaWlast d →
    t.cfg = s.cfg ∧ t.bankCells = s.bankCells ∧ (∀ x, Memory.read t.refMem x = Memory.read s.refMem x) ∧
    (∀ q, t.wm q = (s.wm q).rest) ∧ (∀ q, t.rm q = (s.rm q).rest) ∧
    t.eng.ac = s.eng.ac ∧ t.eng.trk = s.eng.trk ∧ t.eng.regs = s.eng.regs ∧ t.eng.irq = s.eng.restIrq ∧
    t.eng.dstate = s.eng.restState ∧ (t.fifo = s.fifo ∨ t.fifo = s.fifo.tail) ∧
    (∀ x, (∀ k < 8, x ≠ laneAddr s.eng.dataAddr k) → Memory.read t.mem x = Memory.read s.mem x)
end

