-- ==== Sys2Proof/Laws/Memory.lean ====
section
/-! SUPPORT. The laws of byte memory: a read after a write, and that every memory operation keeps the canonical
form. -/

namespace Sys2Proof.Machine

/-- A read at the written address gives the written byte. -/
@[simp] theorem Memory.read_write_same (m : List Host.Cell) (a : Nat) (b : Byte) :
    Memory.read (Memory.write m a b) a = some b := by
  induction m with
  | nil => simp [Memory.write, Memory.read]
  | cons c m ih =>
    unfold Memory.write
    split
    · simp [Memory.read]
    · split
      · simp [Memory.read]
      · next h1 h2 => simp [Memory.read, Ne.symm h2, ih]

/-- A read anywhere else is as before. -/
theorem Memory.read_write_ne {a a' : Nat} (h : a' ≠ a) (m : List Host.Cell) (b : Byte) :
    Memory.read (Memory.write m a b) a' = Memory.read m a' := by
  induction m with
  | nil => simp [Memory.write, Memory.read, Ne.symm h]
  | cons c m ih =>
    unfold Memory.write
    split
    · simp [Memory.read, Ne.symm h]
    · split
      · next h2 => subst h2; simp [Memory.read, Ne.symm h]
      · simp [Memory.read, ih]

/-- The addresses listed after a write are the old ones and the written one. -/
theorem Memory.mem_write {m : List Host.Cell} {a : Nat} {b : Byte} {x : Host.Cell} (h : x ∈ Memory.write m a b) :
    x.1 = a ∨ x ∈ m := by
  induction m with
  | nil => simp_all [Memory.write]
  | cons c m ih =>
    unfold Memory.write at h
    split at h
    · rcases List.mem_cons.1 h with rfl | h
      · exact .inl rfl
      · exact .inr h
    · split at h
      · rcases List.mem_cons.1 h with rfl | h
        · exact .inl rfl
        · exact .inr (List.mem_cons_of_mem _ h)
      · rcases List.mem_cons.1 h with rfl | h
        · exact .inr (List.mem_cons_self ..)
        · exact (ih h).imp_right (List.mem_cons_of_mem _)

/-- A write keeps the addresses rising. -/
theorem Memory.pairwise_write {m : List Host.Cell} (a : Nat) (b : Byte)
    (h : m.Pairwise (fun x y => x.1 < y.1)) : (Memory.write m a b).Pairwise (fun x y => x.1 < y.1) := by
  induction m with
  | nil => simp [Memory.write]
  | cons c m ih =>
    obtain ⟨hc, hm⟩ := List.pairwise_cons.1 h
    unfold Memory.write
    split
    · next hlt =>
      refine List.pairwise_cons.2 ⟨fun x hx => ?_, h⟩
      rcases List.mem_cons.1 hx with rfl | hx
      · exact hlt
      · exact Nat.lt_trans hlt (hc x hx)
    · split
      · next heq =>
        subst heq
        exact List.pairwise_cons.2 ⟨hc, hm⟩
      · next h1 h2 =>
        refine List.pairwise_cons.2 ⟨fun x hx => ?_, ih hm⟩
        rcases Memory.mem_write hx with hx | hx
        · omega
        · exact hc x hx

/-- A write inside the address space keeps the canonical form. -/
theorem Memory.wf_write {m : List Host.Cell} (h : Memory.wf m) {a : Nat} (ha : a < addressSpace) (b : Byte) :
    Memory.wf (Memory.write m a b) := by
  refine ⟨Memory.pairwise_write a b h.1, fun x hx => ?_⟩
  rcases Memory.mem_write hx with hx | hx
  · exact hx ▸ ha
  · exact h.2 x hx

/-- The byte address of a lane lies inside the space. -/
theorem laneAddr_lt (a : Word) (k : Nat) : laneAddr a k < addressSpace := by
  have := (a + BitVec.ofNat 32 k).isLt
  simpa [laneAddr, addressSpace] using this

/-- A lane write keeps the canonical form. -/
theorem Memory.wf_writeLane {m : List Host.Cell} (h : Memory.wf m) (a : Word) (en : Bool) (b : Byte) (k : Nat) :
    Memory.wf (Memory.writeLane m a en b k) := by
  unfold Memory.writeLane
  split
  · exact Memory.wf_write h (laneAddr_lt a k) b
  · exact h

/-- A word write keeps the canonical form. -/
theorem Memory.wf_writeWord {m : List Host.Cell} (h : Memory.wf m) (a : Word) (be : BitVec 4) (d : Word) :
    Memory.wf (Memory.writeWord m a be d) := by
  simp only [Memory.writeWord, List.foldl_cons, List.foldl_nil]
  exact Memory.wf_writeLane (Memory.wf_writeLane (Memory.wf_writeLane (Memory.wf_writeLane h ..) ..) ..) ..

/-- A double-word write keeps the canonical form. -/
theorem Memory.wf_writeDWord {m : List Host.Cell} (h : Memory.wf m) (a : Word) (d : DWord) :
    Memory.wf (Memory.writeDWord m a d) := by
  simp only [Memory.writeDWord, List.foldl_cons, List.foldl_nil]
  exact Memory.wf_writeLane (Memory.wf_writeLane (Memory.wf_writeLane (Memory.wf_writeLane
    (Memory.wf_writeLane (Memory.wf_writeLane (Memory.wf_writeLane (Memory.wf_writeLane h ..) ..) ..) ..) ..) ..) ..) ..

/-- A lane write leaves every other byte. -/
theorem Memory.read_writeLane_ne {a : Word} {k x : Nat} (h : x ≠ laneAddr a k) (m : List Host.Cell) (en : Bool)
    (b : Byte) : Memory.read (Memory.writeLane m a en b k) x = Memory.read m x := by
  unfold Memory.writeLane
  split
  · exact Memory.read_write_ne h m b
  · rfl

/-- A word write leaves every byte outside its four lanes. -/
theorem Memory.read_writeWord_ne {a : Word} {x : Nat} (h : ∀ k < 4, x ≠ laneAddr a k) (m : List Host.Cell)
    (be : BitVec 4) (d : Word) : Memory.read (Memory.writeWord m a be d) x = Memory.read m x := by
  simp only [Memory.writeWord, List.foldl_cons, List.foldl_nil]
  rw [Memory.read_writeLane_ne (h 3 (by decide)), Memory.read_writeLane_ne (h 2 (by decide)),
    Memory.read_writeLane_ne (h 1 (by decide)), Memory.read_writeLane_ne (h 0 (by decide))]

/-- A double-word write leaves every byte outside its eight lanes. -/
theorem Memory.read_writeDWord_ne {a : Word} {x : Nat} (h : ∀ k < 8, x ≠ laneAddr a k) (m : List Host.Cell)
    (d : DWord) : Memory.read (Memory.writeDWord m a d) x = Memory.read m x := by
  simp only [Memory.writeDWord, List.foldl_cons, List.foldl_nil]
  rw [Memory.read_writeLane_ne (h 7 (by decide)), Memory.read_writeLane_ne (h 6 (by decide)),
    Memory.read_writeLane_ne (h 5 (by decide)), Memory.read_writeLane_ne (h 4 (by decide)),
    Memory.read_writeLane_ne (h 3 (by decide)), Memory.read_writeLane_ne (h 2 (by decide)),
    Memory.read_writeLane_ne (h 1 (by decide)), Memory.read_writeLane_ne (h 0 (by decide))]

end Sys2Proof.Machine
end

