-- ==== Sys2Proof/Laws/State.lean ====
section
/-! SUPPORT. The small lemmas of the state record: what each update leaves in each field, all by `rfl`. -/

namespace Sys2Proof.Machine

/-! ## Driving pins changes the feed and nothing else -/

@[simp] theorem State.drive_cfg (f : Inputs → Inputs) (s : State) : (s.drive f).cfg = s.cfg := rfl
@[simp] theorem State.drive_cycle (f : Inputs → Inputs) (s : State) : (s.drive f).cycle = s.cycle := rfl
@[simp] theorem State.drive_feed (f : Inputs → Inputs) (s : State) : (s.drive f).feed = f s.inputs :: s.feed.tail := rfl
@[simp] theorem State.drive_bankW (f : Inputs → Inputs) (s : State) : (s.drive f).bankW = s.bankW := rfl
@[simp] theorem State.drive_bankR (f : Inputs → Inputs) (s : State) : (s.drive f).bankR = s.bankR := rfl
@[simp] theorem State.drive_bankCells (f : Inputs → Inputs) (s : State) : (s.drive f).bankCells = s.bankCells := rfl
@[simp] theorem State.drive_dmaW (f : Inputs → Inputs) (s : State) : (s.drive f).dmaW = s.dmaW := rfl
@[simp] theorem State.drive_dmaR (f : Inputs → Inputs) (s : State) : (s.drive f).dmaR = s.dmaR := rfl
@[simp] theorem State.drive_eng (f : Inputs → Inputs) (s : State) : (s.drive f).eng = s.eng := rfl
@[simp] theorem State.drive_refW (f : Inputs → Inputs) (s : State) : (s.drive f).refW = s.refW := rfl
@[simp] theorem State.drive_refR (f : Inputs → Inputs) (s : State) : (s.drive f).refR = s.refR := rfl
@[simp] theorem State.drive_refMem (f : Inputs → Inputs) (s : State) : (s.drive f).refMem = s.refMem := rfl
@[simp] theorem State.drive_fifo (f : Inputs → Inputs) (s : State) : (s.drive f).fifo = s.fifo := rfl
@[simp] theorem State.drive_mem (f : Inputs → Inputs) (s : State) : (s.drive f).mem = s.mem := rfl
@[simp] theorem State.drive_inputs (f : Inputs → Inputs) (s : State) : (s.drive f).inputs = (f s.inputs).fit s.cfg := rfl

@[simp] theorem State.drive_wm (f : Inputs → Inputs) (s : State) (p : Port) : (s.drive f).wm p = s.wm p := by
  cases p <;> rfl

@[simp] theorem State.drive_rm (f : Inputs → Inputs) (s : State) (p : Port) : (s.drive f).rm p = s.rm p := by
  cases p <;> rfl

/-! ## Ports carry ids of their width -/

theorem fitId_lt (w id : Nat) : fitId w id < 2 ^ w := Nat.mod_lt _ (Nat.two_pow_pos w)

theorem fitId_of_lt {w id : Nat} (h : id < 2 ^ w) : fitId w id = id := Nat.mod_eq_of_lt h

@[simp] theorem fitId_idem (w id : Nat) : fitId w (fitId w id) = fitId w id := fitId_of_lt (fitId_lt w id)

@[simp] theorem fitCmd_idem (w : Nat) (c : AxCmd) : fitCmd w (fitCmd w c) = fitCmd w c := by simp [fitCmd]

@[simp] theorem fitResp_idem (w : Nat) (b : BResp) : fitResp w (fitResp w b) = fitResp w b := by simp [fitResp]

@[simp] theorem fitCmd_addr (w : Nat) (c : AxCmd) : (fitCmd w c).addr = c.addr := rfl
@[simp] theorem fitCmd_len (w : Nat) (c : AxCmd) : (fitCmd w c).len = c.len := rfl
@[simp] theorem fitCmd_size (w : Nat) (c : AxCmd) : (fitCmd w c).size = c.size := rfl
@[simp] theorem fitCmd_burst (w : Nat) (c : AxCmd) : (fitCmd w c).burst = c.burst := rfl
@[simp] theorem fitCmd_id (w : Nat) (c : AxCmd) : (fitCmd w c).id = fitId w c.id := rfl
@[simp] theorem fitResp_resp (w : Nat) (b : BResp) : (fitResp w b).resp = b.resp := rfl
@[simp] theorem SlaveIn.fit_aw (w : Nat) (i : SlaveIn) : (i.fit w).aw = i.aw.map (fitCmd w) := rfl
@[simp] theorem SlaveIn.fit_ar (w : Nat) (i : SlaveIn) : (i.fit w).ar = i.ar.map (fitCmd w) := rfl
@[simp] theorem SlaveIn.fit_w (w : Nat) (i : SlaveIn) : (i.fit w).w = i.w := rfl
@[simp] theorem SlaveIn.fit_bready (w : Nat) (i : SlaveIn) : (i.fit w).bready = i.bready := rfl
@[simp] theorem SlaveIn.fit_rready (w : Nat) (i : SlaveIn) : (i.fit w).rready = i.rready := rfl
@[simp] theorem SlaveIn.fit_idle (w : Nat) : SlaveIn.idle.fit w = SlaveIn.idle := rfl
@[simp] theorem Inputs.fit_rst (c : Config) (i : Inputs) : (i.fit c).rst = i.rst := rfl
@[simp] theorem Inputs.fit_bankExt (c : Config) (i : Inputs) : (i.fit c).bankExt = i.bankExt := rfl
@[simp] theorem Inputs.fit_mAwready (c : Config) (i : Inputs) : (i.fit c).mAwready = i.mAwready := rfl
@[simp] theorem Inputs.fit_mWready (c : Config) (i : Inputs) : (i.fit c).mWready = i.mWready := rfl
@[simp] theorem Inputs.fit_mB (c : Config) (i : Inputs) : (i.fit c).mB = i.mB.map (fitResp c.mIdW) := rfl
@[simp] theorem Inputs.fit_fifoPush (c : Config) (i : Inputs) : (i.fit c).fifoPush = i.fifoPush := rfl
@[simp] theorem Inputs.fit_idle (c : Config) : Inputs.idle.fit c = Inputs.idle := rfl

@[simp] theorem Inputs.fit_port (c : Config) (i : Inputs) (p : Port) : (i.fit c).port p = (i.port p).fit c.sIdW := by
  cases p <;> rfl

@[simp] theorem SlaveIn.fit_idem (w : Nat) (i : SlaveIn) : (i.fit w).fit w = i.fit w := by
  simp [SlaveIn.fit, Option.map_map, Function.comp_def]

@[simp] theorem Inputs.fit_idem (c : Config) (i : Inputs) : (i.fit c).fit c = i.fit c := by
  simp [Inputs.fit, Option.map_map, Function.comp_def]

/-- The pins of a cycle are what the ports carry already. -/
@[simp] theorem State.inputs_fit (s : State) : s.inputs.fit s.cfg = s.inputs := Inputs.fit_idem _ _

/-- An edge looks at the feed only through the pins of its cycle: with the same pins and the same later cycles it is the
same edge. -/
theorem State.clock_congr {s : State} {f : List Inputs} (hi : ({ s with feed := f } : State).inputs = s.inputs)
    (ht : f.tail = s.feed.tail) : ({ s with feed := f } : State).clock = s.clock := by
  simp only [State.clock, State.breach, State.portBreach, State.capturesW, State.capturesR, State.engineBreach,
    State.regWrite, State.acceptsW, State.resetsW, State.resetsR, State.resetReaches, State.edge, State.nextW,
    State.nextR, State.nextCells, State.nextEng, State.nextRefMem, State.nextFifo, State.nextMem, State.dataOut,
    State.offersR, State.cellValue, State.cellOf, State.decodes, State.wm, State.rm, hi, ht]
  rfl

/-- Driving what is already on the pins changes nothing of the edge. -/
theorem State.drive_clock {f : Inputs → Inputs} {s : State} (h : f s.inputs = s.inputs) :
    (s.drive f).clock = s.clock :=
  State.clock_congr ((State.drive_inputs f s).trans (by rw [h, s.inputs_fit])) rfl

/-! ## Pins of one slave -/

@[simp] theorem Inputs.onPort_port (p : Port) (f : SlaveIn → SlaveIn) (i : Inputs) :
    (i.onPort p f).port p = f (i.port p) := by cases p <;> rfl

theorem Inputs.onPort_port_ne {p q : Port} (h : q ≠ p) (f : SlaveIn → SlaveIn) (i : Inputs) :
    (i.onPort p f).port q = i.port q := by cases p <;> cases q <;> first | rfl | exact absurd rfl h

@[simp] theorem Inputs.onPort_rst (p : Port) (f : SlaveIn → SlaveIn) (i : Inputs) : (i.onPort p f).rst = i.rst := by
  cases p <;> rfl

@[simp] theorem Inputs.onPort_bankExt (p : Port) (f : SlaveIn → SlaveIn) (i : Inputs) : (i.onPort p f).bankExt = i.bankExt := by
  cases p <;> rfl

@[simp] theorem Inputs.onPort_mAwready (p : Port) (f : SlaveIn → SlaveIn) (i : Inputs) : (i.onPort p f).mAwready = i.mAwready := by
  cases p <;> rfl

@[simp] theorem Inputs.onPort_mWready (p : Port) (f : SlaveIn → SlaveIn) (i : Inputs) : (i.onPort p f).mWready = i.mWready := by
  cases p <;> rfl

@[simp] theorem Inputs.onPort_mB (p : Port) (f : SlaveIn → SlaveIn) (i : Inputs) : (i.onPort p f).mB = i.mB := by
  cases p <;> rfl

@[simp] theorem Inputs.onPort_fifoPush (p : Port) (f : SlaveIn → SlaveIn) (i : Inputs) : (i.onPort p f).fifoPush = i.fifoPush := by
  cases p <;> rfl

/-- Ports of another slave are not touched by driving one. -/
theorem Inputs.fit_onPort (c : Config) (p : Port) (f : SlaveIn → SlaveIn) (i : Inputs) :
    (i.onPort p f).fit c = (i.fit c).onPort p fun _ => (f (i.port p)).fit c.sIdW := by cases p <;> rfl

@[simp] theorem State.drivePort_inputs (p : Port) (f : SlaveIn → SlaveIn) (s : State) :
    (s.drivePort p f).inputs = s.inputs.onPort p fun q => (f q).fit s.cfg.sIdW := by
  rw [State.drivePort, State.drive_inputs, Inputs.fit_onPort, s.inputs_fit]
  cases p <;> rfl

@[simp] theorem State.inputs_port_fit (p : Port) (s : State) : (s.inputs.port p).fit s.cfg.sIdW = s.inputs.port p := by
  rw [← Inputs.fit_port, s.inputs_fit]

@[simp] theorem State.drivePort_cfg (p : Port) (f : SlaveIn → SlaveIn) (s : State) : (s.drivePort p f).cfg = s.cfg := rfl
@[simp] theorem State.drivePort_eng (p : Port) (f : SlaveIn → SlaveIn) (s : State) : (s.drivePort p f).eng = s.eng := rfl
@[simp] theorem State.drivePort_fifo (p : Port) (f : SlaveIn → SlaveIn) (s : State) : (s.drivePort p f).fifo = s.fifo := rfl
@[simp] theorem State.drivePort_wm (p q : Port) (f : SlaveIn → SlaveIn) (s : State) : (s.drivePort p f).wm q = s.wm q :=
  State.drive_wm _ s q
@[simp] theorem State.drivePort_rm (p q : Port) (f : SlaveIn → SlaveIn) (s : State) : (s.drivePort p f).rm q = s.rm q :=
  State.drive_rm _ s q

/-! ## Without the register write -/

@[simp] theorem State.withoutRegWrite_eng (s : State) : s.withoutRegWrite.eng = s.eng := rfl
@[simp] theorem State.withoutRegWrite_cfg (s : State) : s.withoutRegWrite.cfg = s.cfg := rfl
@[simp] theorem State.withoutRegWrite_fifo (s : State) : s.withoutRegWrite.fifo = s.fifo := rfl

@[simp] theorem State.withoutRegWrite_inputs (s : State) :
    s.withoutRegWrite.inputs = { s.inputs with dma := { s.inputs.dma with w := none } } := by
  have h : s.inputs.dma.fit s.cfg.sIdW = s.inputs.dma := s.inputs_port_fit .dma
  rw [State.withoutRegWrite, State.drivePort_inputs]
  exact congrArg (fun q : SlaveIn => ({ s.inputs with dma := { q with w := none } } : Inputs)) h

/-- Without the beat there is no register write. -/
@[simp] theorem State.withoutRegWrite_regWrite (s : State) : s.withoutRegWrite.regWrite = none := by
  simp [State.regWrite, State.acceptsW, WriteMachine.accepts, Inputs.port]

/-! ## The edge, part by part -/

@[simp] theorem State.edge_cfg (s : State) : s.edge.cfg = s.cfg := rfl
@[simp] theorem State.edge_cycle (s : State) : s.edge.cycle = s.cycle + 1 := rfl
@[simp] theorem State.edge_feed (s : State) : s.edge.feed = s.feed.tail := rfl
@[simp] theorem State.edge_bankW (s : State) : s.edge.bankW = s.nextW .bank := rfl
@[simp] theorem State.edge_bankR (s : State) : s.edge.bankR = s.nextR .bank := rfl
@[simp] theorem State.edge_bankCells (s : State) : s.edge.bankCells = s.nextCells := rfl
@[simp] theorem State.edge_dmaW (s : State) : s.edge.dmaW = s.nextW .dma := rfl
@[simp] theorem State.edge_dmaR (s : State) : s.edge.dmaR = s.nextR .dma := rfl
@[simp] theorem State.edge_eng (s : State) : s.edge.eng = s.nextEng := rfl
@[simp] theorem State.edge_refW (s : State) : s.edge.refW = s.nextW .ref := rfl
@[simp] theorem State.edge_refR (s : State) : s.edge.refR = s.nextR .ref := rfl
@[simp] theorem State.edge_refMem (s : State) : s.edge.refMem = s.nextRefMem := rfl
@[simp] theorem State.edge_fifo (s : State) : s.edge.fifo = s.nextFifo := rfl
@[simp] theorem State.edge_mem (s : State) : s.edge.mem = s.nextMem := rfl

@[simp] theorem State.edge_wm (p : Port) (s : State) : s.edge.wm p = s.nextW p := by cases p <;> rfl

@[simp] theorem State.edge_rm (p : Port) (s : State) : s.edge.rm p = s.nextR p := by cases p <;> rfl

/-! ## Placing an operation -/

@[simp] theorem State.present_cfg (f : Inputs → Inputs) (s : State) : (s.present f).cfg = s.cfg := rfl
@[simp] theorem State.present_cycle (f : Inputs → Inputs) (s : State) : (s.present f).cycle = s.cycle := rfl
@[simp] theorem State.present_feed (f : Inputs → Inputs) (s : State) : (s.present f).feed = f Inputs.idle :: s.feed := rfl
@[simp] theorem State.present_bankW (f : Inputs → Inputs) (s : State) : (s.present f).bankW = s.bankW := rfl
@[simp] theorem State.present_bankR (f : Inputs → Inputs) (s : State) : (s.present f).bankR = s.bankR := rfl
@[simp] theorem State.present_bankCells (f : Inputs → Inputs) (s : State) : (s.present f).bankCells = s.bankCells := rfl
@[simp] theorem State.present_dmaW (f : Inputs → Inputs) (s : State) : (s.present f).dmaW = s.dmaW := rfl
@[simp] theorem State.present_dmaR (f : Inputs → Inputs) (s : State) : (s.present f).dmaR = s.dmaR := rfl
@[simp] theorem State.present_eng (f : Inputs → Inputs) (s : State) : (s.present f).eng = s.eng := rfl
@[simp] theorem State.present_refW (f : Inputs → Inputs) (s : State) : (s.present f).refW = s.refW := rfl
@[simp] theorem State.present_refR (f : Inputs → Inputs) (s : State) : (s.present f).refR = s.refR := rfl
@[simp] theorem State.present_refMem (f : Inputs → Inputs) (s : State) : (s.present f).refMem = s.refMem := rfl
@[simp] theorem State.present_fifo (f : Inputs → Inputs) (s : State) : (s.present f).fifo = s.fifo := rfl
@[simp] theorem State.present_mem (f : Inputs → Inputs) (s : State) : (s.present f).mem = s.mem := rfl

@[simp] theorem State.present_inputs (f : Inputs → Inputs) (s : State) : (s.present f).inputs = (f Inputs.idle).fit s.cfg := rfl

@[simp] theorem State.setWm_wm (p : Port) (m : WriteMachine) (s : State) : (s.setWm p m).wm p = m := by
  cases p <;> rfl

@[simp] theorem State.setRm_rm (p : Port) (m : ReadMachine) (s : State) : (s.setRm p m).rm p = m := by
  cases p <;> rfl

end Sys2Proof.Machine
end

