-- ==== Sys2Proof/Laws/Clock.lean ====
section
/-! SUPPORT. What one clock edge can do, said once: the lemmas callers cite instead of unfolding `clock`, the
machines or the engine. -/

namespace Sys2Proof.Machine

/-- A clock edge answers a next state exactly when the parameters are in bounds and no duty is broken, and the state
is then `edge`. -/
theorem State.clock_eq_next_iff {s t : State} :
    s.clock = .next t ↔ s.cfg.wf = true ∧ s.breach = none ∧ t = s.edge := by
  unfold State.clock
  split
  · next hw =>
    split
    · next r hr => simp [hr]
    · next hr =>
      simp only [hr, hw, true_and, Host.Outcome.next.injEq]
      exact eq_comm
  · next hw => simp [hw]

/-- A clock edge never faults: there is no fault. -/
theorem State.clock_ne_fault (s : State) (r : Fault) : s.clock ≠ .fault r := nomatch r

/-- A clock edge of a state with a breach is refused for it. -/
theorem State.clock_eq_refused {s : State} {r : Refusal} (hw : s.cfg.wf = true) (h : s.breach = some r) :
    s.clock = .refused r := by
  simp [State.clock, hw, h]

/-- No breach of the edge means none on any slave and none at the engine. -/
theorem State.breach_eq_none_iff {s : State} :
    s.breach = none ↔ (∀ p, s.portBreach p = none) ∧ s.engineBreach = none := by
  simp only [State.breach, Option.or_eq_none_iff]
  constructor
  · rintro ⟨h1, h2, h3, h4⟩
    exact ⟨fun p => by cases p <;> assumption, h4⟩
  · rintro ⟨h, h4⟩
    exact ⟨h .bank, h .dma, h .ref, h4⟩

/-- A command breaks no duty exactly when it is legal. -/
theorem commandBreach_eq_none_iff (c : AxCmd) : commandBreach c = none ↔ c.legal = true := by
  unfold commandBreach AxCmd.legal
  split <;> rename_i h1
  · simp [h1]
  · split <;> rename_i h2
    · simp [h2.1, h2.2]
    · split <;> rename_i h3
      · simp [h3]
      · split <;> rename_i h4
        · simp [h4]
        · have h5 : c.burst = burstWrap → wrapLenOk c.len = true := fun hb => by
            by_contra hc
            exact h2 ⟨hb, by simpa using hc⟩
          have h6 : addrAligned c.addr c.size = true := by simpa using h4
          by_cases hb : c.burst = burstWrap
          · simpa [h1, h6, h5 hb] using h3
          · simpa [h1, h6, hb] using h3

/-- What a write machine can do at an edge without reset: leave `RESET`, capture, take a beat, give, or rest. -/
theorem WriteMachine.next_cases (base : Word) (n : Nat) (m : WriteMachine) (i : SlaveIn) :
    (∃ c, m.captures i = some c ∧ m.next base n i = m.capture c) ∨
    (∃ b, m.accepts i = some b ∧ m.next base n i = m.takeBeat base n b) ∨
    (∃ b, m.gives i = some b ∧ m.next base n i = m.give) ∨
    (m.captures i = none ∧ m.accepts i = none ∧ m.gives i = none ∧ m.next base n i = m.rest) := by
  unfold WriteMachine.next
  cases hs : m.wstate with
  | reset =>
    simp [WriteMachine.captures, WriteMachine.accepts, WriteMachine.gives, WriteMachine.offersB, WriteMachine.rest,
      WriteMachine.quiet, hs]
  | waitAddr =>
    cases hc : m.captures i with
    | some c => exact .inl ⟨c, rfl, by simp⟩
    | none =>
      simp [WriteMachine.accepts, WriteMachine.gives, WriteMachine.offersB, WriteMachine.rest, WriteMachine.quiet, hs]
  | waitData =>
    cases hc : m.accepts i with
    | some c => exact .inr (.inl ⟨c, rfl, by simp⟩)
    | none =>
      simp [WriteMachine.captures, WriteMachine.gives, WriteMachine.offersB, WriteMachine.rest, WriteMachine.quiet, hs]
  | waitRespReady =>
    cases hc : m.gives i with
    | some c => exact .inr (.inr (.inl ⟨c, rfl, by simp⟩))
    | none =>
      simp [WriteMachine.captures, WriteMachine.accepts, WriteMachine.rest, WriteMachine.quiet, hs]

/-- What a read machine can do at an edge without reset: leave `RESET`, capture, give, or rest. `offered` is what it
offers in the cycle. -/
theorem ReadMachine.next_cases (o : Option RBeat) (m : ReadMachine) (i : SlaveIn)
    (ho : o.isSome → m.rstate = .sendData) :
    (∃ c, m.captures i = some c ∧ m.next o i = m.capture c) ∨
    (∃ b, o = some b ∧ i.rready = true ∧ m.next o i = m.give b) ∨
    (m.captures i = none ∧ (o = none ∨ i.rready = false) ∧ m.next o i = m.rest) := by
  unfold ReadMachine.next
  cases hs : m.rstate with
  | reset =>
    have : o = none := by
      cases o with
      | none => rfl
      | some b => simp [hs] at ho
    simp [ReadMachine.captures, ReadMachine.rest, ReadMachine.quiet, hs, this]
  | waitValid =>
    have : o = none := by
      cases o with
      | none => rfl
      | some b => simp [hs] at ho
    cases hc : m.captures i with
    | some c => exact .inl ⟨c, rfl, by simp⟩
    | none => simp [ReadMachine.rest, ReadMachine.quiet, hs, this]
  | sendData =>
    cases o with
    | none => simp [ReadMachine.captures, ReadMachine.rest, ReadMachine.quiet, hs]
    | some b =>
      by_cases hr : i.rready = true
      · exact .inr (.inl ⟨b, rfl, hr, by simp [hr]⟩)
      · simp [ReadMachine.captures, ReadMachine.rest, ReadMachine.quiet, hs, hr]

/-- A beat is offered only in `SEND_DATA`. -/
theorem ReadMachine.offersR_isSome {m : ReadMachine} {r : Bool} {v : Word} (h : (m.offersR r v).isSome) :
    m.rstate = .sendData ∧ m.rvalid = true := by
  unfold ReadMachine.offersR at h
  split at h
  · assumption
  · simp at h

/-- Without `rst` no machine is reset. -/
theorem State.resetReaches_of_low {s : State} (h : s.inputs.rst = false) (p : Port) (b : Bool) :
    s.resetReaches p b = false := by
  cases p <;> simp [State.resetReaches, h]

@[simp] theorem State.resetsW_of_low {s : State} (h : s.inputs.rst = false) (p : Port) : s.resetsW p = false :=
  State.resetReaches_of_low h p _

@[simp] theorem State.resetsR_of_low {s : State} (h : s.inputs.rst = false) (p : Port) : s.resetsR p = false :=
  State.resetReaches_of_low h p _

/-- With `rst` every machine of the two resettable slaves is reset. -/
theorem State.resetReaches_of_high {s : State} (h : s.inputs.rst = true) {p : Port} (hp : p ≠ .ref) (b : Bool) :
    s.resetReaches p b = true := by
  cases p <;> simp_all [State.resetReaches]

/-- The reference slave without `REF_RESET_RECOVERY`, out of `RESET`, is not reset. -/
theorem State.resetReaches_ref {s : State} (h : s.cfg.refResetRecovery = false) :
    s.resetReaches .ref false = false := by
  simp [State.resetReaches, h]

/-- The write machine of a slave at an edge without reset. -/
theorem State.nextW_of_low {s : State} (h : s.inputs.rst = false) (p : Port) :
    s.nextW p = (s.wm p).next (Config.base p s.cfg) (Config.cells p s.cfg) (s.inputs.port p) := by
  simp [State.nextW, h]

/-- The read machine of a slave at an edge without reset. -/
theorem State.nextR_of_low {s : State} (h : s.inputs.rst = false) (p : Port) :
    s.nextR p = (s.rm p).next (s.offersR p) (s.inputs.port p) := by
  simp [State.nextR, h]

/-- A write machine whose master does nothing rests. -/
theorem WriteMachine.next_idle (base : Word) (n : Nat) (m : WriteMachine) (i : SlaveIn) (ha : i.aw = none)
    (hw : i.w = none) (hb : i.bready = false) : m.next base n i = m.rest := by
  rcases WriteMachine.next_cases base n m i with ⟨c, h, -⟩ | ⟨b, h, -⟩ | ⟨b, h, -⟩ | ⟨-, -, -, h⟩
  · simp [WriteMachine.captures, ha] at h
  · simp [WriteMachine.accepts, hw] at h
  · simp [WriteMachine.gives, hb] at h
  · exact h

/-- A read machine whose master does nothing rests. -/
theorem ReadMachine.next_idle (o : Option RBeat) (m : ReadMachine) (i : SlaveIn)
    (ho : o.isSome → m.rstate = .sendData) (ha : i.ar = none) (hr : i.rready = false) : m.next o i = m.rest := by
  rcases ReadMachine.next_cases o m i ho with ⟨c, h, -⟩ | ⟨b, -, h, -⟩ | ⟨-, -, h⟩
  · simp [ReadMachine.captures, ha] at h
  · simp [hr] at h
  · exact h

/-- Without a write-1-to-clear the pending bit only rises, at an enabled completion edge. -/
theorem nextIntPend_no_clear (complete intEn pend : Bool) :
    nextIntPend complete intEn false pend = (pend || (complete && intEn)) := by
  cases complete <;> cases intEn <;> cases pend <;> rfl

/-- Without a start a response latches the first error (R294, R295), whatever the free value is. -/
theorem Tracker.latched_no_start (t : Tracker) (b : BResp) (o : Bool) :
    t.latched false (some b) o = t.answered b.resp := by
  simp [Tracker.latched, Tracker.cleared]

/-- At a start the latches come out cleared, or holding the error code of a response of the same edge. -/
theorem Tracker.latched_start (t : Tracker) (resp : Option BResp) (o : Bool) :
    ((t.latched true resp o).err = false ∧ (t.latched true resp o).errResp = respOkay) ∨
    ∃ b, resp = some b ∧ isErrorCode b.resp = true ∧
      (t.latched true resp o).err = true ∧ (t.latched true resp o).errResp = b.resp := by
  cases resp with
  | none => simp [Tracker.latched, Tracker.cleared]
  | some b => cases h : isErrorCode b.resp <;> cases o <;>
      simp [Tracker.latched, Tracker.cleared, Tracker.answered, nextErr, nextErrResp, h]

/-- An engine to which nothing is handed over and nothing written rests. -/
theorem Engine.next_idle (c : Config) (e : Engine) (i : Inputs) (fifo : List DWord) (ha : i.mAwready = false)
    (hw : i.mWready = false) (hb : i.mB = none) (o : Bool) :
    e.next c i fifo none o = e.rest := by
  simp [Engine.next, Engine.rest, Engine.starts, startPulse, clearPulse, Engine.addrHandshake, Engine.dataHandshake,
    Tracker.next, Tracker.latched, Tracker.cleared, nextInflight, DmaRegs.next, Engine.nextState, Engine.restState, Engine.restIrq, nextIntPend_no_clear,
    Engine.completionEdge, ha, hw, hb]

/-- The operations, each as the edge of its driven cycle. -/
theorem exec_eq (i : Instr) (s : State) :
    exec i s =
      match i with
      | .awFixed p id size len addr => offerAw p ⟨id, addr, len, size, burstFixed⟩ s
      | .awIncr p id size len addr => offerAw p ⟨id, addr, len, size, burstIncr⟩ s
      | .awWrap p id size len addr => offerAw p ⟨id, addr, len, size, burstWrap⟩ s
      | .arFixed p id size len addr => offerAr p ⟨id, addr, len, size, burstFixed⟩ s
      | .arIncr p id size len addr => offerAr p ⟨id, addr, len, size, burstIncr⟩ s
      | .arWrap p id size len addr => offerAr p ⟨id, addr, len, size, burstWrap⟩ s
      | .awRsvd .. | .arRsvd .. => refuseReserved s
      | .wBeat p strb data => offerW p ⟨false, strb, data⟩ s
      | .wLast p strb data => offerW p ⟨true, strb, data⟩ s
      | .bOkay p id => takeB p ⟨id, respOkay⟩ s
      | .bDecerr p id => takeB p ⟨id, respDecerr⟩ s
      | .rOkay p id last data => takeR p ⟨id, last, respOkay, data⟩ s
      | .rDecerr p id last => takeR p ⟨id, last, respDecerr, Config.sentinel⟩ s
      | .dmaAw id len addr => takeMAw ⟨id, addr, len, 3, burstIncr⟩ s
      | .dmaW data => takeMW ⟨false, data⟩ s
      | .dmaWlast data => takeMW ⟨true, data⟩ s
      | .mbOkay id => offerMB ⟨id, respOkay⟩ s
      | .mbExokay id => offerMB ⟨id, respExokay⟩ s
      | .mbSlverr id => offerMB ⟨id, respSlverr⟩ s
      | .mbDecerr id => offerMB ⟨id, respDecerr⟩ s
      | .rdAddr => readAccess (s.atReadOf 0) s
      | .wrAddr last be d => writeAccess (s.atWriteOf 0) ⟨last, be, d⟩ s
      | .rdCount => readAccess (s.atReadOf 1) s
      | .wrCount last be d => writeAccess (s.atWriteOf 1) ⟨last, be, d⟩ s
      | .rdStatus => readAccess (s.atReadOf 2) s
      | .wrStatus last be d => writeAccess (s.atWriteOf 2) ⟨last, be, d⟩ s
      | .rdCtrl => readAccess (s.atReadOf 3) s
      | .wrCtrl last be d => writeAccess (s.atWriteOf 3) ⟨last, be, d⟩ s
      | .rdIntcfg => readAccess (s.atReadOf 4) s
      | .wrIntcfg last be d => writeAccess (s.atWriteOf 4) ⟨last, be, d⟩ s
      | .rdIntstat => readAccess (s.atReadOf 5) s
      | .wrIntstat last be d => writeAccess (s.atWriteOf 5) ⟨last, be, d⟩ s
      | .rdUnmapped _ => readAccess s.atReadOutside s
      | .wrUnmapped _ last be d => writeAccess s.atWriteOutside ⟨last, be, d⟩ s := by
  cases i <;> rfl

end Sys2Proof.Machine
end

