-- ==== Sys2Proof/Laws/PerInstr.lean ====
section
/-! SUPPORT. Statements made of every operation as syntax, one lemma per constructor. -/

namespace Sys2Proof.Laws

/-- A payload of `w` bits has no bit at or above `w` in the 80-bit word. -/
theorem setWidth_fits {w : Nat} (x : BitVec w) (h : w ≤ 80) : x.setWidth 80 >>> w = 0 := by
  apply BitVec.eq_of_toNat_eq
  have hx : x.toNat < 2 ^ w := x.isLt
  have h80 : (2 : Nat) ^ w ≤ 2 ^ 80 := Nat.pow_le_pow_right (by decide) h
  rw [BitVec.toNat_ushiftRight, BitVec.toNat_setWidth, Nat.mod_eq_of_lt (by omega), Nat.shiftRight_eq_div_pow,
    Nat.div_eq_of_lt hx]
  rfl

/-- The family of `Width`: the packed word of an operation stays inside the format of its channel (R102). -/
def Width.Statement (i : Instr) : Prop := (encode i).word >>> (encode i).chan.width = 0

theorem Width.awFixed (p : Port) (id : Nat) (size : BitVec 2) (len : BitVec 4) (addr : Word) : Width.Statement (.awFixed p id size len addr) := setWidth_fits _ (by decide)
theorem Width.awIncr (p : Port) (id : Nat) (size : BitVec 2) (len : BitVec 4) (addr : Word) : Width.Statement (.awIncr p id size len addr) := setWidth_fits _ (by decide)
theorem Width.awWrap (p : Port) (id : Nat) (size : BitVec 2) (len : BitVec 4) (addr : Word) : Width.Statement (.awWrap p id size len addr) := setWidth_fits _ (by decide)
theorem Width.awRsvd (p : Port) (id : Nat) (size : BitVec 2) (len : BitVec 4) (addr : Word) : Width.Statement (.awRsvd p id size len addr) := setWidth_fits _ (by decide)
theorem Width.arFixed (p : Port) (id : Nat) (size : BitVec 2) (len : BitVec 4) (addr : Word) : Width.Statement (.arFixed p id size len addr) := setWidth_fits _ (by decide)
theorem Width.arIncr (p : Port) (id : Nat) (size : BitVec 2) (len : BitVec 4) (addr : Word) : Width.Statement (.arIncr p id size len addr) := setWidth_fits _ (by decide)
theorem Width.arWrap (p : Port) (id : Nat) (size : BitVec 2) (len : BitVec 4) (addr : Word) : Width.Statement (.arWrap p id size len addr) := setWidth_fits _ (by decide)
theorem Width.arRsvd (p : Port) (id : Nat) (size : BitVec 2) (len : BitVec 4) (addr : Word) : Width.Statement (.arRsvd p id size len addr) := setWidth_fits _ (by decide)
theorem Width.wBeat (p : Port) (strb : BitVec 4) (data : Word) : Width.Statement (.wBeat p strb data) := setWidth_fits _ (by decide)
theorem Width.wLast (p : Port) (strb : BitVec 4) (data : Word) : Width.Statement (.wLast p strb data) := setWidth_fits _ (by decide)
theorem Width.bOkay (p : Port) (id : Nat) : Width.Statement (.bOkay p id) := setWidth_fits _ (by decide)
theorem Width.bDecerr (p : Port) (id : Nat) : Width.Statement (.bDecerr p id) := setWidth_fits _ (by decide)
theorem Width.rOkay (p : Port) (id : Nat) (last : Bool) (data : Word) : Width.Statement (.rOkay p id last data) := setWidth_fits _ (by decide)
theorem Width.rDecerr (p : Port) (id : Nat) (last : Bool) : Width.Statement (.rDecerr p id last) := setWidth_fits _ (by decide)
theorem Width.dmaAw (id : Nat) (len : BitVec 4) (addr : Word) : Width.Statement (.dmaAw id len addr) := setWidth_fits _ (by decide)
theorem Width.dmaW (data : DWord) : Width.Statement (.dmaW data) := setWidth_fits _ (by decide)
theorem Width.dmaWlast (data : DWord) : Width.Statement (.dmaWlast data) := setWidth_fits _ (by decide)
theorem Width.mbOkay (id : Nat) : Width.Statement (.mbOkay id) := setWidth_fits _ (by decide)
theorem Width.mbExokay (id : Nat) : Width.Statement (.mbExokay id) := setWidth_fits _ (by decide)
theorem Width.mbSlverr (id : Nat) : Width.Statement (.mbSlverr id) := setWidth_fits _ (by decide)
theorem Width.mbDecerr (id : Nat) : Width.Statement (.mbDecerr id) := setWidth_fits _ (by decide)
theorem Width.rdAddr : Width.Statement (.rdAddr) := setWidth_fits _ (by decide)
theorem Width.wrAddr (last : Bool) (be : BitVec 4) (d : Word) : Width.Statement (.wrAddr last be d) := setWidth_fits _ (by decide)
theorem Width.rdCount : Width.Statement (.rdCount) := setWidth_fits _ (by decide)
theorem Width.wrCount (last : Bool) (be : BitVec 4) (d : Word) : Width.Statement (.wrCount last be d) := setWidth_fits _ (by decide)
theorem Width.rdStatus : Width.Statement (.rdStatus) := setWidth_fits _ (by decide)
theorem Width.wrStatus (last : Bool) (be : BitVec 4) (d : Word) : Width.Statement (.wrStatus last be d) := setWidth_fits _ (by decide)
theorem Width.rdCtrl : Width.Statement (.rdCtrl) := setWidth_fits _ (by decide)
theorem Width.wrCtrl (last : Bool) (be : BitVec 4) (d : Word) : Width.Statement (.wrCtrl last be d) := setWidth_fits _ (by decide)
theorem Width.rdIntcfg : Width.Statement (.rdIntcfg) := setWidth_fits _ (by decide)
theorem Width.wrIntcfg (last : Bool) (be : BitVec 4) (d : Word) : Width.Statement (.wrIntcfg last be d) := setWidth_fits _ (by decide)
theorem Width.rdIntstat : Width.Statement (.rdIntstat) := setWidth_fits _ (by decide)
theorem Width.wrIntstat (last : Bool) (be : BitVec 4) (d : Word) : Width.Statement (.wrIntstat last be d) := setWidth_fits _ (by decide)
theorem Width.rdUnmapped (o : BitVec 1) : Width.Statement (.rdUnmapped o) := setWidth_fits _ (by decide)
theorem Width.wrUnmapped (o : BitVec 1) (last : Bool) (be : BitVec 4) (d : Word) : Width.Statement (.wrUnmapped o last be d) := setWidth_fits _ (by decide)

end Sys2Proof.Laws
end

