-- ==== Sys2Proof/Tests/Slice0.lean ====
section
/-! SUPPORT. The model's own tests. Every expected value is the spec's: a worked encoding of 30_encoding.md, a vector of
95_test_vectors.md (V, S, P numbers), or a hand calculation from the rule named. The `witness_` theorems show states and
operands that meet the hypotheses of the obligation they are named after. -/

namespace Sys2Proof.Tests

open Sys2Proof Sys2Proof.Machine

/-! ## Helpers -/

/-- Whether a step answers a next state. -/
def isNext : Host.Outcome State Fault Refusal → Bool
  | .next _ => true
  | .fault _ => false
  | .refused _ => false

/-- The next state of a step. -/
def after : Host.Outcome State Fault Refusal → State
  | .next t => t
  | .fault _ => State.reset
  | .refused _ => State.reset

/-- The reason a step is refused. -/
def refusal : Host.Outcome State Fault Refusal → Option Refusal
  | .next _ => none
  | .fault _ => none
  | .refused r => some r

theorem next_of_isNext {o : Host.Outcome State Fault Refusal} (h : isNext o = true) : ∃ t, o = .next t := by
  cases o with
  | next t => exact ⟨t, rfl⟩
  | fault r => cases h
  | refused r => cases h

theorem next_after {o : Host.Outcome State Fault Refusal} (h : isNext o = true) : o = .next (after o) := by
  cases o with
  | next t => rfl
  | fault r => cases h
  | refused r => cases h

/-- Power-on, one quiet edge later: every machine waits (R171, R201). -/
def up : State := after (step State.reset)

/-- Write machine `p` at a beat with the cursor at `a`, INCR, size 2. -/
def writing (p : Port) (a : Word) (s : State) : State :=
  s.setWm p { s.wm p with wstate := .waitData, wready := true, wCur := a, wMask := 0xFFFFFFFF, wSize := 2, bid := 7 }

/-- Read machine `p` at a beat with the cursor at `a`, INCR, size 2, `len` more beats to come. -/
def reading (p : Port) (a : Word) (len : BitVec 4) (s : State) : State :=
  s.setRm p { s.rm p with
    rstate := .sendData, arready := false, rvalid := true, rCur := a, rMask := 0xFFFFFFFF, rSize := 2, rLen := len,
    rid := 9 }

/-- Write machine `p` offering the response `r`. -/
def answering (p : Port) (r : BitVec 2) (s : State) : State :=
  s.setWm p { s.wm p with wstate := .waitRespReady, bvalid := true, bresp := r, bid := 5 }

/-- The pins of the coming cycle. -/
def pins (i : Inputs) (s : State) : State := { s with feed := [i] }

/-- The DMA block's register `k`, at the default base. -/
def reg (k : Nat) : Word := 0x40001000 + BitVec.ofNat 32 (4 * k)

/-- The engine with its address and count registers set. -/
def programmed (addr count : Word) (s : State) : State :=
  { s with eng := { s.eng with regs := { s.eng.regs with addr := addr, count := count } } }

/-- The engine in `RUN` with the channels given, some words in the FIFO. -/
def running (ac : AddrChannel) (dc : DataChannel) (s : State) : State :=
  { s with eng := { s.eng with dstate := .run, ac := ac, dc := dc }, fifo := [0xD0, 0xD1] }

/-- The tracker and the interrupt registers. -/
def tracking (t : Tracker) (i : Interrupt) (s : State) : State := { s with eng := { s.eng with trk := t, irq := i } }

/-- The bank of four cells with one of each kind. -/
def mixedBank (s : State) : State :=
  { s with cfg := { s.cfg with bankCells := [.readWrite 0, .fixed 7, .external, .readWrite 0] } }

/-! ## WellFormed: an ill-formed term for each check -/

theorem test_wf_reserved_burst : (Instr.awRsvd .bank 0 2 0 0x40000000).wf Config.default = false := by decide
theorem test_wf_malformed_wrap : (Instr.arWrap .bank 0 2 2 0x40000000).wf Config.default = false := by decide
theorem test_wf_size_3 : (Instr.awIncr .bank 0 3 0 0x40000000).wf Config.default = false := by decide
theorem test_wf_misaligned : (Instr.arIncr .bank 0 2 0 0x40000001).wf Config.default = false := by decide
theorem test_wf_engine_address : (Instr.dmaAw 0 0 0x10000004).wf Config.default = false := by decide
theorem test_wf_slave_id : (Instr.bOkay .bank 4096).wf Config.default = false := by decide
theorem test_wf_memory_id : (Instr.mbOkay 64).wf Config.default = false := by decide
theorem test_wf_accepts : (Instr.awWrap .ref 4095 0 1 3).wf Config.default = true := by decide
theorem test_config_default : Config.default.wf = true := by decide
theorem test_config_base_unaligned : ({ Config.default with dmaBase := 2 } : Config).wf = false := by decide
theorem test_config_no_cells : ({ Config.default with bankCells := [] } : Config).wf = false := by decide
theorem test_config_window_past_top : ({ Config.default with refBase := 0xFFFFFFF4 } : Config).wf = false := by decide
theorem test_config_count_width : ({ Config.default with countW := 0 } : Config).wf = false := by decide
theorem test_config_count_too_wide : ({ Config.default with countW := 33 } : Config).wf = false := by decide
theorem test_config_inflight_width : ({ Config.default with inflW := 0 } : Config).wf = false := by decide
theorem test_config_memory_id : ({ Config.default with mId := 64 } : Config).wf = false := by decide

/-! ## Decode: a word written out from the table's encoding, for every constructor -/

theorem test_decode_aw_fixed : decode ⟨.aw .bank, 0x2340000004, 3, 0⟩ = .ok (.awFixed .bank 3 2 3 0x40000004) := by decide
theorem test_decode_aw_incr : decode ⟨.aw .dma, 0x6040000004, 5, 0⟩ = .ok (.awIncr .dma 5 2 0 0x40000004) := by decide
theorem test_decode_aw_wrap : decode ⟨.aw .ref, 0x8140000003, 1, 0⟩ = .ok (.awWrap .ref 1 0 1 0x40000003) := by decide
theorem test_decode_aw_rsvd : decode ⟨.aw .bank, 0xC000000000, 0, 0⟩ = .ok (.awRsvd .bank 0 0 0 0) := by decide
theorem test_decode_ar_fixed : decode ⟨.ar .bank, 0x2140000004, 3, 0⟩ = .ok (.arFixed .bank 3 2 1 0x40000004) := by decide
theorem test_decode_ar_incr : decode ⟨.ar .ref, 0x5F80000002, 6, 0⟩ = .ok (.arIncr .ref 6 1 15 0x80000002) := by decide
theorem test_decode_ar_wrap : decode ⟨.ar .bank, 0xA340000008, 9, 0⟩ = .ok (.arWrap .bank 9 2 3 0x40000008) := by decide
theorem test_decode_ar_rsvd : decode ⟨.ar .dma, 0xFF12345678, 2, 0⟩ = .ok (.arRsvd .dma 2 3 15 0x12345678) := by decide
theorem test_decode_w_beat : decode ⟨.w .bank, 0x0111223344, 0, 0⟩ = .ok (.wBeat .bank 0b0001 0x11223344) := by decide
theorem test_decode_w_last : decode ⟨.w .ref, 0x1855667788, 0, 0⟩ = .ok (.wLast .ref 0b1000 0x55667788) := by decide
theorem test_decode_b_okay : decode ⟨.b .bank, 0b00, 5, 0⟩ = .ok (.bOkay .bank 5) := by decide
theorem test_decode_b_decerr : decode ⟨.b .dma, 0b11, 1, 0⟩ = .ok (.bDecerr .dma 1) := by decide
theorem test_decode_r_okay : decode ⟨.r .bank, 0x4DEAD0001, 9, 0⟩ = .ok (.rOkay .bank 9 true 0xDEAD0001) := by decide
theorem test_decode_r_decerr : decode ⟨.r .ref, 0x3DEADBEEF, 2, 0⟩ = .ok (.rDecerr .ref 2 false) := by decide
theorem test_decode_dma_aw : decode ⟨.mAw, 0x71100000F0, 0, 0⟩ = .ok (.dmaAw 0 1 0x100000F0) := by decide
theorem test_decode_dma_w : decode ⟨.mW, 0x0FF00000000000000D0, 0, 0⟩ = .ok (.dmaW 0xD0) := by decide
theorem test_decode_dma_wlast : decode ⟨.mW, 0x1FF00000000000000D1, 0, 0⟩ = .ok (.dmaWlast 0xD1) := by decide
theorem test_decode_mb_okay : decode ⟨.mB, 0b00, 0, 0⟩ = .ok (.mbOkay 0) := by decide
theorem test_decode_mb_exokay : decode ⟨.mB, 0b01, 1, 0⟩ = .ok (.mbExokay 1) := by decide
theorem test_decode_mb_slverr : decode ⟨.mB, 0b10, 2, 0⟩ = .ok (.mbSlverr 2) := by decide
theorem test_decode_mb_decerr : decode ⟨.mB, 0b11, 3, 0⟩ = .ok (.mbDecerr 3) := by decide
theorem test_decode_register_reads :
    [0, 1, 2, 3, 4, 5, 6, 7].map (fun w => (decode ⟨.reg, w, 0, 0⟩).toOption) =
      [some .rdAddr, some .rdCount, some .rdStatus, some .rdCtrl, some .rdIntcfg, some .rdIntstat,
        some (.rdUnmapped 0), some (.rdUnmapped 1)] := by decide
theorem test_decode_register_writes :
    [8, 9, 10, 11, 12, 13, 14, 15].map (fun w => (decode ⟨.reg, w, 0, 0x0E00000063⟩).toOption) =
      [some (.wrAddr false 0b1110 99), some (.wrCount false 0b1110 99), some (.wrStatus false 0b1110 99),
        some (.wrCtrl false 0b1110 99), some (.wrIntcfg false 0b1110 99), some (.wrIntstat false 0b1110 99),
        some (.wrUnmapped 0 false 0b1110 99), some (.wrUnmapped 1 false 0b1110 99)] := by decide

theorem test_decode_refuses_excess_bits : decode ⟨.aw .bank, 0x10000000000, 0, 0⟩ = .error .excessBits := by decide
theorem test_decode_refuses_slverr_of_slave : decode ⟨.b .bank, 0b10, 0, 0⟩ = .error .responseNotOfSlave := by decide
theorem test_decode_refuses_other_data_with_decerr :
    decode ⟨.r .bank, 0x300000000, 0, 0⟩ = .error .readBeatNotOfSlave := by decide
theorem test_decode_refuses_engine_fixed : decode ⟨.mAw, 0x3050001000, 0, 0⟩ = .error .commandNotOfEngine := by decide
theorem test_decode_refuses_engine_strobes :
    decode ⟨.mW, 0x0FE00000000000000D0, 0, 0⟩ = .error .strobesNotAllOnes := by decide

/-- Table words (log 18): the row DMA.AW and the row AW.INCR, which share a width. -/
theorem test_table_words :
    decodeTableWord 40 0x7F50001000 = some (.dmaAw 0 15 0x50001000) ∧
    decodeTableWord 40 0x6040000004 = some (.awIncr .bank 0 2 0 0x40000004) ∧
    decodeTableWord 8 0b1011 = some (.wrCtrl false 0 0) := by decide

/-- Placing a table word after reset, the very next step runs it: the bank's command is captured. -/
theorem test_fetch_word :
    isNext (step (State.reset.withFetchWord 40 0x6040000004)) = true ∧
    (after (step (State.reset.withFetchWord 40 0x6040000004))).bankW.wCur = 0x40000004 := by decide

/-! ## The sequencer, the decode and the byte lanes -/

/-- V1, V3, V5, V8, V9: the last advance of each. -/
theorem test_advance_vectors :
    wrapMask burstWrap 3 2 = some 0xF ∧ advance 0x4000000C 0xF 2 = 0x40000000 ∧
    wrapMask burstWrap 7 1 = some 0xF ∧ advance 0x100E 0xF 1 = 0x1000 ∧
    wrapMask burstWrap 1 0 = some 1 ∧ advance 3 1 0 = 2 ∧
    wrapMask burstFixed 3 2 = some 0 ∧ advance 0x4000000C 0 2 = 0x4000000C ∧
    wrapMask burstIncr 2 2 = some 0xFFFFFFFF ∧ advance 0xFFFFFFFC 0xFFFFFFFF 2 = 0 := by decide

/-- V13, V16, V17, V18, V20. -/
theorem test_decode_boundary :
    inRange 0x40000000 4 0x40000000 = true ∧ inRange 0x40000000 4 0x4000000F = true ∧
    idx 0x40000000 0x4000000F = 3 ∧ inRange 0x40000000 4 0x40000010 = false ∧
    inRange 0x40000000 4 0x3FFFFFFC = false ∧ inRange 0x40000000 4 0xFFFFFFFF = false := by decide

/-- The rows of 95_test_vectors.md section 2.3 that tell the four lanes apart. -/
theorem test_byte_lanes :
    [0b0000, 0b0001, 0b0010, 0b0100, 0b1000, 0b0110, 0b1111].map (fun be => mergeLanes be 0x11223344 0xAABBCCDD) =
      [0xAABBCCDD, 0xAABBCC44, 0xAABB33DD, 0xAA22CCDD, 0x11BBCCDD, 0xAA2233DD, 0x11223344] := by decide

/-! ## The write channels -/

/-- V21, the capture. -/
theorem test_aw_incr_captures :
    (after (exec (.awIncr .bank 5 2 0 0x40000004) up)).bankW =
      ⟨.waitData, true, true, false, 0, 5, 0x40000004, 0xFFFFFFFF, 2, none⟩ := by decide

/-- R91: of an id with more than the 12 bits of the port, the port carries the low ones (4096 + 5). -/
theorem test_id_port_width :
    (after (exec (.awIncr .bank 4101 2 0 0x40000004) up)).bankW.bid = 5 ∧
    (after (exec (.arIncr .ref 4095 2 0 0x40000004) up)).refR.rid = 4095 := by decide

/-- P3: FIXED has the mask 0. V6: WRAP of two words has the mask 7. -/
theorem test_aw_masks :
    (after (exec (.awFixed .bank 3 2 3 0x40000004) up)).bankW.wMask = 0 ∧
    (after (exec (.awWrap .ref 3 2 1 0x40000004) up)).refW.wMask = 7 := by decide

/-- V22: at the beat past the end DECERR is latched, the cursor goes on, nothing is written. -/
theorem test_w_beat_out_of_range :
    let t := after (exec (.wBeat .bank 0xF 0xAAAA0003) (writing .bank 0x40000010 up))
    t.bankW.bresp = 3 ∧ t.bankW.wCur = 0x40000014 ∧ t.bankCells = [0, 0, 0, 0] ∧ t.bankW.wstate = .waitData := by
  decide

/-- V21, the beat: the cell is written and the response offered. -/
theorem test_w_last_writes :
    let t := after (exec (.wLast .bank 0xF 0xDEAD0001) (writing .bank 0x40000004 up))
    t.bankCells = [0, 0xDEAD0001, 0, 0] ∧ t.bankW.bvalid = true ∧ t.bankW.wready = false ∧
    t.bankW.wstate = .waitRespReady := by decide

/-- R157, R154: a read-only cell ignores a write, and the response stays OKAY. -/
theorem test_w_last_read_only :
    let t := after (exec (.wLast .bank 0xF 0xDEAD0001) (mixedBank (writing .bank 0x40000004 up)))
    t.bankCells = [0, 0, 0, 0] ∧ t.bankW.bresp = 0 := by decide

/-- R222 on the reference array: lanes 0 and 3 of word 1 at `0x40000004`. -/
theorem test_w_beat_reference :
    (after (exec (.wBeat .ref 0b1001 0x11223344) (writing .ref 0x40000004 up))).refMem =
      [(0x40000004, 0x44), (0x40000007, 0x11)] := by decide

/-- V21, the response. -/
theorem test_b_okay :
    let t := after (exec (.bOkay .bank 5) (answering .bank 0 up))
    t.bankW.gaveB = some ⟨5, 0⟩ ∧ t.bankW.wstate = .waitAddr ∧ t.bankW.bvalid = false := by decide

theorem test_b_decerr :
    (after (exec (.bDecerr .ref 5) (answering .ref 3 up))).refW.gaveB = some ⟨5, 3⟩ := by decide

/-- V23: a response the machine does not offer is not handed over. -/
theorem test_b_waits :
    (after (exec (.bOkay .bank 5) (answering .bank 3 up))).bankW.wstate = .waitRespReady := by decide

/-- V24: a beat offered in `WAIT_ADDR` waits. -/
theorem test_w_early_waits :
    (after (exec (.wBeat .bank 0xF 1) up)).bankW.wstate = .waitAddr ∧
    (after (exec (.wBeat .bank 0xF 1) up)).bankCells = [0, 0, 0, 0] := by decide

/-! ## The read channels -/

/-- V26, the capture. -/
theorem test_ar_incr_captures :
    (after (exec (.arIncr .bank 9 2 0 0x40000004) up)).bankR =
      ⟨.sendData, false, true, 9, 0x40000004, 0xFFFFFFFF, 2, 0, none⟩ := by decide

theorem test_ar_masks :
    (after (exec (.arFixed .ref 3 2 1 0x40000004) up)).refR.rMask = 0 ∧
    (after (exec (.arWrap .bank 9 2 3 0x40000008) up)).bankR.rMask = 0xF := by decide

/-- V26, the beat; the machine waits for an address again. -/
theorem test_r_okay_last :
    let t := after (exec (.rOkay .bank 9 true 0xDEAD0001)
      (reading .bank 0x40000004 0 { up with bankCells := [0, 0xDEAD0001, 0, 0] }))
    t.bankR.gaveR = some ⟨9, true, 0, 0xDEAD0001⟩ ∧ t.bankR.rstate = .waitValid ∧ t.bankR.arready = true := by decide

/-- R154: a fixed cell reads its constant. -/
theorem test_r_okay_fixed_cell :
    (after (exec (.rOkay .bank 9 true 7) (mixedBank (reading .bank 0x40000004 0 up)))).bankR.gaveR =
      some ⟨9, true, 0, 7⟩ := by decide

/-- V27, the third beat: sentinel, DECERR, the burst goes on. -/
theorem test_r_decerr :
    let t := after (exec (.rDecerr .bank 9 false) (reading .bank 0x40000010 1 up))
    t.bankR.gaveR = some ⟨9, false, 3, 0xDEADBEEF⟩ ∧ t.bankR.rCur = 0x40000014 ∧ t.bankR.rLen = 0 := by decide

/-! ## The registers of the DMA block -/

/-- V31. -/
theorem test_wr_addr :
    (after (exec (.wrAddr true 0xF 0x50000FFF) (writing .dma (reg 0) up))).eng.regs.addr = 0x50000FF8 ∧
    (after (exec (.wrAddr true 1 0xFFFFFFFF) (writing .dma (reg 0) up))).eng.regs.addr = 0xF8 := by decide

theorem test_rd_addr :
    (after (exec .rdAddr (reading .dma (reg 0) 0 (programmed 0x50000FF8 0 up)))).dmaR.gaveR =
      some ⟨9, true, 0, 0x50000FF8⟩ := by decide

/-- V32; and R235 with a narrower `COUNT_W`. -/
theorem test_wr_count :
    (after (exec (.wrCount true 0xF 99) (writing .dma (reg 1) up))).eng.regs.count = 99 ∧
    (after (exec (.wrCount true 0xF 0x1FF)
      (writing .dma (reg 1) { up with cfg := { up.cfg with countW := 8 } }))).eng.regs.count = 0xFF := by decide

theorem test_rd_count :
    (after (exec .rdCount (reading .dma (reg 1) 0 (programmed 0 99 up)))).dmaR.gaveR = some ⟨9, true, 0, 99⟩ := by decide

/-- V57 while a burst is owed: `err_resp` SLVERR, `err`, `busy`. -/
theorem test_rd_status :
    (after (exec .rdStatus (reading .dma (reg 2) 0 (tracking ⟨1, true, 2⟩ ⟨true, false⟩ up)))).dmaR.gaveR =
      some ⟨9, true, 0, 0x501⟩ := by decide

/-- V34. -/
theorem test_wr_status :
    let s := writing .dma (reg 2) (tracking ⟨1, true, 2⟩ ⟨true, false⟩ up)
    (after (exec (.wrStatus true 0xF 0xFFFFFFFF) s)).eng = s.eng := by decide

/-- V35. -/
theorem test_rd_ctrl :
    (after (exec .rdCtrl (reading .dma (reg 3) 0 up))).dmaR.gaveR = some ⟨9, true, 0, 0⟩ := by decide

/-- P5, the edge of cycle 0. -/
theorem test_wr_ctrl_starts :
    let e := (after (exec (.wrCtrl true 0xF 1) (writing .dma (reg 3) (programmed 0x100000F0 2 up)))).eng
    e.dstate = .run ∧ e.ac = ⟨true, 0x100000F0, 1, 1, false⟩ ∧ e.dc = ⟨3, 2⟩ ∧ e.trk = ⟨0, false, 0⟩ := by decide

/-- V40. -/
theorem test_wr_ctrl_lane_0_off :
    (after (exec (.wrCtrl true 0b1110 1) (writing .dma (reg 3) up))).eng = up.eng := by decide

/-- V36. -/
theorem test_wr_intcfg :
    (after (exec (.wrIntcfg true 0xF 0xFFFFFFFF) (writing .dma (reg 4) up))).eng.regs.intEn = true := by decide

theorem test_rd_intcfg :
    (after (exec .rdIntcfg (reading .dma (reg 4) 0
      { up with eng := { up.eng with regs := ⟨0, 0, true⟩ } }))).dmaR.gaveR = some ⟨9, true, 0, 1⟩ := by decide

/-- V37: a read does not clear, a write of 1 does. -/
theorem test_intstat_clears :
    let s := tracking ⟨0, false, 0⟩ ⟨false, true⟩ up
    (after (exec .rdIntstat (reading .dma (reg 5) 0 s))).dmaR.gaveR = some ⟨9, true, 0, 1⟩ ∧
    (after (exec .rdIntstat (reading .dma (reg 5) 0 s))).eng.irq.intPend = true ∧
    (after (exec (.wrIntstat true 0xF 0) (writing .dma (reg 5) s))).eng.irq.intPend = true ∧
    (after (exec (.wrIntstat true 0xF 1) (writing .dma (reg 5) s))).eng.irq.intPend = false := by decide

/-- V62: the completion edge wins over the clear of the same edge; V61: not without the enable. -/
theorem test_intstat_completion :
    let s := tracking ⟨0, false, 0⟩ ⟨true, false⟩ up
    (after (exec (.wrIntstat true 0xF 1)
      (writing .dma (reg 5) { s with eng := { s.eng with regs := ⟨0, 0, true⟩ } }))).eng.irq.intPend = true ∧
    (after (exec (.wrIntstat true 0xF 1) (writing .dma (reg 5) s))).eng.irq.intPend = false := by decide

/-- V38, V39. -/
theorem test_unmapped :
    (after (exec (.rdUnmapped 0) (reading .dma (reg 6) 0 up))).dmaR.gaveR = some ⟨9, true, 3, 0xDEADBEEF⟩ ∧
    (after (exec (.wrUnmapped 0 true 0xF 1) (writing .dma (reg 6) up))).dmaW.bresp = 3 ∧
    (after (exec (.wrUnmapped 0 true 0xF 1) (writing .dma (reg 6) up))).eng = up.eng := by decide

/-! ## The engine -/

/-- S5, V43, V46, V48, V53: the first burst. -/
theorem test_first_len :
    [(0x50000FF8#32, 100), (0x10000000#32, 17), (0x10000078#32, 1), (0x10000008#32, 15), (0x20000F70#32, 20)].map
      (fun x => firstLen x.1 x.2) = [1, 16, 1, 15, 2] := by decide

/-- P5, the edge of cycle 1: the final burst comes on offer. -/
theorem test_dma_aw :
    let t := after (exec (.dmaAw 0 1 0x100000F0) (running ⟨true, 0x100000F0, 1, 1, false⟩ ⟨3, 2⟩ up))
    t.eng.ac = ⟨true, 0x10000100, 0, 0, false⟩ ∧ t.eng.trk.inflight = 1 := by decide

/-- P6, bursts 1 and 2: 18 words follow the first burst, so a full burst comes on offer. -/
theorem test_dma_aw_full_burst :
    (after (exec (.dmaAw 0 1 0x20000F70) (running ⟨true, 0x20000F70, 1, 18, false⟩ ⟨20, 2⟩ up))).eng.ac =
      ⟨true, 0x20000F80, 15, 2, false⟩ := by decide

/-- P5, the data word of cycle 1: lane `k` at `A + k`, the word leaves the FIFO. -/
theorem test_dma_w :
    let t := after (exec (.dmaW 0xD0) (running ⟨true, 0x100000F0, 1, 1, false⟩ ⟨3, 2⟩ up))
    t.eng.dc = ⟨2, 1⟩ ∧ t.fifo = [0xD1] ∧ Memory.read t.mem 0x100000F0 = some 0xD0 ∧
    Memory.read t.mem 0x100000F7 = some 0 ∧ Memory.read t.mem 0x100000F8 = none := by decide

/-- P5, the data word of cycle 2: the last of its burst, one word to come. -/
theorem test_dma_wlast :
    let t := after (exec (.dmaWlast 0xD0) (running ⟨true, 0x10000100, 0, 0, false⟩ ⟨2, 1⟩ up))
    t.eng.dc = ⟨1, 1⟩ ∧ Memory.read t.mem 0x100000F8 = some 0xD0 := by decide

/-- V57: SLVERR latched, a later DECERR does not change it; V55, V56: OKAY and EXOKAY are no errors. -/
theorem test_memory_responses :
    (after (exec (.mbSlverr 0) (tracking ⟨2, false, 0⟩ ⟨true, false⟩ up))).eng.trk = ⟨1, true, 2⟩ ∧
    (after (exec (.mbDecerr 0) (tracking ⟨1, true, 2⟩ ⟨true, false⟩ up))).eng.trk = ⟨0, true, 2⟩ ∧
    (after (exec (.mbOkay 0) (tracking ⟨2, false, 0⟩ ⟨true, false⟩ up))).eng.trk = ⟨1, false, 0⟩ ∧
    (after (exec (.mbExokay 0) (tracking ⟨1, false, 0⟩ ⟨true, false⟩ up))).eng.trk = ⟨0, false, 0⟩ := by decide

/-- P5, the edge of cycle 6: the completion edge. -/
theorem test_completion_edge :
    let s := tracking ⟨0, true, 2⟩ ⟨true, false⟩ { up with eng := { up.eng with regs := ⟨0x100000F0, 2, true⟩ } }
    (after (step s)).eng.irq = ⟨false, true⟩ ∧ s.eng.statusWord = 0x500 := by decide

/-! ## Reset and refusals -/

/-- V66, P4 cycle 3: a write beat at the edge of a reset is not applied, the cell returns to its reset value. -/
theorem test_reset_beats_the_beat :
    let t := after (exec (.wBeat .bank 0xF 0xCAFE0002)
      (pins { Inputs.idle with rst := true } (writing .bank 0x40000000 { up with bankCells := [0xCAFE0001, 0, 0, 0] })))
    t.bankCells = [0, 0, 0, 0] ∧ t.bankW.wstate = .reset ∧ t.bankW.wready = false := by decide

/-- P4 cycle 2: a read and a write of one cell at one edge; the read carries the old value. -/
theorem test_same_edge_read_is_old :
    let s := reading .bank 0x40000000 3 (writing .bank 0x40000000 up)
    let t := after (exec (.wBeat .bank 0xF 0xCAFE0001)
      (pins { Inputs.idle with bank := { SlaveIn.idle with rready := true } } s))
    t.bankR.gaveR = some ⟨9, false, 0, 0⟩ ∧ t.bankCells = [0xCAFE0001, 0, 0, 0] := by decide

/-- R224: the reference slave stays in its start-up `RESET` while `rst` is 1, as the bank does, and ignores `rst` once it
has left it. -/
theorem test_reference_reset :
    let held := after (step (pins { Inputs.idle with rst := true } State.reset))
    let later := after (step (pins { Inputs.idle with rst := true } up))
    held.refW.wstate = .reset ∧ held.refR.arready = false ∧ held.bankR.arready = false ∧
    later.refW.wstate = .waitAddr ∧ later.refR.arready = true ∧ later.bankR.arready = false := by decide

theorem test_refusals :
    refusal (exec (.awRsvd .bank 0 2 0 0) up) = some .reservedBurst ∧
    refusal (exec (.arRsvd .ref 0 2 0 0) up) = some .reservedBurst ∧
    refusal (exec (.awWrap .bank 0 2 2 0x4000000C) up) = some .malformedWrap ∧
    refusal (exec (.arIncr .bank 0 3 0 0) up) = some .sizeTooWide ∧
    refusal (exec (.awIncr .dma 0 2 2 0x1001) up) = some .misaligned ∧
    refusal (exec (.wrCtrl true 1 1) (writing .dma (reg 3) (programmed 0xFFFFFFF8 1 up))) = some .transferPastTop ∧
    refusal (exec (.wrCtrl true 1 1) (writing .dma (reg 3) (tracking ⟨1, false, 0⟩ ⟨true, false⟩ up))) =
      some .startWhileOwed := by decide

/-- U8: a response nobody is owed leaves the counter at 0, and R294 and R295 latch its code all the same. -/
theorem test_unowed_response :
    (after (exec (.mbSlverr 0) up)).eng.trk = ⟨0, true, 2⟩ ∧ (after (exec (.mbOkay 0) up)).eng.trk = ⟨0, false, 0⟩ := by
  decide

/-- Hand calculation: an OKAY response at the edge of a start leaves the latches cleared (R265, R294). -/
theorem test_start_with_okay_response :
    let t := after (exec (.wrCtrl true 1 1) (pins { Inputs.idle with mB := some ⟨0, 0⟩ }
      (writing .dma (reg 3) (tracking ⟨0, true, 2⟩ ⟨false, false⟩ up))))
    t.eng.trk = ⟨0, false, 0⟩ ∧ t.eng.dstate = .run := by decide

/-- V65: one quiet edge after power-on every machine waits. -/
theorem test_reset_is_left :
    up.bankW.wstate = .waitAddr ∧ up.bankR.rstate = .waitValid ∧ up.bankR.arready = true ∧ up.refW.wstate = .waitAddr ∧
    up.cycle = 1 := by decide

/-! ## Witnesses: states and operands that meet the hypotheses of the obligations -/

/-- Two commands at one edge, on both channels of the bank (P4, cycle 1). -/
def both : State :=
  pins { Inputs.idle with bank :=
    ⟨some ⟨7, 0x40000000, 3, 2, 0b01⟩, none, false, some ⟨8, 0x40000000, 3, 2, 0b01⟩, false⟩ } up

/-- A cycle with the reset input high. -/
def rstPins : Inputs := { Inputs.idle with rst := true }

/-- A run with its first burst on offer and `aRem` words after it. -/
def offering (aRem : Nat) : State := running ⟨true, 0x10000000, 15, aRem, false⟩ ⟨aRem + 16, 16⟩ up

/-- A beat of slave `p` with data `d` on the pins of the coming cycle. -/
def beatPins (p : Port) (last : Bool) (d : Word) : Inputs :=
  Inputs.idle.onPort p fun q => { q with w := some ⟨last, 0xF, d⟩ }

theorem witness_DecodeOfEncodeGivesOperationBack :
    (Instr.dmaAw 3 15 0xFFFFFF80).encodable = true ∧ (Instr.rdUnmapped 1).encodable = true := by decide

theorem witness_DecodedWordIsTheEncodedWord :
    decode ⟨.r .ref, 0x7DEADBEEF, 2, 5⟩ = .ok (.rDecerr .ref 2 true) := by decide

theorem witness_StepRunsTheDecodedTransfer :
    both.wires = [AxCmd.toAw .bank ⟨7, 0x40000000, 3, 2, 0b01⟩, AxCmd.toAr .bank ⟨8, 0x40000000, 3, 2, 0b01⟩] ∧
    decode (AxCmd.toAw .bank ⟨7, 0x40000000, 3, 2, 0b01⟩) = .ok (.awIncr .bank 7 2 3 0x40000000) := by decide

theorem witness_SimultaneousOperationsShareTheEdge :
    AxCmd.toAr .bank ⟨8, 0x40000000, 3, 2, 0b01⟩ ∈ both.wires ∧
    decode (AxCmd.toAr .bank ⟨8, 0x40000000, 3, 2, 0b01⟩) = .ok (.arIncr .bank 8 2 3 0x40000000) ∧
    ∀ p id size len addr, Instr.arIncr .bank 8 2 3 0x40000000 ≠ .awRsvd p id size len addr ∧
      Instr.arIncr .bank 8 2 3 0x40000000 ≠ .arRsvd p id size len addr := by
  refine ⟨by decide, by decide, fun _ _ _ _ _ => ⟨?_, ?_⟩⟩ <;> intro h <;> cases h

theorem witness_WrapBurstVisitsItsWindow :
    (wrapLenOk 1 = true ∧ wrapMask burstWrap 1 0 = some 1) ∧
    (wrapLenOk 15 = true ∧ wrapMask burstWrap 15 3 = some 0x7F) := by decide

theorem witness_FixedStaysAndIncrClimbs :
    wrapMask burstFixed 15 3 = some 0 ∧ wrapMask burstIncr 15 3 = some 0xFFFFFFFF := by decide

theorem witness_DecodeSelectsTheCell :
    Config.windowOk 0xFFFFFFF0 4 = true ∧ inRange 0xFFFFFFF0 4 0xFFFFFFFF = true ∧
    Config.windowOk 0 1 = true ∧ inRange 0 1 3 = true ∧ inRange 0 1 4 = false := by decide

theorem witness_WriteCommandIsCaptured :
    up.runs ∧ (up.wm .bank).wstate = .waitAddr ∧ (up.wm .dma).wstate = .waitAddr ∧ (up.wm .ref).wstate = .waitAddr ∧
    AxCmd.legal ⟨0, 0xFFFFFFFF, 15, 0, 0b00⟩ = true ∧ AxCmd.legal ⟨5, 0xFFFFFFFC, 2, 2, 0b01⟩ = true ∧
    AxCmd.legal ⟨9, 0x40000002, 15, 1, 0b10⟩ = true := by decide

theorem witness_WriteBeatAdvancesTheBurst :
    (∀ p : Port, p = .bank ∨ p = .dma ∨ p = .ref → (writing p 0x40000010 up).runs ∧
      ((writing p 0x40000010 up).wm p).wstate = .waitData ∧ ((writing p 0x40000010 up).wm p).wready = true) ∧
    (writing .dma (reg 3) up).atWriteOf 3 = true ∧ (writing .dma (reg 3) up).startAllowed ∧
    (writing .dma (reg 3) (offering 0)).startAllowed := by
  refine ⟨?_, by decide⟩
  rintro p (h | h | h) <;> subst h <;> decide

theorem witness_LastBeatEndsTheBurst :
    (writing .dma (reg 3) (offering 0)).runs ∧ (writing .dma (reg 3) (offering 0)).dmaW.wstate = .waitData ∧
    (writing .dma (reg 3) (offering 0)).dmaW.wready = true ∧ (writing .dma (reg 3) (offering 0)).startAllowed := by
  decide

theorem witness_BankBeatWritesEnabledLanes :
    let s := writing .bank 0x4000000C (mixedBank up)
    (s.runs ∧ s.bankW.wstate = .waitData ∧ s.bankW.wready = true ∧ s.decodes .bank s.bankW.wCur = true ∧
      s.cfg.bankCells[s.cellOf .bank s.bankW.wCur]? = some (CellKind.readWrite 0) ∧
      s.bankCells[s.cellOf .bank s.bankW.wCur]? = some 0) ∧
    (let u := writing .bank 0x40000008 (mixedBank up)
     u.runs ∧ u.decodes .bank u.bankW.wCur = true ∧
      u.cfg.bankCells[u.cellOf .bank u.bankW.wCur]? = some CellKind.external) ∧
    (let u := writing .bank 0x40000010 up; u.runs ∧ u.decodes .bank u.bankW.wCur = false) := by decide

theorem witness_ReferenceBeatWritesEnabledLanes :
    let s := writing .ref 0x4000000F up
    let u := writing .ref 0x40000010 up
    (s.runs ∧ s.refW.wstate = .waitData ∧ s.refW.wready = true ∧ s.decodes .ref s.refW.wCur = true ∧
      refWordAddr s.cfg.refBase (s.cellOf .ref s.refW.wCur) = 0x4000000C) ∧
    (u.runs ∧ u.refW.wready = true ∧ u.decodes .ref u.refW.wCur = false) := by decide

theorem witness_ResponseIsHandedOver :
    ((answering .bank 0 up).runs ∧ (answering .bank 0 up).bankW.wstate = .waitRespReady ∧
      (answering .bank 0 up).bankW.bvalid = true ∧ (answering .bank 0 up).bankW.bresp = 0b00) ∧
    ((answering .dma 3 up).runs ∧ (answering .dma 3 up).dmaW.bvalid = true ∧
      (answering .dma 3 up).dmaW.bresp = 0b11) := by decide

theorem witness_ReadCommandIsCaptured :
    up.runs ∧ (up.rm .bank).rstate = .waitValid ∧ (up.rm .bank).arready = true ∧ (up.rm .ref).arready = true ∧
    AxCmd.legal ⟨0, 0xFFFFFFFF, 15, 0, 0b00⟩ = true ∧ AxCmd.legal ⟨5, 0xFFFFFFFC, 2, 2, 0b01⟩ = true ∧
    AxCmd.legal ⟨9, 0x40000002, 1, 1, 0b10⟩ = true ∧ 0 < 2 ^ up.cfg.sIdW ∧ 4095 < 2 ^ up.cfg.sIdW := by decide

theorem witness_ReadBeatIsHandedOver :
    let s := reading .bank 0x4000000F 0 up
    let u := reading .ref 0x40000010 15 up
    (s.runs ∧ s.bankR.rstate = .sendData ∧ s.bankR.rvalid = true ∧ s.decodes .bank s.bankR.rCur = true ∧
      s.bankR.rLen = 0) ∧
    (u.runs ∧ u.refR.rstate = .sendData ∧ u.refR.rvalid = true ∧ u.decodes .ref u.refR.rCur = false ∧
      u.refR.rLen ≠ 0) := by decide

/-- One cell of each kind at its first or last byte address, and one past the end. -/
theorem witness_ReadDataIsTheCell :
    let s (a : Word) := pins { Inputs.idle with bankExt := [1, 2, 3] } (mixedBank (reading .bank a 0 up))
    ((s 0x40000003).slaveOut .bank).r = some ⟨9, true, 0, 0⟩ ∧ (s 0x40000003).decodes .bank 0x40000003 = true ∧
    (s 0x40000003).bankCells[0]? = some 0 ∧ ((s 0x40000004).slaveOut .bank).r = some ⟨9, true, 0, 7⟩ ∧
    ((s 0x4000000B).slaveOut .bank).r = some ⟨9, true, 0, 3⟩ ∧ (s 0x4000000B).inputs.bankExt[2]? = some 3 ∧
    ((s 0x40000010).slaveOut .bank).r = some ⟨9, true, 3, 0xDEADBEEF⟩ ∧
    (s 0x40000010).decodes .bank 0x40000010 = false := by decide

/-- The last word of the reference array: written, and with its last byte not written. -/
theorem witness_ReadDataIsTheCell_reference :
    let s (m : List Host.Cell) (a : Word) : State := { reading .ref a 0 up with refMem := m }
    let full : List Host.Cell := [(0x4000000C, 1), (0x4000000D, 2), (0x4000000E, 3), (0x4000000F, 4)]
    ((s full 0x4000000F).slaveOut .ref).r = some ⟨9, true, 0, 0x04030201⟩ ∧
    (s full 0x4000000F).decodes .ref 0x4000000F = true ∧ Memory.read full (laneAddr 0x4000000C 3) = some 4 ∧
    ((s full.dropLast 0x4000000F).slaveOut .ref).r.isSome = true ∧
    Memory.read full.dropLast (laneAddr 0x4000000C 3) = none ∧
    ((s full 0x40000010).slaveOut .ref).r = some ⟨9, true, 3, 0xDEADBEEF⟩ ∧
    (s full 0x40000010).decodes .ref 0x40000010 = false := by decide

theorem witness_WaitingMachinesHold :
    let s := writing .bank 0x40000000 (answering .dma 0 (reading .ref 0x40000000 3 up))
    State.reset.runs ∧ State.reset.bankW.wstate = .reset ∧ State.reset.bankR.rstate = .reset ∧
    s.runs ∧ s.refW.wstate = .waitAddr ∧ s.bankW.wstate = .waitData ∧ s.dmaW.wstate = .waitRespReady ∧
    s.bankR.rstate = .waitValid ∧ s.refR.rstate = .sendData ∧
    s.inputs.ref.aw = none ∧ s.inputs.bank.w = none ∧ s.inputs.dma.bready = false ∧ s.inputs.bank.ar = none ∧
    s.inputs.ref.rready = false := by decide

theorem witness_ReservedBurstIsRefused : State.reset.cfg.wf = true := by decide

theorem witness_MalformedCommandIsRefusedAtCapture :
    up.runs ∧ (up.wm .ref).wstate = .waitAddr ∧ (up.rm .ref).rstate = .waitValid ∧ (up.rm .ref).arready = true ∧
    wrapLenOk 0 = false ∧ wrapLenOk 14 = false ∧ wrapLenOk 15 = true ∧ (0x40000003#32).toNat % 2 ^ (2#2).toNat ≠ 0 ∧
    (0x40000001#32).toNat % 2 ^ (1#2).toNat ≠ 0 := by decide

theorem witness_ParametersOutOfBoundsAreRefused :
    ({ State.reset with cfg := { Config.default with countW := 33 } } : State).cfg.wf = false := by decide

theorem witness_RegisterAccessIsABeat :
    [0, 1, 2, 3, 4, 5].all (fun k =>
      (writing .dma (reg k) up).atWriteOf k && (reading .dma (reg k) 3 up).atReadOf k) = true := by decide

theorem witness_StatedRegisterReads :
    (reading .dma (reg 0) 0 up).runs ∧ (reading .dma (reg 0) 0 up).atReadOf 0 = true ∧
    (reading .dma (reg 2) 0 up).runs ∧ (reading .dma (reg 2) 0 up).atReadOf 2 = true ∧
    (let s := reading .dma (reg 5) 0 (tracking ⟨0, false, 0⟩ ⟨false, true⟩ up)
     s.runs ∧ s.atReadOf 5 = true ∧ s.inputs.dma.w = none ∧ s.eng.irq.intPend = true) ∧
    (reading .dma (reg 6) 0 up).runs ∧ (reading .dma (reg 6) 0 up).atReadOutside = true := by decide

theorem witness_DecidedRegisterReads :
    [1, 3, 4].all (fun k => decide (reading .dma (reg k) 0 up).runs && (reading .dma (reg k) 0 up).atReadOf k) = true := by
  decide

/-- Register writes beside a run whose address and data are handed over at the same edge, a response coming in. -/
theorem witness_register_writes_in_a_run :
    [0, 1, 2, 3, 4, 5].all (fun k =>
      let s := pins { Inputs.idle with mAwready := true, mWready := true, mB := some ⟨0, 2⟩ }
        (writing .dma (reg k) (offering 20))
      decide (s.runs ∧ s.eng.dstate = .run) && s.atWriteOf k && isNext (step s.withoutRegWrite)) = true := by decide

theorem witness_AddressRegisterWrite :
    (writing .dma (reg 0) up).runs ∧ (writing .dma (reg 0) up).atWriteOf 0 = true ∧
    (writing .dma (reg 0) up).quiet := by decide

theorem witness_CountRegisterWrite :
    let s := writing .dma (reg 1) { up with cfg := { up.cfg with countW := 1 } }
    s.runs ∧ s.atWriteOf 1 = true ∧ s.quiet := by decide

theorem witness_WritesThatChangeNothing :
    (writing .dma (reg 2) up).runs ∧ (writing .dma (reg 2) up).atWriteOf 2 = true ∧ (writing .dma (reg 2) up).quiet ∧
    (writing .dma (reg 6) up).runs ∧ (writing .dma (reg 6) up).atWriteOutside = true ∧
    (writing .dma (reg 6) up).quiet := by decide

theorem witness_InterruptEnableWrite :
    let s := writing .dma (reg 4) (tracking ⟨0, false, 0⟩ ⟨false, true⟩ up)
    let u := writing .dma (reg 4) (tracking ⟨1, false, 0⟩ ⟨true, false⟩ up)
    (s.runs ∧ s.atWriteOf 4 = true ∧ s.eng.irq.intPend = true ∧ s.eng.irq.busyPrev = false ∧ s.quiet) ∧
    (u.runs ∧ u.atWriteOf 4 = true ∧ u.eng.irq.busyPrev = true ∧ u.eng.busy = true) := by decide

theorem witness_InterruptStatusWrite :
    let s := writing .dma (reg 5) (tracking ⟨0, false, 0⟩ ⟨true, true⟩ up)
    let e : State := { s with eng := { s.eng with regs := ⟨0, 0, true⟩ } }
    (s.runs ∧ s.atWriteOf 5 = true ∧ s.quiet ∧
      ¬(s.eng.irq.busyPrev = true ∧ s.eng.busy = false ∧ s.eng.regs.intEn = true)) ∧
    (e.runs ∧ e.atWriteOf 5 = true ∧ e.eng.irq.busyPrev = true ∧ e.eng.busy = false ∧ e.eng.regs.intEn = true) := by
  decide

/-- The last word of the memory space: the transfer ends exactly at `2^32`. -/
theorem witness_StartBeginsTheRun :
    let s := writing .dma (reg 3) (programmed 0xFFFFFFF8 0 up)
    s.runs ∧ s.atWriteOf 3 = true ∧ s.eng.dstate = .waitStart ∧ s.eng.trk.inflight = 0 ∧
    s.eng.regs.addr.toNat + 8 * (s.eng.regs.count.toNat + 1) ≤ 2 ^ 32 ∧
    1 = min (s.eng.regs.count.toNat + 1) (16 - s.eng.regs.addr.toNat / 8 % 16) ∧
    (pins { Inputs.idle with mB := some ⟨0, 2⟩ } s).runs := by decide

theorem witness_ControlWriteWithoutStart :
    ((writing .dma (reg 3) up).runs ∧ (writing .dma (reg 3) up).atWriteOf 3 = true ∧
      (writing .dma (reg 3) up).eng.dstate = .waitStart ∧ (writing .dma (reg 3) up).quiet ∧
      (0b1110#4).getLsbD 0 = false) ∧
    ((writing .dma (reg 3) (offering 0)).runs ∧ (writing .dma (reg 3) (offering 0)).atWriteOf 3 = true ∧
      (writing .dma (reg 3) (offering 0)).eng.dstate = .run) := by decide

theorem witness_StartThatBreaksADutyIsRefused :
    (let s := writing .dma (reg 3) (tracking ⟨1, false, 0⟩ ⟨true, false⟩ up)
     s.runs ∧ s.atWriteOf 3 = true ∧ s.eng.dstate = .waitStart ∧ s.eng.trk.inflight ≠ 0) ∧
    (let s := writing .dma (reg 3) (programmed 0xFFFFFFF8 1 up)
     s.runs ∧ s.atWriteOf 3 = true ∧ s.eng.dstate = .waitStart ∧ s.eng.trk.inflight = 0 ∧
      2 ^ 32 < s.eng.regs.addr.toNat + 8 * (s.eng.regs.count.toNat + 1)) := by decide

theorem witness_FirstBurstEndsAtTheBoundary :
    (0x50000FF8#32).toNat % 8 = 0 ∧ firstLen 0x50000FF8 100 < 100 ∧ firstLen 0x50000FF8 1 = 1 := by decide

theorem witness_AddressHandshakeDecidesTheNextBurst :
    [16, 15, 1, 0].all (fun n => decide ((offering n).runs ∧ (offering n).eng.dstate = .run ∧
      (offering n).eng.ac.awvalid = true ∧ (offering n).eng.ac.aRem = n)) = true := by decide

theorem witness_DataHandshakeCountsTheWord :
    (let s := offering 0
     s.runs ∧ s.eng.dstate = .run ∧ s.eng.dc.dRem ≠ 0 ∧ s.fifo = [0xD0, 0xD1] ∧ s.eng.dc.bRem ≠ 1) ∧
    (let s := running ⟨true, 0x10000080, 15, 0, false⟩ ⟨17, 1⟩ up
     s.runs ∧ s.eng.dstate = .run ∧ s.eng.dc.dRem ≠ 0 ∧ s.fifo = [0xD0, 0xD1] ∧ s.eng.dc.bRem = 1) := by decide

/-- The last word of the memory space. -/
theorem witness_DataWordGoesToItsAddress :
    let s := running ⟨true, 0xFFFFFFF8, 0, 0, false⟩ ⟨1, 1⟩ up
    s.runs ∧ s.eng.dstate = .run ∧ s.eng.dc.dRem ≠ 0 ∧ s.fifo = [0xD0, 0xD1] ∧ s.eng.dc.bRem = 1 ∧
    s.eng.dataAddr = 0xFFFFFFF8 := by decide

theorem witness_ResponseLatchesTheFirstError :
    (let s := tracking ⟨1, true, 2⟩ ⟨true, false⟩ up; s.runs ∧ s.eng.trk.inflight ≠ 0 ∧ s.eng.starts s.regWrite = false) ∧
    (let s := pins { Inputs.idle with mAwready := true } (offering 0)
     s.runs ∧ s.eng.trk.inflight = 0 ∧ s.eng.addrHandshake s.inputs = true ∧ s.eng.starts s.regWrite = false) ∧
    (up.runs ∧ up.eng.trk.inflight = 0 ∧ up.eng.starts up.regWrite = false) ∧
    (let s := pins (beatPins .dma true 1) (writing .dma (reg 3) up)
     s.runs ∧ s.eng.starts s.regWrite = true) := by
  decide

/-- Neither, an address, a response, both; and a response nobody is owed. -/
theorem witness_InflightCountsAddressesLessResponses :
    up.runs ∧ (pins { Inputs.idle with mAwready := true } (offering 0)).runs ∧
    (pins { Inputs.idle with mB := some ⟨0, 0⟩ } (tracking ⟨1, false, 0⟩ ⟨true, false⟩ up)).runs ∧
    (pins { Inputs.idle with mAwready := true, mB := some ⟨0, 0⟩ } (offering 0)).runs ∧
    (let s := pins { Inputs.idle with mB := some ⟨0, 0⟩ } up
     s.runs ∧ s.eng.trk.inflight = 0 ∧ (s.eng.ac.awvalid && s.inputs.mAwready) = false ∧ s.inputs.mB.isSome = true) := by
  decide

theorem witness_ResponseLatchesTheFirstError_kept :
    (let s := pins { Inputs.idle with mB := some ⟨0, 3⟩ } (tracking ⟨1, true, 2⟩ ⟨true, false⟩ up)
     isNext (step s) = true ∧ s.inputs.rst = false ∧ s.eng.trk.err = true) ∧
    (let s := pins (beatPins .dma true 1) (writing .dma (reg 3) (tracking ⟨0, true, 2⟩ ⟨false, false⟩ up))
     isNext (step s) = true ∧ s.eng.trk.err = true ∧ (after (step s)).eng.trk.err = false) := by decide

/-- The completion edge, and a write that clears. -/
theorem witness_CompletionEdgeSetsThePendingBit :
    (let s := tracking ⟨0, true, 2⟩ ⟨true, false⟩ { up with eng := { up.eng with regs := ⟨0x100000F0, 2, true⟩ } }
     step s = .next (after (step s)) ∧ s.inputs.rst = false ∧ s.eng.irq.busyPrev = true ∧ s.eng.busy = false ∧
      s.eng.regs.intEn = true ∧ s.eng.irq.intPend = false ∧ (after (step s)).eng.irq.intPend = true) ∧
    (let s := pins (beatPins .dma true 1) (writing .dma (reg 5) (tracking ⟨0, false, 0⟩ ⟨false, true⟩ up))
     step s = .next (after (step s)) ∧ s.inputs.rst = false ∧ s.eng.irq.intPend = true ∧
      (after (step s)).eng.irq.intPend = false) :=
  ⟨⟨next_after (by decide), by decide⟩, ⟨next_after (by decide), by decide⟩⟩

theorem witness_BusyRisesOnlyByAStart :
    let s := pins (beatPins .dma true 1) (writing .dma (reg 3) up)
    s.eng.ok s.cfg ∧ step s = .next (after (step s)) ∧ s.eng.busy = false ∧ (after (step s)).eng.busy = true :=
  ⟨by decide, next_after (by decide), by decide, by decide⟩

/-- The edge that ends a run, and one that does not. -/
theorem witness_BusyRisesOnlyByAStart_end :
    let s := running ⟨false, 0x10000100, 0, 0, true⟩ ⟨0, 0⟩ up
    step s = .next (after (step s)) ∧ s.inputs.rst = false ∧ s.eng.dstate = .run ∧
    (after (step s)).eng.dstate = .waitStart ∧ (offering 0).eng.dstate = .run ∧
    (after (step (offering 0))).eng.dstate = .run := ⟨next_after (by decide), by decide⟩

theorem witness_ResetEdgeOfASlave :
    let s := pins rstPins (writing .bank 0x40000000 { up with cfg := { up.cfg with refResetRecovery := true } })
    step s = .next (after (step s)) ∧ s.resetsW .bank = true ∧ s.resetsR .dma = true ∧ s.resetsW .ref = true ∧
    s.inputs.rst = true ∧ s.cfg.bankCells[3]? = some (CellKind.readWrite 0) :=
  ⟨next_after (by decide), by decide⟩

theorem witness_ResetEdgeOfTheEngine :
    let s := pins rstPins (tracking ⟨1, true, 2⟩ ⟨true, true⟩ (offering 20))
    step s = .next (after (step s)) ∧ s.inputs.rst = true := ⟨next_after (by decide), by decide⟩

theorem witness_ResetBeatsEveryHandshake :
    let s := writing .bank 0x40000000 (offering 20)
    let i : Inputs := { rstPins with bank := (beatPins .bank true 1).bank, mAwready := true, mWready := true }
    step { s with feed := rstPins :: s.feed.tail } = .next (after (step { s with feed := rstPins :: s.feed.tail })) ∧
    step { s with feed := i :: s.feed.tail } = .next (after (step { s with feed := i :: s.feed.tail })) :=
  ⟨next_after (by decide), next_after (by decide)⟩

theorem witness_ReferenceSlaveIgnoresReset :
    let i := (beatPins .ref true 1)
    let s := State.reset
    let u := writing .ref 0x4000000C (reading .ref 0x4000000C 1 up)
    s.cfg.refResetRecovery = false ∧ s.refW.wstate = .reset ∧ s.refR.rstate = .reset ∧
    u.cfg.refResetRecovery = false ∧ u.refW.wstate ≠ .reset ∧ u.refR.rstate ≠ .reset ∧
    (∃ t, step { s with feed := { i with rst := true } :: s.feed.tail } = .next t) ∧
    (∃ t, step { s with feed := { i with rst := false } :: s.feed.tail } = .next t) ∧
    (∃ t, step { u with feed := { i with rst := true } :: u.feed.tail } = .next t) ∧
    (∃ t, step { u with feed := { i with rst := false } :: u.feed.tail } = .next t) :=
  ⟨by decide, by decide, by decide, by decide, by decide, by decide, next_of_isNext (by decide),
    next_of_isNext (by decide), next_of_isNext (by decide), next_of_isNext (by decide)⟩

/-- A busy state of the whole hardware: a command at a slave, a beat at another, a run with a word and an address going
out and a response coming in. -/
def busyState : State :=
  pins { both.inputs with ref := (beatPins .ref false 5).ref, mAwready := true, mWready := true, mB := some ⟨0, 2⟩ }
    (writing .ref 0x4000000C (tracking ⟨1, false, 0⟩ ⟨true, false⟩ (offering 20)))

/-- For the three obligations StepKeepsTheMachinesConsistent, StepKeepsTheEngineConsistent, StepKeepsStorageCanonical. -/
theorem witness_StepKeepsTheInvariants :
    busyState.machinesOk ∧ busyState.eng.ok busyState.cfg ∧ busyState.storageOk ∧ (∃ t, step busyState = .next t) ∧
    busyState.wires.length = 6 :=
  ⟨⟨⟨by decide, by decide, by decide⟩, by decide, by decide, by decide⟩, by decide, by decide, next_of_isNext (by decide), by decide⟩

theorem witness_OnlyItsWriterChangesStorage :
    busyState.inputs.rst = false ∧ step busyState = .next (after (step busyState)) ∧
    Memory.read (after (step busyState)).refMem 0x4000000C ≠ Memory.read busyState.refMem 0x4000000C ∧
    Memory.read (after (step busyState)).mem 0x10000000 ≠ Memory.read busyState.mem 0x10000000 ∧
    (let s := pins (beatPins .bank true 1) (writing .bank 0x4000000C up)
     step s = .next (after (step s)) ∧ (after (step s)).bankCells[3]? ≠ s.bankCells[3]?) :=
  ⟨by decide, next_after (by decide), by decide, by decide, next_after (by decide), by decide⟩

theorem witness_ReadAndWriteMachinesAreIndependent :
    let s := reading .bank 0x4000000C 1 (writing .bank 0x4000000C up)
    let i := Inputs.idle
    let asked (r : Bool) := i.onPort .bank fun q => { q with ar := none, rready := r }
    let given (w : Option WBeat) (b : Bool) := i.onPort .bank fun q => { q with aw := none, w := w, bready := b }
    (∃ t, step { s with feed := asked true :: s.feed.tail } = .next t) ∧
    (∃ t, step { s with feed := asked false :: s.feed.tail } = .next t) ∧
    (∃ t, step { s with feed := given (some ⟨true, 0xF, 1⟩) false :: s.feed.tail } = .next t) ∧
    (∃ t, step { s with feed := given none true :: s.feed.tail } = .next t) :=
  ⟨next_of_isNext (by decide), next_of_isNext (by decide), next_of_isNext (by decide), next_of_isNext (by decide)⟩

theorem witness_ResponseOnlyAfterTheLastBeat :
    let s := pins (beatPins .ref true 1) (writing .ref 0x40000000 up)
    step s = .next (after (step s)) ∧ (s.wm .ref).bvalid = false ∧ ((after (step s)).wm .ref).bvalid = true :=
  ⟨next_after (by decide), by decide, by decide⟩

theorem witness_DecodeErrorIsStickyWithinABurst :
    let s := pins { Inputs.idle with bank := { SlaveIn.idle with bready := true } } (answering .bank 3 up)
    step s = .next (after (step s)) ∧ (s.wm .bank).bresp = 0b11 ∧
    ((after (step s)).wm .bank).gaveB = some ⟨5, 0b11⟩ := ⟨next_after (by decide), by decide, by decide⟩

theorem witness_AddressCommandFrame :
    up.quiet ∧ (∃ t, exec (.awWrap .ref 3 2 1 0x40000004) up = .next t) ∧
    (∃ t, exec (.arFixed .dma 3 2 15 0x40001000) up = .next t) :=
  ⟨by decide, next_of_isNext (by decide), next_of_isNext (by decide)⟩

theorem witness_WriteBeatFrame :
    (let s := writing .bank 0x4000000C up; s.quiet ∧ ∃ t, exec (.wBeat .bank 0xF 1) s = .next t) ∧
    (let s := writing .ref 0x4000000C up; s.quiet ∧ ∃ t, exec (.wLast .ref 0xF 1) s = .next t) :=
  ⟨⟨by decide, next_of_isNext (by decide)⟩, ⟨by decide, next_of_isNext (by decide)⟩⟩

theorem witness_ResponseAndReadFrame :
    (let s := answering .bank 3 up; s.quiet ∧ ∃ t, exec (.bDecerr .bank 5) s = .next t) ∧
    (let s := reading .bank 0x40000010 0 up; s.quiet ∧ ∃ t, exec (.rDecerr .bank 9 true) s = .next t) ∧
    (let s := reading .dma (reg 2) 0 up; s.quiet ∧ ∃ t, exec .rdStatus s = .next t) :=
  ⟨⟨by decide, next_of_isNext (by decide)⟩, ⟨by decide, next_of_isNext (by decide)⟩,
    ⟨by decide, next_of_isNext (by decide)⟩⟩

theorem witness_RegisterWriteFrame :
    let s := writing .dma (reg 3) (programmed 0x100000F0 2 up)
    s.quiet ∧ ∃ t, exec (.wrCtrl true 0xF 1) s = .next t := ⟨by decide, next_of_isNext (by decide)⟩

theorem witness_MemoryAddressAndResponseFrame :
    ((offering 20).quiet ∧ ∃ t, exec (.dmaAw 0 15 0x10000000) (offering 20) = .next t) ∧
    (let s := tracking ⟨1, false, 0⟩ ⟨true, false⟩ up; s.quiet ∧ ∃ t, exec (.mbDecerr 3) s = .next t) :=
  ⟨⟨by decide, next_of_isNext (by decide)⟩, ⟨by decide, next_of_isNext (by decide)⟩⟩

theorem witness_MemoryDataFrame :
    (offering 20).quiet ∧ ∃ t, exec (.dmaW 0xD0) (offering 20) = .next t := ⟨by decide, next_of_isNext (by decide)⟩

end Sys2Proof.Tests
end

section
/-! PROOF. Decode of an address and byte lanes (spec 41_decode_bytelane.md): the window's interval and index, the
lanes of a merged word, the write of a bank cell. -/

namespace Sys2Proof.Machine

/-! ## Decode -/

/-- The decode test is an interval test. No bound on the window is needed: a word address never wraps below `BASE`. -/
theorem inRange_iff (base a : Word) (n : Nat) :
    inRange base n a = true ↔ base.toNat ≤ a.toNat ∧ a.toNat < base.toNat + 4 * n := by
  simp only [inRange, Bool.and_eq_true, decide_eq_true_eq, BitVec.le_def]
  refine and_congr_right fun h => ?_
  rw [BitVec.toNat_sub_of_le (BitVec.le_def.2 h)]
  omega

/-- At or above `BASE` the index counts words from `BASE`. -/
theorem idx_eq_of_le {base a : Word} (h : base.toNat ≤ a.toNat) : idx base a = (a.toNat - base.toNat) / 4 := by
  rw [idx, BitVec.toNat_sub_of_le (BitVec.le_def.2 h)]

/-! ## Byte lanes -/

/-- Bit `j` of the mask belongs to lane `j / 8`. -/
theorem getElem_laneMask : ∀ (be : BitVec 4), ∀ j, ∀ h : j < 32, (laneMask be)[j] = be.getLsbD (j / 8) := by decide

/-- Bit `j` of a merged word is the data's where its lane is enabled, else the old one. -/
theorem getElem_mergeLanes (be : BitVec 4) (d old : Word) {j : Nat} (h : j < 32) :
    (mergeLanes be d old)[j] = if be.getLsbD (j / 8) then d[j] else old[j] := by
  cases hb : be.getLsbD (j / 8) <;> simp [mergeLanes, getElem_laneMask, hb]

/-- Lane `k` of a merged word is the data's where enabled, else the old one (R157). -/
theorem laneByte_mergeLanes (be : BitVec 4) (d old : Word) {k : Nat} (h : k < 4) :
    laneByte (mergeLanes be d old) k = if be.getLsbD k then laneByte d k else laneByte old k := by
  ext i hi
  have hj : 8 * k + i < 32 := by omega
  have hk : (8 * k + i) / 8 = k := by omega
  cases hb : be.getLsbD k <;> simp [laneByte, getElem_mergeLanes, hj, hk, hb]

/-! ## The cells of the bank -/

/-- A write of a read/write cell merges the enabled lanes into it. -/
theorem writeCell_of_readWrite {c : Config} {i : Nat} {r : Word} (h : c.bankCells[i]? = some (.readWrite r))
    (cells : List Word) (be : BitVec 4) (d : Word) :
    writeCell c cells i be d = cells.set i (mergeLanes be d (cells.getD i 0)) := by
  simp [writeCell, h]

/-- A write of a cell that is not read/write is ignored. -/
theorem writeCell_of_not_readWrite {c : Config} {i : Nat} (h : ∀ r, c.bankCells[i]? ≠ some (.readWrite r))
    (cells : List Word) (be : BitVec 4) (d : Word) : writeCell c cells i be d = cells := by
  unfold writeCell
  split
  · next r hr => exact absurd hr (h r)
  · rfl

/-- A write leaves every other cell. -/
theorem getElem?_writeCell_ne {i j : Nat} (h : j ≠ i) (c : Config) (cells : List Word) (be : BitVec 4) (d : Word) :
    (writeCell c cells i be d)[j]? = cells[j]? := by
  unfold writeCell
  split
  · exact List.getElem?_set_ne h.symm
  · rfl

/-- A write of a read/write cell sets each byte lane of it to the data's where enabled, else to the old one. -/
theorem laneByte_writeCell {c : Config} {cells : List Word} {i : Nat} {r old : Word}
    (hc : c.bankCells[i]? = some (.readWrite r)) (ho : cells[i]? = some old) (be : BitVec 4) (d : Word) :
    ∃ new, (writeCell c cells i be d)[i]? = some new ∧
      ∀ k < 4, laneByte new k = if be.getLsbD k then laneByte d k else laneByte old k := by
  obtain ⟨hi, -⟩ := List.getElem?_eq_some_iff.1 ho
  refine ⟨mergeLanes be d old, ?_, fun k hk => laneByte_mergeLanes be d old hk⟩
  rw [writeCell_of_readWrite hc, List.getElem?_set_self hi, List.getD_eq_getElem?_getD, ho, Option.getD_some]

end Sys2Proof.Machine

open Sys2Proof Sys2Proof.Machine

/-- Settles O9: the subtraction of the decode test does not wrap at or above `BASE`. -/
theorem decodeSelectsTheCell : Obligations.DecodeSelectsTheCell := by
  intro base a n _
  refine ⟨inRange_iff base a n, fun h => ?_⟩
  obtain ⟨hlo, hhi⟩ := (inRange_iff base a n).1 h
  have hidx := idx_eq_of_le hlo
  exact ⟨by omega, hidx⟩

end

section
/-! PROOF. A write beat put on the pins of a slave: what of the coming edge it changes, and what the edge does with it. -/

namespace Sys2Proof.Machine

/-! ## The driven cycle -/

/-- The state in which the master offers beat `b` to slave `p` in the coming cycle, all else as it is. -/
def State.withBeat (p : Port) (b : WBeat) (s : State) : State := s.drivePort p fun q => { q with w := some b }

/-- Offering a beat is the edge of the cycle with the beat on the pins. -/
theorem offerW_eq_clock (p : Port) (b : WBeat) (s : State) : offerW p b s = (s.withBeat p b).clock := rfl

/-- W.BEAT and W.LAST offer a beat with their strobes and data. -/
theorem exec_wBeat_or_wLast {i : Instr} {p : Port} {strb : BitVec 4} {data : Word}
    (h : i = .wBeat p strb data ∨ i = .wLast p strb data) (s : State) :
    ∃ last, exec i s = offerW p ⟨last, strb, data⟩ s := by
  rcases h with rfl | rfl
  · exact ⟨false, exec_eq _ s⟩
  · exact ⟨true, exec_eq _ s⟩

section
variable (p q : Port) (b : WBeat) (s : State)

@[simp] theorem State.withBeat_cfg : (s.withBeat p b).cfg = s.cfg := rfl
@[simp] theorem State.withBeat_eng : (s.withBeat p b).eng = s.eng := rfl
@[simp] theorem State.withBeat_bankW : (s.withBeat p b).bankW = s.bankW := rfl
@[simp] theorem State.withBeat_dmaW : (s.withBeat p b).dmaW = s.dmaW := rfl
@[simp] theorem State.withBeat_refW : (s.withBeat p b).refW = s.refW := rfl
@[simp] theorem State.withBeat_bankCells : (s.withBeat p b).bankCells = s.bankCells := rfl
@[simp] theorem State.withBeat_refMem : (s.withBeat p b).refMem = s.refMem := rfl
@[simp] theorem State.withBeat_wm : (s.withBeat p b).wm q = s.wm q := State.drivePort_wm p q _ s
@[simp] theorem State.withBeat_rm : (s.withBeat p b).rm q = s.rm q := State.drivePort_rm p q _ s
@[simp] theorem State.withBeat_decodes (a : Word) : (s.withBeat p b).decodes q a = s.decodes q a := rfl
@[simp] theorem State.withBeat_cellOf (a : Word) : (s.withBeat p b).cellOf q a = s.cellOf q a := rfl

@[simp] theorem State.withBeat_rst : (s.withBeat p b).inputs.rst = s.inputs.rst := by simp [State.withBeat]

/-- The beat is on the W pins of its slave, and no other pin changes. -/
@[simp] theorem State.withBeat_port : (s.withBeat p b).inputs.port q =
    { s.inputs.port q with w := if q = p then some b else (s.inputs.port q).w } := by
  rw [State.withBeat, State.drivePort_inputs]
  by_cases h : q = p
  · subst h
    rw [Inputs.onPort_port, if_pos rfl]
    exact congrArg (fun i : SlaveIn => { i with w := some b }) (s.inputs_port_fit q)
  · rw [Inputs.onPort_port_ne h, if_neg h]

@[simp] theorem State.withBeat_resetsW : (s.withBeat p b).resetsW q = s.resetsW q := by
  cases q <;> simp [State.resetsW, State.resetReaches]

@[simp] theorem State.withBeat_resetsR : (s.withBeat p b).resetsR q = s.resetsR q := by
  cases q <;> simp [State.resetsR, State.resetReaches]

/-! ## The beat breaks no duty, save a start pulse at the DMA block -/

/-- A beat is no command: what is captured, and so what is judged, stays. -/
@[simp] theorem State.withBeat_portBreach : (s.withBeat p b).portBreach q = s.portBreach q := by
  simp [State.portBreach, State.capturesW, State.capturesR, WriteMachine.captures, ReadMachine.captures]

end

/-- A beat to one slave does not change what another accepts. -/
theorem State.withBeat_acceptsW_ne {p q : Port} (h : q ≠ p) (b : WBeat) (s : State) :
    (s.withBeat p b).acceptsW q = s.acceptsW q := by
  simp [State.acceptsW, h]

/-- A beat to another slave than the DMA block writes none of its registers. -/
theorem State.withBeat_regWrite {p : Port} (h : p ≠ .dma) (b : WBeat) (s : State) :
    (s.withBeat p b).regWrite = s.regWrite := by
  rw [State.regWrite, State.withBeat_acceptsW_ne h.symm]
  rfl

/-- An edge that runs still does with a beat for the bank or the reference slave. -/
theorem State.runs_withBeat {s : State} (hr : s.runs) {p : Port} (h : p ≠ .dma) (b : WBeat) :
    (s.withBeat p b).runs := by
  obtain ⟨hwf, hrst, hbr⟩ := hr
  refine ⟨hwf, by simpa using hrst, ?_⟩
  simpa [State.breach, State.engineBreach, State.withBeat_regWrite h] using hbr

/-- A beat for the bank or the reference slave completes its edge. -/
theorem offerW_eq_next {s : State} (hr : s.runs) {p : Port} (h : p ≠ .dma) (b : WBeat) :
    offerW p b s = .next (s.withBeat p b).edge := by
  obtain ⟨hwf, -, hbr⟩ := State.runs_withBeat hr h b
  rw [offerW_eq_clock]
  exact State.clock_eq_next_iff.2 ⟨hwf, hbr, rfl⟩

/-! ## The beat is accepted -/

/-- A write machine in `WAIT_DATA` with `wready` accepts the beat on its pins (R175). -/
theorem State.withBeat_accepts {s : State} {p : Port} (hw : (s.wm p).wstate = .waitData)
    (hy : (s.wm p).wready = true) (b : WBeat) : (s.wm p).accepts ((s.withBeat p b).inputs.port p) = some b := by
  simp [WriteMachine.accepts, hw, hy]

/-- Without reset the slave accepts the beat. -/
theorem State.withBeat_acceptsW_self {s : State} {p : Port} (hrst : s.inputs.rst = false)
    (hw : (s.wm p).wstate = .waitData) (hy : (s.wm p).wready = true) (b : WBeat) :
    (s.withBeat p b).acceptsW p = some b := by
  simp only [State.acceptsW, State.withBeat_resetsW, State.resetsW_of_low hrst, State.withBeat_wm,
    State.withBeat_accepts hw hy]
  rfl

/-- Without reset the write machine takes the beat (R176 to R178). -/
theorem State.withBeat_nextW {s : State} {p : Port} (hrst : s.inputs.rst = false)
    (hw : (s.wm p).wstate = .waitData) (hy : (s.wm p).wready = true) (b : WBeat) :
    (s.withBeat p b).nextW p = (s.wm p).takeBeat (Config.base p s.cfg) (Config.cells p s.cfg) b := by
  rw [State.nextW_of_low (by simpa using hrst), State.withBeat_wm]
  simp only [WriteMachine.next, hw, State.withBeat_accepts hw hy, State.withBeat_cfg]

/-- Without reset the bank writes the cell the cursor selects, out of range none (R155, R157, R159). -/
theorem State.withBeat_nextCells {s : State} (hrst : s.inputs.rst = false) (hw : s.bankW.wstate = .waitData)
    (hy : s.bankW.wready = true) (b : WBeat) :
    (s.withBeat .bank b).nextCells =
      if s.decodes .bank s.bankW.wCur then
        writeCell s.cfg s.bankCells (s.cellOf .bank s.bankW.wCur) b.strb b.data
      else s.bankCells := by
  rw [State.nextCells, State.withBeat_rst, hrst, State.withBeat_acceptsW_self (p := .bank) hrst hw hy]
  rfl

end Sys2Proof.Machine

open Sys2Proof Sys2Proof.Machine

/-- Settles O13: the beat is accepted at the driven edge, the write machine latches the decode outcome, and the cell
under the cursor takes the enabled lanes. -/
theorem bankBeatWritesEnabledLanes : Obligations.BankBeatWritesEnabledLanes := by
  rintro s strb data i ⟨hwf, hrst, hbr⟩ hw hy hi
  obtain ⟨last, hexec⟩ := exec_wBeat_or_wLast hi s
  have hcells := State.withBeat_nextCells hrst hw hy ⟨last, strb, data⟩
  have hwm := State.withBeat_nextW (p := .bank) hrst hw hy ⟨last, strb, data⟩
  refine ⟨_, hexec.trans (offerW_eq_next ⟨hwf, hrst, hbr⟩ (by decide) _), ?_, fun hout => ?_, fun hin => ⟨fun r old hc ho => ?_,
    fun hro => ?_, fun j hj => ?_⟩⟩
  · rw [State.edge_bankW, hwm]
    rfl
  · rw [State.edge_bankCells, hcells, hout]
    rfl
  all_goals rw [State.edge_bankCells, hcells, if_pos hin]
  · exact laneByte_writeCell hc ho strb data
  · exact writeCell_of_not_readWrite hro s.bankCells strb data
  · exact getElem?_writeCell_ne hj s.cfg s.bankCells strb data

end

section
/-! PROOF. A beat that may be a start pulse of the DMA block: a start that breaks no duty lets the edge run, and the write
machine takes the beat. -/

namespace Sys2Proof.Machine

/-! ## The start a beat of the DMA block may be -/

/-- A register write breaks no duty of software when a start it is would be allowed (U7, U9). -/
theorem State.startAllowed_breach {s : State} {wr : Option RegWrite} (h : startPulse wr = true → s.startAllowed) :
    s.eng.breach wr = none := by
  cases hst : s.eng.starts wr with
  | false => simp [Engine.breach, hst]
  | true =>
    obtain ⟨hpulse, hwait⟩ : startPulse wr = true ∧ s.eng.dstate = .waitStart := by
      simpa [Engine.starts] using hst
    rcases h hpulse with hrun | ⟨howed, htop⟩
    · rw [hwait] at hrun
      cases hrun
    · have hpast : s.eng.regs.pastTop = false := by simpa [DmaRegs.pastTop, DmaRegs.words] using htop
      simp [Engine.breach, howed, hpast]

/-- The register write of an accepted beat: the word under the cursor, none out of range (R230, R246). -/
theorem State.withBeat_regWrite_dma {s : State} (hrst : s.inputs.rst = false) (hw : s.dmaW.wstate = .waitData)
    (hy : s.dmaW.wready = true) (b : WBeat) :
    (s.withBeat .dma b).regWrite =
      if s.decodes .dma s.dmaW.wCur then some ⟨s.cellOf .dma s.dmaW.wCur, b.strb, b.data⟩ else none := by
  rw [State.regWrite, State.withBeat_acceptsW_self (p := .dma) hrst hw hy]
  rfl

/-- A beat that is a start pulse is one at word 3 with the start bit in an enabled lane (R239). -/
theorem State.withBeat_startPulse {s : State} (hrst : s.inputs.rst = false) (hw : s.dmaW.wstate = .waitData)
    (hy : s.dmaW.wready = true) {b : WBeat} (h : startPulse (s.withBeat .dma b).regWrite = true) :
    s.atWriteOf 3 = true ∧ b.strb.getLsbD 0 = true ∧ b.data.getLsbD 0 = true := by
  rw [State.withBeat_regWrite_dma hrst hw hy] at h
  split at h
  · next hin =>
    obtain ⟨⟨hword, hbe⟩, hd⟩ : (s.cellOf .dma s.dmaW.wCur = 3 ∧ b.strb.getLsbD 0 = true) ∧ b.data.getLsbD 0 = true := by
      simpa only [startPulse, Bool.and_eq_true, decide_eq_true_eq] using h
    exact ⟨by simp [State.atWriteOf, hw, hy, hin, hword], hbe, hd⟩
  · cases h

/-! ## The edge with an accepted beat -/

section
variable {s : State} {p : Port} {b : WBeat} (hr : s.runs) (hw : (s.wm p).wstate = .waitData)
  (hy : (s.wm p).wready = true)
  (hs : p = .dma → s.atWriteOf 3 = true → b.strb.getLsbD 0 = true → b.data.getLsbD 0 = true → s.startAllowed)
include hr hw hy hs

/-- An edge that runs still does with an accepted beat, if a start the beat is would be allowed. -/
theorem State.runs_withAcceptedBeat : (s.withBeat p b).runs := by
  by_cases hp : p = .dma
  · subst hp
    obtain ⟨hwf, hrst, hbr⟩ := hr
    obtain ⟨hports, -⟩ := State.breach_eq_none_iff.1 hbr
    refine ⟨hwf, by simpa using hrst, State.breach_eq_none_iff.2 ⟨fun q => by simpa using hports q, ?_⟩⟩
    have heng : s.eng.breach (s.withBeat .dma b).regWrite = none := State.startAllowed_breach fun hpulse => by
      obtain ⟨hat, hbe, hd⟩ := State.withBeat_startPulse hrst hw hy hpulse
      exact hs rfl hat hbe hd
    simp [State.engineBreach, hrst, heng]
  · exact State.runs_withBeat hr hp b

/-- Offering a beat to a slave that accepts it completes, and the write machine takes the beat (R175 to R178). -/
theorem offerW_takes : ∃ t, offerW p b s = .next t ∧
    t.wm p = (s.wm p).takeBeat (Config.base p s.cfg) (Config.cells p s.cfg) b := by
  obtain ⟨hwf, -, hbr⟩ := State.runs_withAcceptedBeat hr hw hy hs
  obtain ⟨-, hrst, -⟩ := hr
  exact ⟨(s.withBeat p b).edge, State.clock_eq_next_iff.2 ⟨hwf, hbr, rfl⟩,
    by rw [State.edge_wm, State.withBeat_nextW hrst hw hy]⟩

end

/-- In `WAIT_DATA` a beat that is not the last changes the cursor, the response and `awready` only. -/
theorem WriteMachine.takeBeat_of_not_last {m : WriteMachine} (hw : m.wstate = .waitData) (base : Word) (n : Nat)
    (strb : BitVec 4) (data : Word) :
    m.takeBeat base n ⟨false, strb, data⟩ = { m with
      awready := false, gaveB := none, wCur := advance m.wCur m.wMask m.wSize,
      bresp := raiseDecerr (inRange base n m.wCur) m.bresp } := by
  cases m
  cases hw
  rfl

end Sys2Proof.Machine

open Sys2Proof Sys2Proof.Machine

/-- Settles O11: both operations offer a beat the machine takes, and taking it is the cursor's formula and the latch of the
decode error. -/
theorem writeBeatAdvancesTheBurst : Obligations.WriteBeatAdvancesTheBurst := by
  intro s p strb data i hr hw hy hs hi
  rcases hi with rfl | rfl
  · obtain ⟨t, hexec, hwm⟩ := offerW_takes (b := ⟨false, strb, data⟩) hr hw hy hs
    refine ⟨t, (exec_eq _ s).trans hexec, by rw [hwm]; rfl, by rw [hwm]; rfl, fun _ => ?_⟩
    rw [hwm, WriteMachine.takeBeat_of_not_last hw]
  · obtain ⟨t, hexec, hwm⟩ := offerW_takes (b := ⟨true, strb, data⟩) hr hw hy hs
    exact ⟨t, (exec_eq _ s).trans hexec, by rw [hwm]; rfl, by rw [hwm]; rfl, fun h => nomatch h⟩

end

section
/-! PROOF. The operation a wire shows: decoding the packed payload of each channel gives its row (spec 30_encoding.md
section 3), and running the row drives the payload's pins. -/

namespace Sys2Proof

/-! ## The fields of a packed payload -/

section
open BitVec

@[simp] theorem AxCmd.unpack_pack (c : AxCmd) : AxCmd.unpack c.id c.pack = c := by
  have haddr : c.pack.extractLsb' 0 32 = c.addr := extractLsb'_append_eq_right
  have hlen : c.pack.extractLsb' 32 4 = c.len :=
    (extractLsb'_append_eq_of_le (by decide)).trans extractLsb'_append_eq_right
  have hsize : c.pack.extractLsb' 36 2 = c.size :=
    (extractLsb'_append_eq_of_le (by decide)).trans
      ((extractLsb'_append_eq_of_le (by decide)).trans extractLsb'_append_eq_right)
  have hburst : c.pack.extractLsb' 38 2 = c.burst :=
    (extractLsb'_append_eq_of_le (by decide)).trans
      ((extractLsb'_append_eq_of_le (by decide)).trans extractLsb'_append_eq_left)
  simp only [AxCmd.unpack, haddr, hlen, hsize, hburst]

/-- The top bit of `{last, mid, data}` is `last`. -/
theorem getLsbD_ofBool_append_append {m n : Nat} (last : Bool) (mid : BitVec m) (data : BitVec n) :
    (BitVec.ofBool last ++ mid ++ data).getLsbD (n + m) = last := by
  simp [getLsbD_append, getElem_append]

/-- The middle field of `{last, mid, data}`. -/
theorem extractLsb'_ofBool_append_append {m n : Nat} (last : Bool) (mid : BitVec m) (data : BitVec n) :
    (BitVec.ofBool last ++ mid ++ data).extractLsb' n m = mid := by
  rw [extractLsb'_append_eq_of_le le_rfl, Nat.sub_self, extractLsb'_append_eq_right]

@[simp] theorem WBeat.unpack_pack (b : WBeat) : WBeat.unpack b.pack = b := by
  have hlast : b.pack.getLsbD 36 = b.last := getLsbD_ofBool_append_append b.last b.strb b.data
  have hstrb : b.pack.extractLsb' 32 4 = b.strb := extractLsb'_ofBool_append_append b.last b.strb b.data
  have hdata : b.pack.extractLsb' 0 32 = b.data := extractLsb'_append_eq_right
  simp only [WBeat.unpack, hlast, hstrb, hdata]

@[simp] theorem RBeat.unpack_pack (b : RBeat) : RBeat.unpack b.id b.pack = b := by
  have hlast : b.pack.getLsbD 34 = b.last := getLsbD_ofBool_append_append b.last b.resp b.data
  have hresp : b.pack.extractLsb' 32 2 = b.resp := extractLsb'_ofBool_append_append b.last b.resp b.data
  have hdata : b.pack.extractLsb' 0 32 = b.data := extractLsb'_append_eq_right
  simp only [RBeat.unpack, hlast, hresp, hdata]

/-- The engine's packed beat is read back with its strobes all ones. -/
theorem decodeMW_pack (b : MBeat) :
    decodeMW b.pack = .ok (if b.last then .dmaWlast b.data else .dmaW b.data) := by
  have hlast : b.pack.getLsbD 72 = b.last := getLsbD_ofBool_append_append b.last 0xFF#8 b.data
  have hstrb : b.pack.extractLsb' 64 8 = 0xFF#8 := extractLsb'_ofBool_append_append b.last 0xFF#8 b.data
  have hdata : b.pack.extractLsb' 0 64 = b.data := extractLsb'_append_eq_right
  simp only [decodeMW, hlast, hstrb, hdata, if_true]

end

/-! ## Decoding the wires of each channel -/

section
variable (p : Port)

theorem decode_toAw (c : AxCmd) : decode (c.toAw p) = .ok (decodeAw p c) := by
  simp [decode, AxCmd.toAw, Channel.width, Laws.setWidth_fits]

theorem decode_toAr (c : AxCmd) : decode (c.toAr p) = .ok (decodeAr p c) := by
  simp [decode, AxCmd.toAr, Channel.width, Laws.setWidth_fits]

theorem decode_toW (b : WBeat) : decode (b.toW p) = .ok (decodeW p b) := by
  simp [decode, WBeat.toW, Channel.width, Laws.setWidth_fits]

theorem decode_toB (b : BResp) : decode (b.toB p) = decodeB p b := by
  simp [decode, BResp.toB, Channel.width, Laws.setWidth_fits]

theorem decode_toR (b : RBeat) : decode (b.toR p) = decodeR p b := by
  simp [decode, RBeat.toR, Channel.width, Laws.setWidth_fits]

end

theorem decode_toMAw (c : AxCmd) : decode c.toMAw = decodeMAw c := by
  simp [decode, AxCmd.toMAw, Channel.width, Laws.setWidth_fits]

theorem decode_toMW (b : MBeat) : decode b.toMW = .ok (if b.last then .dmaWlast b.data else .dmaW b.data) := by
  simp [decode, MBeat.toMW, Channel.width, Laws.setWidth_fits, decodeMW_pack]

theorem decode_toMB (b : BResp) : decode b.toMB = .ok (decodeMB b) := by
  simp [decode, BResp.toMB, Channel.width, Laws.setWidth_fits]

theorem decode_regRead (woff : BitVec 3) :
    decode (regRead woff) = .ok (decodeReg (regWord false woff) (WBeat.unpack 0)) := by
  simp [decode, regRead, Channel.width, Laws.setWidth_fits]

theorem decode_regWrite (woff : BitVec 3) (b : WBeat) :
    decode (regWrite woff b) = .ok (decodeReg (regWord true woff) b) := by
  simp [decode, regWrite, Channel.width, Laws.setWidth_fits]

end Sys2Proof

namespace Sys2Proof.Machine

/-! ## Running what a wire decodes to -/

/-- Every burst type code is one of the four (R94). -/
theorem burst_cases : ∀ b : BitVec 2, b = burstFixed ∨ b = burstIncr ∨ b = burstWrap ∨ b = burstRsvd := by decide

/-- Every response code is one of the four (R97). -/
theorem resp_cases : ∀ r : BitVec 2, r = respOkay ∨ r = respExokay ∨ r = respSlverr ∨ r = respDecerr := by decide

/-- The two operations of reserved burst type, which have no meaning wherever they are named (R104). -/
def isReserved : Instr → Bool
  | .awRsvd .. | .arRsvd .. => true
  | _ => false

section
variable (p : Port) (s : State)

/-- An AW command decodes to a reserved operation exactly for the reserved burst type. -/
theorem isReserved_decodeAw (c : AxCmd) : isReserved (decodeAw p c) = decide (c.burst = burstRsvd) := by
  rcases burst_cases c.burst with h | h | h | h <;> rw [decodeAw, h] <;> rfl

/-- An AR command decodes to a reserved operation exactly for the reserved burst type. -/
theorem isReserved_decodeAr (c : AxCmd) : isReserved (decodeAr p c) = decide (c.burst = burstRsvd) := by
  rcases burst_cases c.burst with h | h | h | h <;> rw [decodeAr, h] <;> rfl

theorem exec_decodeAw {c : AxCmd} (h : c.burst ≠ burstRsvd) : exec (decodeAw p c) s = offerAw p c s := by
  obtain ⟨id, addr, len, size, burst⟩ := c
  rcases burst_cases burst with rfl | rfl | rfl | rfl
  case inr.inr.inr => exact absurd rfl h
  all_goals rfl

theorem exec_decodeAr {c : AxCmd} (h : c.burst ≠ burstRsvd) : exec (decodeAr p c) s = offerAr p c s := by
  obtain ⟨id, addr, len, size, burst⟩ := c
  rcases burst_cases burst with rfl | rfl | rfl | rfl
  case inr.inr.inr => exact absurd rfl h
  all_goals rfl

theorem exec_decodeW (b : WBeat) : exec (decodeW p b) s = offerW p b s := by
  obtain ⟨last, strb, data⟩ := b
  cases last <;> rfl

variable {i : Instr}

theorem exec_of_decodeB {b : BResp} (h : decodeB p b = .ok i) : exec i s = takeB p b s := by
  obtain ⟨id, resp⟩ := b
  unfold decodeB at h
  split at h
  · next hr => cases h; cases hr; rfl
  · split at h
    · next hr => cases h; cases hr; rfl
    · cases h

theorem exec_of_decodeR {b : RBeat} (h : decodeR p b = .ok i) : exec i s = takeR p b s := by
  obtain ⟨id, last, resp, data⟩ := b
  unfold decodeR at h
  split at h
  · next hr => cases h; cases hr; rfl
  · split at h
    · next hr =>
      cases h
      obtain ⟨rfl, rfl⟩ := hr
      rfl
    · cases h

theorem exec_of_decodeMAw {c : AxCmd} (h : decodeMAw c = .ok i) : exec i s = takeMAw c s := by
  obtain ⟨id, addr, len, size, burst⟩ := c
  unfold decodeMAw at h
  split at h
  · next hr =>
    cases h
    obtain ⟨rfl, rfl, -⟩ := hr
    rfl
  · cases h

theorem exec_dmaWBeat (b : MBeat) : exec (if b.last then .dmaWlast b.data else .dmaW b.data) s = takeMW b s := by
  obtain ⟨last, data⟩ := b
  cases last <;> rfl

theorem exec_decodeMB (b : BResp) : exec (decodeMB b) s = offerMB b s := by
  obtain ⟨id, resp⟩ := b
  rcases resp_cases resp with rfl | rfl | rfl | rfl <;> rfl

/-- A write access of word `k` offers its beat when the write machine is at that word (R230). -/
theorem exec_decodeReg_write (b : WBeat) {k : Nat} (hk : k < 6) :
    exec (decodeReg (regWord true (BitVec.ofNat 3 k)) b) s = writeAccess (s.atWriteOf k) b s := by
  interval_cases k <;> rfl

/-- A write access outside the six words offers its beat when the write machine is outside them (R246). -/
theorem exec_decodeReg_writeOutside (b : WBeat) (o : BitVec 1) :
    exec (decodeReg (regWord true (0b11#2 ++ o)) b) s = writeAccess s.atWriteOutside b s := by
  obtain rfl | rfl := BitVec.eq_zero_or_eq_one o <;> rfl

/-- A read access of word `k` takes the beat when the read machine is at that word (R230). -/
theorem exec_decodeReg_read (b : WBeat) {k : Nat} (hk : k < 6) :
    exec (decodeReg (regWord false (BitVec.ofNat 3 k)) b) s = readAccess (s.atReadOf k) s := by
  interval_cases k <;> rfl

/-- A read access outside the six words takes the beat when the read machine is outside them (R245). -/
theorem exec_decodeReg_readOutside (b : WBeat) (o : BitVec 1) :
    exec (decodeReg (regWord false (0b11#2 ++ o)) b) s = readAccess s.atReadOutside s := by
  obtain rfl | rfl := BitVec.eq_zero_or_eq_one o <;> rfl

end

end Sys2Proof.Machine
end

section
/-! PROOF. One step of the machine: each operation on the wires, driven on the pins that already show it, is the bare clock
edge (spec R8, log 25); so a step whose edge breaks no duty is that edge. -/

namespace Sys2Proof.Machine

/-! ## What the wires carry -/

/-- The transfers the coming edge carries out, by channel. -/
inductive State.Carries (s : State) : Transfer → Prop
  | aw {p : Port} {c : AxCmd} (h : s.capturesW p = some c) : s.Carries (c.toAw p)
  | w {p : Port} {b : WBeat} (h : s.acceptsW p = some b) : s.Carries (b.toW p)
  | regW {b : WBeat} (h : s.acceptsW .dma = some b) : s.Carries (s.regWriteWire b)
  | b {p : Port} {b : BResp} (h : s.givesB p = some b) : s.Carries (b.toB p)
  | ar {p : Port} {c : AxCmd} (h : s.capturesR p = some c) : s.Carries (c.toAr p)
  | r {p : Port} {b : RBeat} (h : s.givesR p = some b) : s.Carries (b.toR p)
  | regR {b : RBeat} (h : s.givesR .dma = some b) : s.Carries s.regReadWire
  | mAw {c : AxCmd} (hready : s.inputs.mAwready = true) (h : s.eng.offersAw s.cfg = some c) : s.Carries c.toMAw
  | mW {b : MBeat} (h : s.eng.dataHandshake s.inputs s.fifo = some b) : s.Carries b.toMW
  | mB {b : BResp} (h : s.inputs.mB = some b) : s.Carries b.toMB

section
variable {s : State} {p : Port} {t : Transfer}

theorem State.carries_of_mem_beatWires {b : WBeat} (h : s.acceptsW p = some b) (ht : t ∈ s.beatWires p b) :
    s.Carries t := by
  cases p with
  | dma =>
    rcases List.mem_pair.1 ht with rfl | rfl
    · exact .regW h
    · exact .w h
  | bank => exact List.mem_singleton.1 ht ▸ .w h
  | ref => exact List.mem_singleton.1 ht ▸ .w h

theorem State.carries_of_mem_readWires {b : RBeat} (h : s.givesR p = some b) (ht : t ∈ s.readWires p b) :
    s.Carries t := by
  cases p with
  | dma =>
    rcases List.mem_pair.1 ht with rfl | rfl
    · exact .regR h
    · exact .r h
  | bank => exact List.mem_singleton.1 ht ▸ .r h
  | ref => exact List.mem_singleton.1 ht ▸ .r h

theorem State.carries_of_mem_portWires (ht : t ∈ s.portWires p) : s.Carries t := by
  simp only [State.portWires, List.mem_append, Option.mem_toList, Option.map_eq_some_iff, or_assoc] at ht
  rcases ht with ⟨c, hc, rfl⟩ | ht | ⟨b, hb, rfl⟩ | ⟨c, hc, rfl⟩ | ht
  · exact .aw hc
  · split at ht
    · next b hb => exact State.carries_of_mem_beatWires hb ht
    · cases ht
  · exact .b hb
  · exact .ar hc
  · split at ht
    · next b hb => exact State.carries_of_mem_readWires hb ht
    · cases ht

theorem State.carries_of_mem_engineWires (ht : t ∈ s.engineWires) : s.Carries t := by
  unfold State.engineWires at ht
  split at ht
  · cases ht
  · simp only [List.mem_append, Option.mem_toList, Option.map_eq_some_iff, or_assoc] at ht
    rcases ht with ht | ⟨b, hb, rfl⟩ | ⟨b, hb, rfl⟩
    · split at ht
      · next hready =>
        obtain ⟨c, hc, rfl⟩ := by simpa only [Option.mem_toList, Option.map_eq_some_iff] using ht
        exact .mAw hready hc
      · cases ht
    · exact .mW hb
    · exact .mB hb

/-- Every wire of the edge is on one of the channels, with the payload that channel transfers. -/
theorem State.carries_of_mem_wires (ht : t ∈ s.wires) : s.Carries t := by
  simp only [State.wires, List.mem_append] at ht
  rcases ht with ht | ht | ht | ht
  · exact State.carries_of_mem_portWires ht
  · exact State.carries_of_mem_portWires ht
  · exact State.carries_of_mem_portWires ht
  · exact State.carries_of_mem_engineWires ht

/-! ## A payload that is transferred is on the pins -/

theorem State.aw_of_capturesW {c : AxCmd} (h : s.capturesW p = some c) : (s.inputs.port p).aw = some c := by
  simp only [State.capturesW, WriteMachine.captures] at h
  split_ifs at h
  exact h

theorem State.ar_of_capturesR {c : AxCmd} (h : s.capturesR p = some c) : (s.inputs.port p).ar = some c := by
  simp only [State.capturesR, ReadMachine.captures] at h
  split_ifs at h
  exact h

theorem State.of_acceptsW {b : WBeat} (h : s.acceptsW p = some b) :
    (s.wm p).wstate = .waitData ∧ (s.wm p).wready = true ∧ (s.inputs.port p).w = some b := by
  simp only [State.acceptsW, WriteMachine.accepts] at h
  split_ifs at h with _ hm
  exact ⟨hm.1, hm.2, h⟩

theorem State.of_givesB {b : BResp} (h : s.givesB p = some b) :
    (s.wm p).offersB = some b ∧ (s.inputs.port p).bready = true := by
  simp only [State.givesB, WriteMachine.gives] at h
  split_ifs at h with _ hb
  exact ⟨h, hb⟩

theorem State.of_givesR {b : RBeat} (h : s.givesR p = some b) :
    s.offersR p = some b ∧ (s.inputs.port p).rready = true := by
  simp only [State.givesR] at h
  split_ifs at h with hb
  simp only [Bool.and_eq_true] at hb
  exact ⟨h, hb.2⟩

theorem State.of_dataHandshake {b : MBeat} (h : s.eng.dataHandshake s.inputs s.fifo = some b) :
    s.eng.offersW s.fifo = some b ∧ s.inputs.mWready = true := by
  simp only [Engine.dataHandshake] at h
  split_ifs at h with hb
  exact ⟨h, hb⟩

end

/-! ## Driving what the pins show already is the bare edge -/

theorem Inputs.onPort_eq_self {p : Port} {f : SlaveIn → SlaveIn} {i : Inputs} (h : f (i.port p) = i.port p) :
    i.onPort p f = i := by
  cases p <;> simp_all [Inputs.onPort, Inputs.port]

section
variable {s : State} {p : Port}

theorem State.drivePort_clock {f : SlaveIn → SlaveIn} (h : f (s.inputs.port p) = s.inputs.port p) :
    (s.drivePort p f).clock = s.clock :=
  State.drive_clock (Inputs.onPort_eq_self h)

theorem offerAw_of_captures {c : AxCmd} (h : s.capturesW p = some c) : offerAw p c s = s.clock :=
  State.drivePort_clock (by rw [← State.aw_of_capturesW h])

theorem offerAr_of_captures {c : AxCmd} (h : s.capturesR p = some c) : offerAr p c s = s.clock :=
  State.drivePort_clock (by rw [← State.ar_of_capturesR h])

theorem offerW_of_accepts {b : WBeat} (h : s.acceptsW p = some b) : offerW p b s = s.clock := by
  obtain ⟨-, -, hpin⟩ := State.of_acceptsW h
  exact State.drivePort_clock (by rw [← hpin])

theorem takeB_of_gives {b : BResp} (h : s.givesB p = some b) : takeB p b s = s.clock := by
  obtain ⟨hoffer, hready⟩ := State.of_givesB h
  exact State.drivePort_clock (by rw [decide_eq_true hoffer, ← hready])

theorem takeR_of_gives {b : RBeat} (h : s.givesR p = some b) : takeR p b s = s.clock := by
  obtain ⟨hoffer, hready⟩ := State.of_givesR h
  exact State.drivePort_clock (by rw [decide_eq_true hoffer, ← hready])

theorem takeMAw_of_ready {c : AxCmd} (hready : s.inputs.mAwready = true) (h : s.eng.offersAw s.cfg = some c) :
    takeMAw c s = s.clock :=
  State.drive_clock (by rw [decide_eq_true h, ← hready])

theorem takeMW_of_handshake {b : MBeat} (h : s.eng.dataHandshake s.inputs s.fifo = some b) : takeMW b s = s.clock := by
  obtain ⟨hoffer, hready⟩ := State.of_dataHandshake h
  exact State.drive_clock (by rw [decide_eq_true hoffer, ← hready])

theorem offerMB_of_pin {b : BResp} (h : s.inputs.mB = some b) : offerMB b s = s.clock :=
  State.drive_clock (by rw [← h])

/-- A write access at the beat the `dma` slave accepts is the bare edge. -/
theorem writeAccess_of_accepts {b : WBeat} (h : s.acceptsW .dma = some b) {here : Bool} (hh : here = true) :
    writeAccess here b s = s.clock := by
  subst hh
  exact offerW_of_accepts h

/-- A read access at the beat the `dma` slave gives is the bare edge. -/
theorem readAccess_of_gives {b : RBeat} (h : s.givesR .dma = some b) {here : Bool} (hh : here = true) :
    readAccess here s = s.clock := by
  obtain ⟨-, hready⟩ := State.of_givesR h
  exact State.drivePort_clock (by rw [hh, ← hready])

/-! ## The register-access views -/

/-- An address in range of the DMA block selects one of its six words. -/
theorem State.cellOf_dma_lt {a : Word} (h : s.decodes .dma a = true) : s.cellOf .dma a < 6 := by
  obtain ⟨hlo, hhi⟩ := (inRange_iff _ _ _).1 h
  have hidx : s.cellOf .dma a = _ := idx_eq_of_le hlo
  have hcells : Config.cells .dma s.cfg = 6 := rfl
  omega

theorem exec_of_regWriteWire {b : WBeat} (h : s.acceptsW .dma = some b) {i : Instr}
    (hd : decode (s.regWriteWire b) = .ok i) : exec i s = s.clock := by
  obtain ⟨hstate, hready, -⟩ : s.dmaW.wstate = .waitData ∧ s.dmaW.wready = true ∧ _ := State.of_acceptsW h
  unfold State.regWriteWire at hd
  split at hd
  · next hin =>
    obtain rfl := Except.ok.inj ((decode_regWrite _ b).symm.trans hd)
    rw [exec_decodeReg_write s b (State.cellOf_dma_lt hin)]
    exact writeAccess_of_accepts h (by simp [State.atWriteOf, hstate, hready, hin])
  · next hout =>
    obtain rfl := Except.ok.inj ((decode_regWrite _ b).symm.trans hd)
    rw [exec_decodeReg_writeOutside]
    exact writeAccess_of_accepts h (by simp [State.atWriteOutside, hstate, hready, hout])

theorem exec_of_regReadWire {b : RBeat} (h : s.givesR .dma = some b) {i : Instr}
    (hd : decode s.regReadWire = .ok i) : exec i s = s.clock := by
  obtain ⟨hoffer, -⟩ := State.of_givesR h
  obtain ⟨hstate, hvalid⟩ : s.dmaR.rstate = .sendData ∧ s.dmaR.rvalid = true :=
    ReadMachine.offersR_isSome (Option.isSome_of_eq_some hoffer)
  unfold State.regReadWire at hd
  split at hd
  · next hin =>
    obtain rfl := Except.ok.inj ((decode_regRead _).symm.trans hd)
    rw [exec_decodeReg_read s _ (State.cellOf_dma_lt hin)]
    exact readAccess_of_gives h (by simp [State.atReadOf, hstate, hvalid, hin])
  · next hout =>
    obtain rfl := Except.ok.inj ((decode_regRead _).symm.trans hd)
    rw [exec_decodeReg_readOutside]
    exact readAccess_of_gives h (by simp [State.atReadOutside, hstate, hvalid, hout])

/-! ## The step -/

/-- A write command of the reserved burst type is a reserved operation, and captured it is a breach (U1). -/
theorem State.burst_ne_rsvd_of_capturesW {c : AxCmd} (h : s.capturesW p = some c)
    (hres : isReserved (decodeAw p c) = false ∨ s.breach = none) : c.burst ≠ burstRsvd := by
  rcases hres with hres | hbr
  · simpa [isReserved_decodeAw] using hres
  · intro hburst
    have hport := (State.breach_eq_none_iff.1 hbr).1 p
    simp [State.portBreach, h, commandBreach, hburst] at hport

/-- A read command of the reserved burst type is a reserved operation, and captured it is a breach (U1). -/
theorem State.burst_ne_rsvd_of_capturesR {c : AxCmd} (h : s.capturesR p = some c)
    (hres : isReserved (decodeAr p c) = false ∨ s.breach = none) : c.burst ≠ burstRsvd := by
  rcases hres with hres | hbr
  · simpa [isReserved_decodeAr] using hres
  · intro hburst
    have hport := (State.breach_eq_none_iff.1 hbr).1 p
    simp [State.portBreach, h, commandBreach, hburst] at hport

/-- Every operation the edge carries out is the bare edge, unless a command of the reserved burst type is captured. -/
theorem State.Carries.exec_eq_clock {t : Transfer} (ht : s.Carries t) {i : Instr} (hd : decode t = .ok i)
    (hres : isReserved i = false ∨ s.breach = none) : exec i s = s.clock := by
  cases ht with
  | @aw p c h =>
    obtain rfl := Except.ok.inj ((decode_toAw p c).symm.trans hd)
    rw [exec_decodeAw p s (State.burst_ne_rsvd_of_capturesW h hres), offerAw_of_captures h]
  | @w p b h =>
    obtain rfl := Except.ok.inj ((decode_toW p b).symm.trans hd)
    rw [exec_decodeW, offerW_of_accepts h]
  | regW h => exact exec_of_regWriteWire h hd
  | @b p b h => rw [exec_of_decodeB p s ((decode_toB p b).symm.trans hd), takeB_of_gives h]
  | @ar p c h =>
    obtain rfl := Except.ok.inj ((decode_toAr p c).symm.trans hd)
    rw [exec_decodeAr p s (State.burst_ne_rsvd_of_capturesR h hres), offerAr_of_captures h]
  | @r p b h => rw [exec_of_decodeR p s ((decode_toR p b).symm.trans hd), takeR_of_gives h]
  | regR h => exact exec_of_regReadWire h hd
  | @mAw c hready h => rw [exec_of_decodeMAw s ((decode_toMAw c).symm.trans hd), takeMAw_of_ready hready h]
  | @mW b h =>
    obtain rfl := Except.ok.inj ((decode_toMW b).symm.trans hd)
    rw [exec_dmaWBeat, takeMW_of_handshake h]
  | @mB b h =>
    obtain rfl := Except.ok.inj ((decode_toMB b).symm.trans hd)
    rw [exec_decodeMB, offerMB_of_pin h]

/-- A step whose edge breaks no duty is that edge, whichever operation it decodes first. -/
theorem step_eq_clock_of_breach_eq_none (hbr : s.breach = none) : step s = s.clock := by
  unfold step runWires
  split
  · rfl
  · next t ts hwires =>
    have ht : s.Carries t := State.carries_of_mem_wires (hwires ▸ List.mem_cons_self)
    split
    · next i hd => exact ht.exec_eq_clock hd (.inr hbr)
    · rfl

/-- A step that runs completes with the edge of the whole hardware. -/
theorem step_eq_next_edge (hr : s.runs) : step s = .next s.edge := by
  obtain ⟨hwf, -, hbr⟩ := hr
  rw [step_eq_clock_of_breach_eq_none hbr]
  exact State.clock_eq_next_iff.2 ⟨hwf, hbr, rfl⟩

end
end Sys2Proof.Machine
end

section
/-! PROOF. What holds at an edge while a channel is not driven: the slave machines rest, and no storage behind a W channel
without a beat is written. -/

namespace Sys2Proof.Machine

/-! ## The slave machines rest -/

/-- A write machine leaves `RESET` at once (R171). -/
theorem WriteMachine.next_of_reset {m : WriteMachine} (h : m.wstate = .reset) (base : Word) (n : Nat) (i : SlaveIn) :
    m.next base n i = { m with wstate := .waitAddr, awready := false, gaveB := none } := by
  simp only [WriteMachine.next, h]
  rfl

/-- A write machine whose side of the channel it waits on is not driven lowers `awready` and holds (R172, R174, R179,
R181). -/
theorem WriteMachine.next_of_undriven {m : WriteMachine} {i : SlaveIn}
    (h : (m.wstate = .waitAddr ∧ i.aw = none) ∨ (m.wstate = .waitData ∧ i.w = none) ∨
      (m.wstate = .waitRespReady ∧ i.bready = false)) (base : Word) (n : Nat) :
    m.next base n i = m.quiet := by
  rcases h with ⟨hs, hp⟩ | ⟨hs, hp⟩ | ⟨hs, hp⟩
  · simp [WriteMachine.next, WriteMachine.captures, hs, hp]
  · simp [WriteMachine.next, WriteMachine.accepts, hs, hp]
  · simp [WriteMachine.next, WriteMachine.gives, hs, hp]

/-- A read machine leaves `RESET` at once, raising `arready` (R201). -/
theorem ReadMachine.next_of_reset {m : ReadMachine} (h : m.rstate = .reset) (o : Option RBeat) (i : SlaveIn) :
    m.next o i = { m with rstate := .waitValid, arready := true, gaveR := none } := by
  simp only [ReadMachine.next, h]
  rfl

/-- A read machine whose side of the channel it waits on is not driven holds (R202, R209). -/
theorem ReadMachine.next_of_undriven {m : ReadMachine} {i : SlaveIn}
    (h : (m.rstate = .waitValid ∧ i.ar = none) ∨ (m.rstate = .sendData ∧ i.rready = false)) (o : Option RBeat) :
    m.next o i = m.quiet := by
  rcases h with ⟨hs, hp⟩ | ⟨hs, hp⟩
  · simp [ReadMachine.next, ReadMachine.captures, hs, hp]
  · cases o <;> simp [ReadMachine.next, hs, hp]

/-! ## Nothing is written without a beat -/

section
variable {s : State}

/-- A slave accepts no beat its master does not send. -/
theorem State.acceptsW_eq_none {p : Port} (h : (s.inputs.port p).w = none) : s.acceptsW p = none := by
  simp [State.acceptsW, WriteMachine.accepts, h]

theorem State.nextCells_of_no_beat (hrst : s.inputs.rst = false) (h : s.inputs.bank.w = none) :
    s.nextCells = s.bankCells := by
  rw [State.nextCells, hrst, State.acceptsW_eq_none (p := .bank) h]
  rfl

theorem State.nextRefMem_of_no_beat (h : s.inputs.ref.w = none) : s.nextRefMem = s.refMem := by
  rw [State.nextRefMem, State.acceptsW_eq_none (p := .ref) h]

theorem State.regWrite_of_no_beat (h : s.inputs.dma.w = none) : s.regWrite = none := by
  rw [State.regWrite, State.acceptsW_eq_none (p := .dma) h]

theorem State.nextEng_regs_of_no_beat (hrst : s.inputs.rst = false) (h : s.inputs.dma.w = none) :
    s.nextEng.regs = s.eng.regs := by
  rw [State.nextEng, hrst, State.regWrite_of_no_beat h]
  rfl

end

end Sys2Proof.Machine

open Sys2Proof Sys2Proof.Machine

/-- Settles O19: the step is the edge of the whole hardware, and each part of it makes its own move. -/
theorem waitingMachinesHold : Obligations.WaitingMachinesHold := by
  rintro s ⟨hwf, hrst, hbr⟩
  refine ⟨s.edge, step_eq_next_edge ⟨hwf, hrst, hbr⟩, fun p h => ?_, fun p h => ?_, fun p h => ?_, fun p h => ?_,
    State.nextCells_of_no_beat hrst, State.nextEng_regs_of_no_beat hrst, State.nextRefMem_of_no_beat⟩
  · rw [State.edge_wm, State.nextW_of_low hrst, WriteMachine.next_of_reset h]
  · rw [State.edge_rm, State.nextR_of_low hrst, ReadMachine.next_of_reset h]
  · rw [State.edge_wm, State.nextW_of_low hrst, WriteMachine.next_of_undriven h]
    rfl
  · rw [State.edge_rm, State.nextR_of_low hrst, ReadMachine.next_of_undriven h]
    rfl

end

section
/-! PROOF. Which pins each machine reads (R214): the write machines and all they write see only the write sides of the
slaves, and a read machine sees only the read side of its own. -/

namespace Sys2Proof.Machine

/-! ## The two sides of a slave's pins -/

/-- The pins of the write channels, AR and R idle. -/
def SlaveIn.writeSide (i : SlaveIn) : SlaveIn := { i with ar := none, rready := false }

/-- The pins of the read channels, AW, W and B idle. -/
def SlaveIn.readSide (i : SlaveIn) : SlaveIn := { i with aw := none, w := none, bready := false }

/-- The pins of a cycle with every read channel idle. -/
def Inputs.writeSides (i : Inputs) : Inputs :=
  { i with bank := i.bank.writeSide, dma := i.dma.writeSide, ref := i.ref.writeSide }

/-- Of the pins of a cycle, the reset, what drives the external cells and the read channels of slave `p`. -/
def Inputs.readSideOf (p : Port) (i : Inputs) : Inputs :=
  { Inputs.idle with rst := i.rst, bankExt := i.bankExt }.onPort p fun _ => (i.port p).readSide

/-- The state as the write machines, the storage and the engine see it in the coming cycle. -/
def State.writeView (s : State) : State := { s with feed := [s.inputs.writeSides] }

/-- The state as the read machine of slave `p` sees it in the coming cycle. -/
def State.readView (p : Port) (s : State) : State := { s with feed := [s.inputs.readSideOf p] }

section
variable (p q : Port) (i : Inputs) (s : State)

@[simp] theorem Inputs.writeSides_port : i.writeSides.port p = (i.port p).writeSide := by cases p <;> rfl

@[simp] theorem Inputs.readSideOf_port : (i.readSideOf p).port p = (i.port p).readSide := Inputs.onPort_port p _ _

@[simp] theorem State.writeView_inputs : s.writeView.inputs = s.inputs.writeSides :=
  congrArg Inputs.writeSides s.inputs_fit

@[simp] theorem State.readView_inputs : (s.readView p).inputs = s.inputs.readSideOf p := by
  have hfit : (s.readView p).inputs = (s.inputs.fit s.cfg).readSideOf p := by cases p <;> rfl
  rw [hfit, s.inputs_fit]

@[simp] theorem State.writeView_wm : s.writeView.wm p = s.wm p := rfl
@[simp] theorem State.readView_rm : (s.readView p).rm q = s.rm q := rfl

/-! ## What the write side determines -/

@[simp] theorem State.writeView_resetsW : s.writeView.resetsW p = s.resetsW p := by
  cases p <;> rfl

@[simp] theorem State.writeView_acceptsW : s.writeView.acceptsW p = s.acceptsW p := by
  simp only [State.acceptsW, State.writeView_resetsW, State.writeView_wm, State.writeView_inputs, Inputs.writeSides_port]
  rfl

@[simp] theorem State.writeView_capturesW : s.writeView.capturesW p = s.capturesW p := by
  simp only [State.capturesW, State.writeView_resetsW, State.writeView_wm, State.writeView_inputs,
    Inputs.writeSides_port]
  rfl

@[simp] theorem State.writeView_nextW : s.writeView.nextW p = s.nextW p := by
  simp only [State.nextW, State.writeView_resetsW, State.writeView_wm, State.writeView_inputs, Inputs.writeSides_port]
  rfl

@[simp] theorem State.writeView_regWrite : s.writeView.regWrite = s.regWrite := by
  rw [State.regWrite, State.writeView_acceptsW]
  rfl

@[simp] theorem State.writeView_engineBreach : s.writeView.engineBreach = s.engineBreach := by
  rw [State.engineBreach, State.writeView_regWrite, State.writeView_inputs]
  rfl

@[simp] theorem State.writeView_nextCells : s.writeView.nextCells = s.nextCells := by
  rw [State.nextCells, State.writeView_acceptsW, State.writeView_inputs]
  rfl

@[simp] theorem State.writeView_nextRefMem : s.writeView.nextRefMem = s.nextRefMem := by
  rw [State.nextRefMem, State.writeView_acceptsW]
  rfl

@[simp] theorem State.writeView_nextEng : s.writeView.nextEng = s.nextEng := by
  rw [State.nextEng, State.writeView_regWrite, State.writeView_inputs]
  rfl

@[simp] theorem State.writeView_nextMem : s.writeView.nextMem = s.nextMem := by
  rw [State.nextMem, State.dataOut, State.writeView_inputs]
  rfl

@[simp] theorem State.writeView_nextFifo : s.writeView.nextFifo = s.nextFifo := by
  rw [State.nextFifo, State.dataOut, State.writeView_inputs]
  rfl

/-! ## What the read side determines -/

@[simp] theorem State.readView_resetsR : (s.readView p).resetsR p = s.resetsR p := by
  cases p <;> rfl

@[simp] theorem State.readView_offersR : (s.readView p).offersR p = s.offersR p := by
  cases p <;> rfl

@[simp] theorem State.readView_capturesR : (s.readView p).capturesR p = s.capturesR p := by
  simp only [State.capturesR, State.readView_resetsR, State.readView_rm, State.readView_inputs, Inputs.readSideOf_port]
  rfl

@[simp] theorem State.readView_nextR : (s.readView p).nextR p = s.nextR p := by
  simp only [State.nextR, State.readView_resetsR, State.readView_offersR, State.readView_rm, State.readView_inputs,
    Inputs.readSideOf_port]
  rfl

end

/-! ## Pins outside a view leave it -/

section
variable {p q : Port} {f g : SlaveIn → SlaveIn} (i : Inputs) (s : State) (k l : List Inputs)

theorem Inputs.writeSides_onPort_congr (h : ∀ j, (f j).writeSide = (g j).writeSide) :
    (i.onPort p f).writeSides = (i.onPort p g).writeSides := by
  cases p <;> simp only [Inputs.writeSides, Inputs.onPort, h]

theorem Inputs.readSideOf_onPort_congr (h : q = p → ∀ j, (f j).readSide = (g j).readSide) :
    (i.onPort p f).readSideOf q = (i.onPort p g).readSideOf q := by
  have hport : ((i.onPort p f).port q).readSide = ((i.onPort p g).port q).readSide := by
    by_cases hq : q = p
    · subst hq
      rw [Inputs.onPort_port, Inputs.onPort_port, h rfl]
    · rw [Inputs.onPort_port_ne hq, Inputs.onPort_port_ne hq]
  simp only [Inputs.readSideOf, hport, Inputs.onPort_rst, Inputs.onPort_bankExt]

/-- Cycles that differ in read channels of a slave are one to the write machines, the storage and the engine. -/
theorem State.writeView_onPort_congr (h : ∀ j, (f j).writeSide = (g j).writeSide) :
    ({ s with feed := i.onPort p f :: k } : State).writeView = ({ s with feed := i.onPort p g :: l } : State).writeView :=
  congrArg (fun j : Inputs => ({ s with feed := [j.fit s.cfg] } : State)) (Inputs.writeSides_onPort_congr i h)

/-- Cycles that differ in write channels, or in another slave, are one to a read machine. -/
theorem State.readView_onPort_congr (h : q = p → ∀ j, (f j).readSide = (g j).readSide) :
    ({ s with feed := i.onPort p f :: k } : State).readView q =
      ({ s with feed := i.onPort p g :: l } : State).readView q := by
  have hpins := congrArg (fun j : Inputs => ({ s with feed := [j.fit s.cfg] } : State))
    (Inputs.readSideOf_onPort_congr i h)
  cases q <;> exact hpins

end

/-! ## The edge as a function of the views -/

/-- Edges of states with one write view agree in every write machine, the storage and the engine. -/
theorem State.edge_eq_of_writeView_eq {s u : State} (h : s.writeView = u.writeView) :
    (∀ q, s.edge.wm q = u.edge.wm q) ∧ s.edge.bankCells = u.edge.bankCells ∧ s.edge.refMem = u.edge.refMem ∧
    s.edge.eng = u.edge.eng ∧ s.edge.mem = u.edge.mem ∧ s.edge.fifo = u.edge.fifo := by
  refine ⟨fun q => ?_, ?_, ?_, ?_, ?_, ?_⟩
  · simpa using congrArg (State.nextW q) h
  · simpa using congrArg State.nextCells h
  · simpa using congrArg State.nextRefMem h
  · simpa using congrArg State.nextEng h
  · simpa using congrArg State.nextMem h
  · simpa using congrArg State.nextFifo h

/-- Edges of states with one read view of a slave agree in its read machine. -/
theorem State.edge_rm_eq_of_readView_eq {s u : State} {q : Port} (h : s.readView q = u.readView q) :
    s.edge.rm q = u.edge.rm q := by
  simpa using congrArg (State.nextR q) h

/-! ## Steps that complete -/

/-- An operation of the reserved burst type never answers a next state. -/
theorem exec_ne_next_of_isReserved {i : Instr} (h : isReserved i = true) (s t : State) : exec i s ≠ .next t := by
  have hrefuse : exec i s = refuseReserved s := by
    unfold isReserved at h
    split at h
    · rfl
    · rfl
    · cases h
  rw [hrefuse, refuseReserved]
  split <;> exact nofun

/-- A step that answers a next state answers the clock edge. -/
theorem edge_of_step_eq_next {s t : State} (h : step s = .next t) : t = s.edge := by
  have hclock : s.clock = .next t := by
    unfold step runWires at h
    split at h
    · exact h
    · next w ws hwires =>
      have hw : s.Carries w := State.carries_of_mem_wires (hwires ▸ List.mem_cons_self)
      split at h
      · next i hd =>
        have hres : isReserved i = false := Bool.eq_false_iff.2 fun hi => exec_ne_next_of_isReserved hi s t h
        rw [← hw.exec_eq_clock hd (.inl hres), h]
      · exact h
  exact (State.clock_eq_next_iff.1 hclock).2.2

end Sys2Proof.Machine

open Sys2Proof Sys2Proof.Machine

/-- Settles O52: pins of the read side leave the write view and the other slaves' read views, pins of the write side
leave every read view, and each part of the edge is determined by its view. -/
theorem readAndWriteMachinesAreIndependent : Obligations.ReadAndWriteMachinesAreIndependent := by
  refine fun s t1 t2 p i => ⟨fun ar1 ar2 r1 r2 h1 h2 => ?_, fun aw1 aw2 w1 w2 b1 b2 h1 h2 q => ?_⟩
  all_goals rw [edge_of_step_eq_next h1, edge_of_step_eq_next h2]
  · obtain ⟨hwm, hstored⟩ := State.edge_eq_of_writeView_eq (State.writeView_onPort_congr (p := p)
      (f := fun j => { j with ar := ar1, rready := r1 }) (g := fun j => { j with ar := ar2, rready := r2 })
      i s s.feed.tail s.feed.tail fun _ => rfl)
    exact ⟨hwm, fun q hq => State.edge_rm_eq_of_readView_eq
      (State.readView_onPort_congr i s _ _ fun hqp => absurd hqp hq), hstored⟩
  · exact State.edge_rm_eq_of_readView_eq (State.readView_onPort_congr i s _ _ fun _ _ => rfl)

end

section
/-! PROOF. The read channels of a slave (spec 43_read_channel.md): a cycle in which the master drives them breaks no duty
but by the command it captures, so the operation completes and the read machine makes its move. -/

namespace Sys2Proof.Machine

/-! ## Driving read channels -/

theorem State.drivePort_id_inputs (p : Port) (s : State) : (s.drivePort p id).inputs = s.inputs := by
  rw [State.drivePort, State.drive_inputs, Inputs.onPort_eq_self rfl, s.inputs_fit]

/-- Driving a slave's pins does not change what it offers on R. -/
theorem State.drivePort_offersR (p : Port) (f : SlaveIn → SlaveIn) (s : State) :
    (s.drivePort p f).offersR p = s.offersR p := by
  have hvalue (a : Word) : (s.drivePort p f).cellValue p a = s.cellValue p a := by
    cases p with
    | bank =>
      rw [State.cellValue, State.drivePort_inputs, Inputs.onPort_bankExt]
      rfl
    | dma => rfl
    | ref => rfl
  rw [State.offersR, hvalue, State.drivePort_rm]
  rfl

section
variable {s : State} {p : Port} {f : SlaveIn → SlaveIn}

/-- Driving read channels leaves what the write machines, the storage and the engine see. -/
theorem State.drivePort_writeView (hf : ∀ j, (f j).writeSide = j.writeSide) :
    (s.drivePort p f).writeView = s.writeView := by
  have hid : (s.drivePort p f).writeView = (s.drivePort p id).writeView := State.writeView_onPort_congr _ s _ _ hf
  rw [hid, State.writeView, State.drivePort_id_inputs]
  rfl

/-- Driving a slave leaves what the read machines of the others see. -/
theorem State.drivePort_readView_ne {q : Port} (h : q ≠ p) : (s.drivePort p f).readView q = s.readView q := by
  have hid : (s.drivePort p f).readView q = (s.drivePort p id).readView q :=
    State.readView_onPort_congr _ s _ _ fun hq => absurd hq h
  rw [hid, State.readView, State.drivePort_id_inputs]
  rfl

/-- Where an edge would run, the edge with read channels of a slave driven completes if the command the slave then
captures, if any, breaks no duty; its read machine moves on the pins driven. -/
theorem State.drivePort_clock_of_reads (hf : ∀ j, (f j).writeSide = j.writeSide) (hr : s.runs)
    (hc : ((s.drivePort p f).capturesR p).bind commandBreach = none) :
    ∃ t, (s.drivePort p f).clock = .next t ∧
      t.rm p = (s.rm p).next (s.offersR p) ((f (s.inputs.port p)).fit s.cfg.sIdW) := by
  obtain ⟨hwf, hrst, hbr⟩ := hr
  obtain ⟨hports, heng⟩ := State.breach_eq_none_iff.1 hbr
  have hview := State.drivePort_writeView (s := s) (p := p) hf
  have hbr' : (s.drivePort p f).breach = none := by
    refine State.breach_eq_none_iff.2 ⟨fun q => ?_, ?_⟩
    · obtain ⟨hw, hr⟩ := Option.or_eq_none_iff.1 (hports q)
      have hcapW : (s.drivePort p f).capturesW q = s.capturesW q := by simpa using congrArg (State.capturesW q) hview
      refine Option.or_eq_none_iff.2 ⟨hcapW ▸ hw, ?_⟩
      by_cases hq : q = p
      · exact hq ▸ hc
      · have hcapR : (s.drivePort p f).capturesR q = s.capturesR q := by
          simpa using congrArg (State.capturesR q) (State.drivePort_readView_ne (s := s) (f := f) hq)
        exact hcapR ▸ hr
    · have hengBr : (s.drivePort p f).engineBreach = s.engineBreach := by
        simpa using congrArg State.engineBreach hview
      exact hengBr.trans heng
  refine ⟨_, State.clock_eq_next_iff.2 ⟨hwf, hbr', rfl⟩, ?_⟩
  rw [State.edge_rm, State.nextR_of_low (by simpa using hrst), State.drivePort_offersR, State.drivePort_rm,
    State.drivePort_inputs, Inputs.onPort_port]

end

/-! ## AR -/

/-- The machine that captures a command has every register loaded from it (R203). -/
theorem ReadMachine.capture_eq {c : AxCmd} {mask : Word} (h : wrapMask c.burst c.len c.size = some mask)
    (m : ReadMachine) : m.capture c = ⟨.sendData, false, true, c.id, c.addr, mask, c.size, c.len, none⟩ := by
  rw [ReadMachine.capture, h, Option.getD_some]

/-- Offering a legal command, with an id the port carries, to a machine that waits with `arready` up completes, and the
machine captures it (R203). -/
theorem offerAr_captures {s : State} {p : Port} {c : AxCmd} (hr : s.runs) (hs : (s.rm p).rstate = .waitValid)
    (hy : (s.rm p).arready = true) (hid : c.id < 2 ^ s.cfg.sIdW) (hlegal : c.legal = true) :
    ∃ t, offerAr p c s = .next t ∧ t.rm p = (s.rm p).capture c := by
  have hfit : fitCmd s.cfg.sIdW c = c := by rw [fitCmd, fitId_of_lt hid]
  have hcap : (s.drivePort p fun q => { q with ar := some c }).capturesR p = some c := by
    have hrst : (s.drivePort p fun q => { q with ar := some c }).inputs.rst = false := by simpa using hr.2.1
    simp [State.capturesR, State.resetsR_of_low hrst, ReadMachine.captures, hs, hy, hfit]
  obtain ⟨t, hnext, hrm⟩ := State.drivePort_clock_of_reads (f := fun q => { q with ar := some c }) (fun _ => rfl) hr
    (by rw [hcap, Option.bind_some, (commandBreach_eq_none_iff c).2 hlegal])
  refine ⟨t, hnext, hrm.trans ?_⟩
  simp [ReadMachine.next, ReadMachine.captures, hs, hy, hfit]

/-! ## R -/

/-- In `SEND_DATA` the beat on the wires has the response and the data `MemRead` gives at the cursor (R204 to R206). -/
theorem State.offersR_eq {s : State} {p : Port} (hs : (s.rm p).rstate = .sendData) (hv : (s.rm p).rvalid = true) :
    s.offersR p = some ⟨(s.rm p).rid, decide ((s.rm p).rLen = 0),
      (readResult (s.decodes p (s.rm p).rCur) (s.cellValue p (s.rm p).rCur)).1,
      (readResult (s.decodes p (s.rm p).rCur) (s.cellValue p (s.rm p).rCur)).2⟩ :=
  if_pos ⟨hs, hv⟩

/-- Taking the beat on the wires completes, and the machine gives it (R207, R208). -/
theorem takeR_gives {s : State} {p : Port} {b : RBeat} (hr : s.runs) (hb : s.offersR p = some b) :
    ∃ t, takeR p b s = .next t ∧ t.rm p = (s.rm p).give b := by
  obtain ⟨hs, -⟩ : (s.rm p).rstate = .sendData ∧ (s.rm p).rvalid = true :=
    ReadMachine.offersR_isSome (Option.isSome_of_eq_some hb)
  obtain ⟨t, hnext, hrm⟩ := State.drivePort_clock_of_reads (p := p)
    (f := fun q => { q with rready := decide (s.offersR p = some b) }) (fun _ => rfl) hr
    (by simp [State.capturesR, ReadMachine.captures, hs])
  refine ⟨t, hnext, hrm.trans ?_⟩
  simp [ReadMachine.next, hs, hb]

/-- Giving a beat records it (log 20). -/
theorem ReadMachine.give_gaveR (m : ReadMachine) (b : RBeat) : (m.give b).gaveR = some b := by
  unfold ReadMachine.give
  split <;> rfl

end Sys2Proof.Machine

open Sys2Proof Sys2Proof.Machine

/-- Settles O16: the three operations offer a command that the waiting machine captures, each with the mask of its burst
type. -/
theorem readCommandIsCaptured : Obligations.ReadCommandIsCaptured := by
  intro s p id size len addr hr hs hy hid i burst mask hi hlegal
  obtain ⟨hexec, hmask⟩ : exec i s = offerAr p ⟨id, addr, len, size, burst⟩ s ∧ wrapMask burst len size = some mask := by
    rcases hi with ⟨rfl, rfl, rfl⟩ | ⟨rfl, rfl, rfl⟩ | ⟨rfl, rfl, rfl⟩ <;> exact ⟨exec_eq _ s, rfl⟩
  obtain ⟨t, hnext, hrm⟩ := offerAr_captures hr hs hy hid hlegal
  exact ⟨t, hexec.trans hnext, hrm.trans (ReadMachine.capture_eq hmask _)⟩

/-- Settles O17: each operation names the beat on the wires, so it is taken, and giving it ends or advances the burst. -/
theorem readBeatIsHandedOver : Obligations.ReadBeatIsHandedOver := by
  intro s p hr hs hv i resp data hi
  obtain ⟨hexec, hresult⟩ : exec i s = takeR p ⟨(s.rm p).rid, decide ((s.rm p).rLen = 0), resp, data⟩ s ∧
      readResult (s.decodes p (s.rm p).rCur) (s.cellValue p (s.rm p).rCur) = (resp, data) := by
    rcases hi with ⟨hin, rfl, rfl, rfl⟩ | ⟨hout, rfl, rfl, rfl⟩
    · exact ⟨exec_eq _ s, by rw [hin]; rfl⟩
    · exact ⟨exec_eq _ s, by rw [hout]; rfl⟩
  have hoffer : (s.slaveOut p).r = some ⟨(s.rm p).rid, decide ((s.rm p).rLen = 0), resp, data⟩ := by
    rw [State.slaveOut, State.offersR_eq hs hv, hresult]
  obtain ⟨t, hnext, hrm⟩ := takeR_gives hr hoffer
  have hgave : (t.rm p).gaveR = some _ := hrm ▸ ReadMachine.give_gaveR _ _
  refine ⟨hoffer, t, hexec.trans hnext, hgave.trans hoffer.symm, fun hlast => ?_, fun hmore => ?_⟩
  · rw [hgave, hrm, ReadMachine.give, if_pos hlast]
  · rw [hgave, hrm, ReadMachine.give, if_neg hmore]

end

section
/-! PROOF. The data of a read beat: the cell of the bank by its kind, the word of the reference slave by its lanes. -/

namespace Sys2Proof.Machine

section
variable {s : State} {p : Port} {b : RBeat} (h : s.offersR p = some b)
include h

/-- The data on the wires is what `MemRead` gives at the cursor (R160, R204). -/
theorem State.data_of_offersR :
    b.data = (readResult (s.decodes p (s.rm p).rCur) (s.cellValue p (s.rm p).rCur)).2 := by
  obtain ⟨hs, hv⟩ : (s.rm p).rstate = .sendData ∧ (s.rm p).rvalid = true :=
    ReadMachine.offersR_isSome (Option.isSome_of_eq_some h)
  rw [State.offersR_eq hs hv] at h
  rw [← Option.some.inj h]

theorem State.data_of_offersR_in_range (hin : s.decodes p (s.rm p).rCur = true) :
    b.data = s.cellValue p (s.rm p).rCur := by
  rw [State.data_of_offersR h, hin]
  rfl

theorem State.data_of_offersR_out_of_range (hout : s.decodes p (s.rm p).rCur = false) : b.data = Config.sentinel := by
  rw [State.data_of_offersR h, hout]
  rfl

end

/-! ## The cells of the bank (R154) -/

section
variable {c : Config} {k : Nat} {v : Word} (cycle : Nat) {ext cells : List Word}

theorem readCell_of_readWrite {r : Word} (h : c.bankCells[k]? = some (.readWrite r)) (hv : cells[k]? = some v) :
    readCell c cycle ext cells k = v := by
  simp [readCell, h, hv]

theorem readCell_of_fixed (h : c.bankCells[k]? = some (.fixed v)) : readCell c cycle ext cells k = v := by
  simp [readCell, h]

theorem readCell_of_external (h : c.bankCells[k]? = some .external) (hv : ext[k]? = some v) :
    readCell c cycle ext cells k = v := by
  simp [readCell, h, hv]

end

/-! ## The words of the reference array -/

/-- Lane `k` of a word of the reference array is its byte at `laneAddr` (R223, log 29). -/
theorem laneByte_refWord (base : Word) (m : List Host.Cell) (i : Nat) {k : Nat} (hk : k < 4) :
    laneByte (refWord base m i) k = refByte m (laneAddr (refWordAddr base i) k) := by
  rw [laneByte, refWord]
  interval_cases k
  · exact BitVec.extractLsb'_append_eq_right
  · exact (BitVec.extractLsb'_append_eq_of_le (by decide)).trans BitVec.extractLsb'_append_eq_right
  · exact (BitVec.extractLsb'_append_eq_of_le (by decide)).trans
      ((BitVec.extractLsb'_append_eq_of_le (by decide)).trans BitVec.extractLsb'_append_eq_right)
  · exact (BitVec.extractLsb'_append_eq_of_le (by decide)).trans
      ((BitVec.extractLsb'_append_eq_of_le (by decide)).trans
        ((BitVec.extractLsb'_append_eq_of_le (by decide)).trans BitVec.extractLsb'_eq_self))

end Sys2Proof.Machine

open Sys2Proof Sys2Proof.Machine

/-- Settles O18: the beat carries what `MemRead` gives, which is the cell by its kind, and the reference word by its
lanes. -/
theorem readDataIsTheCell : Obligations.ReadDataIsTheCell := by
  refine ⟨fun s b hb => ⟨State.data_of_offersR_out_of_range hb, fun hin k hk => ?_⟩,
    fun s b hb => ⟨State.data_of_offersR_out_of_range hb, fun hin i hi => ?_⟩⟩
  · have hcell : b.data = readCell s.cfg s.cycle s.inputs.bankExt s.bankCells k :=
      hk ▸ State.data_of_offersR_in_range hb hin
    exact ⟨fun r v hkind hv => hcell.trans (readCell_of_readWrite _ hkind hv),
      fun v hkind => hcell.trans (readCell_of_fixed _ hkind),
      fun v hkind hv => hcell.trans (readCell_of_external _ hkind hv)⟩
  · have hword : b.data = refWord s.cfg.refBase s.refMem i := hi ▸ State.data_of_offersR_in_range hb hin
    refine ⟨hword, fun k hk x hx => ?_⟩
    have hlane : laneByte b.data k = (Memory.read s.refMem x).getD (Config.refPowerOn x) := by
      rw [hword, laneByte_refWord _ _ _ hk, hx]
      rfl
    exact ⟨fun v hv => by rw [hlane, hv, Option.getD_some], fun hnone => by rw [hlane, hnone, Option.getD_none]⟩

end

section
/-! PROOF. The array of the reference slave (spec 44_reference_slave.md): a word written to it lane by lane, the words
beside it, and the array after a beat. -/

namespace Sys2Proof.Machine

/-! ## A word written to byte memory -/

/-- The lanes of a word lie at different addresses, wherever the word is. -/
theorem laneAddr_inj {a : Word} {j k : Nat} (hj : j < 4) (hk : k < 4) : laneAddr a j = laneAddr a k ↔ j = k := by
  refine ⟨fun h => ?_, congrArg _⟩
  have hlane : BitVec.ofNat 32 j = BitVec.ofNat 32 k := (BitVec.add_right_inj a).1 (BitVec.eq_of_toNat_eq h)
  have hmod : j % 2 ^ 32 = k % 2 ^ 32 := congrArg BitVec.toNat hlane
  omega

/-- After a lane write, a lane of the same word holds the byte if it is the lane written and that is enabled. -/
theorem Memory.read_writeLane {j k : Nat} (hj : j < 4) (hk : k < 4) (m : List Host.Cell) (a : Word) (en : Bool)
    (b : Byte) : Memory.read (Memory.writeLane m a en b j) (laneAddr a k) =
      if j = k ∧ en = true then some b else Memory.read m (laneAddr a k) := by
  by_cases h : j = k
  · subst h
    cases en <;> simp [Memory.writeLane]
  · rw [Memory.read_writeLane_ne (fun hx => h ((laneAddr_inj hk hj).1 hx).symm), if_neg fun hx => h hx.1]

/-- After a word write, each lane of the word holds the data's byte where enabled, else the old one (R222). -/
theorem Memory.read_writeWord_lane {k : Nat} (hk : k < 4) (m : List Host.Cell) (a : Word) (be : BitVec 4) (d : Word) :
    Memory.read (Memory.writeWord m a be d) (laneAddr a k) =
      if be.getLsbD k then some (laneByte d k) else Memory.read m (laneAddr a k) := by
  interval_cases k <;> simp [Memory.writeWord, Memory.read_writeLane]

/-! ## The words of the array -/

/-- A word of the array is determined by its four bytes. -/
theorem refWord_congr {base : Word} {m m' : List Host.Cell} {i : Nat}
    (h : ∀ k < 4, Memory.read m (laneAddr (refWordAddr base i) k) = Memory.read m' (laneAddr (refWordAddr base i) k)) :
    refWord base m i = refWord base m' i := by
  simp [refWord, refByte, h]

/-- Inside the 32-bit space lane `k` of word `i` is the byte `4 * i + k` after the base (R221, log 29). -/
theorem laneAddr_refWordAddr {base : Word} {i k : Nat} (h : base.toNat + 4 * i + k < addressSpace) :
    laneAddr (refWordAddr base i) k = base.toNat + 4 * i + k := by
  simp only [addressSpace] at h
  simp only [laneAddr, refWordAddr, BitVec.toNat_add, BitVec.toNat_ofNat]
  omega

/-- Words of a window inside the 32-bit space share no byte. -/
theorem laneAddr_refWordAddr_ne {base : Word} {n i j k l : Nat} (hn : base.toNat + 4 * n ≤ addressSpace) (hi : i < n)
    (hj : j < n) (hne : j ≠ i) (hk : k < 4) (hl : l < 4) :
    laneAddr (refWordAddr base j) k ≠ laneAddr (refWordAddr base i) l := by
  rw [laneAddr_refWordAddr (by omega), laneAddr_refWordAddr (by omega)]
  omega

section
variable (base : Word) (m : List Host.Cell) (be : BitVec 4) (d : Word)

/-- Lane `k` of the written word is the data's where enabled, else the old one (R222). -/
theorem laneByte_refWord_writeWord (i : Nat) {k : Nat} (hk : k < 4) :
    laneByte (refWord base (Memory.writeWord m (refWordAddr base i) be d) i) k =
      if be.getLsbD k then laneByte d k else laneByte (refWord base m i) k := by
  rw [laneByte_refWord _ _ _ hk, laneByte_refWord _ _ _ hk, refByte, Memory.read_writeWord_lane hk]
  split <;> rfl

/-- A write of one word of the window leaves the others. -/
theorem refWord_writeWord_ne {n i j : Nat} (hn : base.toNat + 4 * n ≤ addressSpace) (hi : i < n) (hj : j < n)
    (hne : j ≠ i) : refWord base (Memory.writeWord m (refWordAddr base i) be d) j = refWord base m j :=
  refWord_congr fun _ hk =>
    Memory.read_writeWord_ne (fun _ hl => laneAddr_refWordAddr_ne hn hi hj hne hk hl) m be d

end

/-! ## The window of the reference slave -/

/-- Under parameters in bounds the window of the reference slave lies inside the 32-bit space (R63, D20). -/
theorem Config.refWindow_le {c : Config} (h : c.wf = true) : c.refBase.toNat + 4 * c.refWords ≤ addressSpace := by
  simp only [Config.wf, Config.windowOk, Bool.and_eq_true, decide_eq_true_eq] at h
  omega

/-- An address in range selects a word of the array (R151). -/
theorem State.cellOf_ref_lt {s : State} {a : Word} (h : s.decodes .ref a = true) : s.cellOf .ref a < s.cfg.refWords := by
  obtain ⟨hlo, hhi⟩ := (inRange_iff s.cfg.refBase a s.cfg.refWords).1 h
  have hidx : s.cellOf .ref a = (a.toNat - s.cfg.refBase.toNat) / 4 := idx_eq_of_le hlo
  omega

/-- Without reset the array takes the enabled lanes at the word the cursor selects, out of range none (R222). -/
theorem State.withBeat_nextRefMem {s : State} (hrst : s.inputs.rst = false) (hw : s.refW.wstate = .waitData)
    (hy : s.refW.wready = true) (b : WBeat) :
    (s.withBeat .ref b).nextRefMem =
      if s.decodes .ref s.refW.wCur then
        Memory.writeWord s.refMem (refWordAddr s.cfg.refBase (s.cellOf .ref s.refW.wCur)) b.strb b.data
      else s.refMem := by
  rw [State.nextRefMem, State.withBeat_acceptsW_self (p := .ref) hrst hw hy]
  rfl

end Sys2Proof.Machine

open Sys2Proof Sys2Proof.Machine

/-- Settles O14: the beat is accepted at the driven edge, the write machine latches the decode outcome, and the array
takes one word write, whose lanes are the word's bytes and which shares no byte with another word. -/
theorem referenceBeatWritesEnabledLanes : Obligations.ReferenceBeatWritesEnabledLanes := by
  rintro s strb data i ⟨hwf, hrst, hbr⟩ hw hy hi
  obtain ⟨last, hexec⟩ := exec_wBeat_or_wLast hi s
  have hwm := State.withBeat_nextW (p := .ref) hrst hw hy ⟨last, strb, data⟩
  have hmem := State.withBeat_nextRefMem hrst hw hy ⟨last, strb, data⟩
  refine ⟨_, hexec.trans (offerW_eq_next ⟨hwf, hrst, hbr⟩ (by decide) _), ?_, fun hout => ?_, ?_⟩
  · rw [State.edge_refW, hwm]
    rfl
  · rw [State.edge_refMem, hmem, hout]
    exact ⟨fun _ => rfl, fun _ => rfl⟩
  · rintro hin _ rfl
    rw [State.edge_refMem, hmem, if_pos hin]
    refine ⟨fun k hk => laneByte_refWord_writeWord _ _ _ _ _ hk, fun j hj hne => ?_, ?_⟩
    · exact refWord_writeWord_ne _ _ _ _ (Config.refWindow_le hwf) (State.cellOf_ref_lt hin) hj hne
    · rintro _ rfl
      exact ⟨fun k hk => Memory.read_writeWord_lane hk .., fun x hx => Memory.read_writeWord_ne hx ..⟩

end

section
/-! PROOF. The reference slave and `rst` (spec 44_reference_slave.md, R224, R344): without `REF_RESET_RECOVERY` only a
machine still in its start-up `RESET` heeds it. -/

namespace Sys2Proof.Machine

/-! ## Out of `RESET` for good -/

/-- An edge without reset never leads to `RESET`. -/
theorem WriteMachine.next_wstate_ne_reset (base : Word) (n : Nat) (m : WriteMachine) (i : SlaveIn) :
    (m.next base n i).wstate ≠ .reset := by
  rcases WriteMachine.next_cases base n m i with ⟨c, -, h⟩ | ⟨b, -, h⟩ | ⟨b, -, h⟩ | ⟨-, -, -, h⟩ <;> rw [h]
  · exact nofun
  · cases hb : b.last <;> simp [WriteMachine.takeBeat, hb]
  · exact nofun
  · by_cases hs : m.wstate = .reset <;> simp [WriteMachine.rest, hs]

/-- An edge without reset never leads to `RESET`. -/
theorem ReadMachine.next_rstate_ne_reset {o : Option RBeat} {m : ReadMachine} (ho : o.isSome → m.rstate = .sendData)
    (i : SlaveIn) : (m.next o i).rstate ≠ .reset := by
  rcases ReadMachine.next_cases o m i ho with ⟨c, -, h⟩ | ⟨b, hb, -, h⟩ | ⟨-, -, h⟩ <;> rw [h]
  · exact nofun
  · have hs : m.rstate = .sendData := ho (by rw [hb]; rfl)
    unfold ReadMachine.give
    split
    · exact nofun
    · exact hs ▸ nofun
  · by_cases hs : m.rstate = .reset <;> simp [ReadMachine.rest, hs]

/-- A slave offers a beat only in `SEND_DATA`. -/
theorem State.offersR_isSome {s : State} {p : Port} (h : (s.offersR p).isSome) : (s.rm p).rstate = .sendData :=
  (ReadMachine.offersR_isSome h).1

/-! ## The machines of the reference slave without `REF_RESET_RECOVERY` -/

section
variable {s : State} (hrec : s.cfg.refResetRecovery = false)
include hrec

/-- No edge resets a write machine that has left `RESET` (R344). -/
theorem State.resetsW_ref_of_left (h : s.refW.wstate ≠ .reset) : s.resetsW .ref = false := by
  have hleft : decide ((s.wm .ref).wstate = .reset) = false := decide_eq_false h
  rw [State.resetsW, hleft, State.resetReaches_ref hrec]

/-- No edge resets a read machine that has left `RESET` (R344). -/
theorem State.resetsR_ref_of_left (h : s.refR.rstate ≠ .reset) : s.resetsR .ref = false := by
  have hleft : decide ((s.rm .ref).rstate = .reset) = false := decide_eq_false h
  rw [State.resetsR, hleft, State.resetReaches_ref hrec]

theorem State.nextW_ref_of_left (h : s.refW.wstate ≠ .reset) :
    s.nextW .ref = s.refW.next s.cfg.refBase s.cfg.refWords s.inputs.ref := by
  rw [State.nextW, State.resetsW_ref_of_left hrec h]
  rfl

theorem State.nextR_ref_of_left (h : s.refR.rstate ≠ .reset) :
    s.nextR .ref = s.refR.next (s.offersR .ref) s.inputs.ref := by
  rw [State.nextR, State.resetsR_ref_of_left hrec h]
  rfl

/-- A beat is accepted whatever `rst` is: the machine `rst` would reset is in `RESET`, where it accepts none. -/
theorem State.acceptsW_ref : s.acceptsW .ref = s.refW.accepts s.inputs.ref := by
  by_cases h : s.refW.wstate = .reset
  · have hnone : s.refW.accepts s.inputs.ref = none := by simp [WriteMachine.accepts, h]
    rw [hnone]
    exact ite_eq_left_iff.2 fun _ => hnone
  · rw [State.acceptsW, State.resetsW_ref_of_left hrec h]
    rfl

end

/-! ## In `RESET` with `rst` -/

section
variable {s : State} (hrst : s.inputs.rst = true) {p : Port}
include hrst

/-- A machine in `RESET` is held there by `rst` on every slave (log 26). -/
theorem State.resetReaches_inReset : s.resetReaches p true = true := by
  cases p <;> simp [State.resetReaches, hrst]

theorem State.nextW_of_reset_high (h : (s.wm p).wstate = .reset) : s.nextW p = (s.wm p).resetEdge := by
  rw [State.nextW, State.resetsW, decide_eq_true h, State.resetReaches_inReset hrst, if_pos rfl]

theorem State.nextR_of_reset_high (h : (s.rm p).rstate = .reset) : s.nextR p = (s.rm p).resetEdge := by
  rw [State.nextR, State.resetsR, decide_eq_true h, State.resetReaches_inReset hrst, if_pos rfl]

end

/-! ## One cycle with `rst` at either level -/

/-- The state with the pins `i` in the coming cycle, but `rst` at level `r`. -/
def State.withRst (r : Bool) (i : Inputs) (s : State) : State := { s with feed := { i with rst := r } :: s.feed.tail }

section
variable {s : State} (hrec : s.cfg.refResetRecovery = false) (r : Bool) (i : Inputs)
include hrec

/-- The array never sees `rst` (R224). -/
theorem State.nextRefMem_withRst : (s.withRst r i).nextRefMem = (s.withRst false i).nextRefMem := by
  rw [State.nextRefMem, State.nextRefMem, State.acceptsW_ref (s := s.withRst r i) hrec,
    State.acceptsW_ref (s := s.withRst false i) hrec]
  rfl

/-- A write machine that has left `RESET` makes the same edge at both levels, and does not go back. -/
theorem State.nextW_withRst_of_left (h : s.refW.wstate ≠ .reset) :
    (s.withRst r i).nextW .ref = (s.withRst false i).nextW .ref ∧ ((s.withRst r i).nextW .ref).wstate ≠ .reset := by
  have hlow := State.nextW_ref_of_left (s := s.withRst false i) hrec h
  have hr := State.nextW_ref_of_left (s := s.withRst r i) hrec h
  exact ⟨hr.trans hlow.symm, hr ▸ WriteMachine.next_wstate_ne_reset _ _ _ _⟩

/-- A read machine that has left `RESET` makes the same edge at both levels, and does not go back. -/
theorem State.nextR_withRst_of_left (h : s.refR.rstate ≠ .reset) :
    (s.withRst r i).nextR .ref = (s.withRst false i).nextR .ref ∧ ((s.withRst r i).nextR .ref).rstate ≠ .reset := by
  have hlow := State.nextR_ref_of_left (s := s.withRst false i) hrec h
  have hr := State.nextR_ref_of_left (s := s.withRst r i) hrec h
  exact ⟨hr.trans hlow.symm, hr ▸ ReadMachine.next_rstate_ne_reset State.offersR_isSome _⟩

end

end Sys2Proof.Machine

open Sys2Proof Sys2Proof.Machine

/-- Settles O46: the two steps are edges of one cycle at the two levels of `rst`, which reaches a machine of the reference
slave in `RESET` only. -/
theorem referenceSlaveIgnoresReset : Obligations.ReferenceSlaveIgnoresReset := by
  refine ⟨fun c => ⟨rfl, rfl, rfl⟩, fun s t1 t2 i hrec h1 h2 => ?_⟩
  obtain rfl : t1 = (s.withRst true i).edge := edge_of_step_eq_next h1
  obtain rfl : t2 = (s.withRst false i).edge := edge_of_step_eq_next h2
  refine ⟨State.nextRefMem_withRst hrec true i, State.nextW_withRst_of_left hrec true i,
    State.nextR_withRst_of_left hrec true i, fun hW => ?_, fun hR => ?_⟩
  · have hhigh := State.nextW_of_reset_high (s := s.withRst true i) (p := .ref) rfl hW
    have hlow := (State.nextW_of_low (s := s.withRst false i) rfl .ref).trans (WriteMachine.next_of_reset hW _ _ _)
    rw [State.edge_refW, State.edge_refW, hhigh, hlow]
    exact ⟨rfl, rfl, rfl, rfl, rfl⟩
  · have hhigh := State.nextR_of_reset_high (s := s.withRst true i) (p := .ref) rfl hR
    have hlow := (State.nextR_of_low (s := s.withRst false i) rfl .ref).trans (ReadMachine.next_of_reset hR _ _)
    rw [State.edge_refR, State.edge_refR, hhigh, hlow]
    exact ⟨rfl, rfl, rfl, rfl, rfl⟩

end

section
/-! PROOF. The register accesses of the DMA block (spec 45_dma_registers.md) as beats of the bus: a read access takes the
beat on the wires, a write access that is no start leaves the engine the edge it makes without it, but for the
configuration and the pending bit. -/

namespace Sys2Proof.Machine

/-! ## Where the machines are -/

section
variable {s : State}

/-- A write machine at word `k` is in `WAIT_DATA` with its cursor in range, at cell `k` (R230). -/
theorem State.atWriteOf_iff {k : Nat} : s.atWriteOf k = true ↔ s.dmaW.wstate = .waitData ∧ s.dmaW.wready = true ∧
    s.decodes .dma s.dmaW.wCur = true ∧ s.cellOf .dma s.dmaW.wCur = k := by
  simp [State.atWriteOf, and_assoc]

/-- A write machine outside the six words is in `WAIT_DATA` with its cursor out of range (R246). -/
theorem State.atWriteOutside_iff : s.atWriteOutside = true ↔ s.dmaW.wstate = .waitData ∧ s.dmaW.wready = true ∧
    s.decodes .dma s.dmaW.wCur = false := by
  simp [State.atWriteOutside, and_assoc]

/-- A write machine is at one word at a time. -/
theorem State.atWriteOf_ne {j k : Nat} (h : s.atWriteOf k = true) (hne : k ≠ j) : s.atWriteOf j = false := by
  obtain ⟨-, -, -, hcell⟩ := State.atWriteOf_iff.1 h
  simp [State.atWriteOf, hcell, hne]

/-- A write machine outside the six words is at none of them. -/
theorem State.atWriteOf_of_outside (h : s.atWriteOutside = true) (k : Nat) : s.atWriteOf k = false := by
  obtain ⟨-, -, hout⟩ := State.atWriteOutside_iff.1 h
  simp [State.atWriteOf, hout]

/-! ## Read accesses -/

/-- At word `k` the beat on the wires has the word's value (R230). -/
theorem State.offersR_of_atReadOf {k : Nat} (h : s.atReadOf k = true) :
    s.offersR .dma = some ⟨s.dmaR.rid, decide (s.dmaR.rLen = 0), respOkay, s.eng.readReg k⟩ := by
  obtain ⟨⟨⟨hs, hv⟩, hin⟩, rfl⟩ : ((s.dmaR.rstate = .sendData ∧ s.dmaR.rvalid = true) ∧
      s.decodes .dma s.dmaR.rCur = true) ∧ s.cellOf .dma s.dmaR.rCur = k := by
    simpa only [State.atReadOf, Bool.and_eq_true, decide_eq_true_eq] using h
  rw [State.offersR_eq (p := .dma) hs hv]
  simp only [State.rm, hin]
  rfl

/-- Outside the six words the beat on the wires is the sentinel with DECERR (R245). -/
theorem State.offersR_of_atReadOutside (h : s.atReadOutside = true) :
    s.offersR .dma = some ⟨s.dmaR.rid, decide (s.dmaR.rLen = 0), respDecerr, Config.sentinel⟩ := by
  obtain ⟨⟨hs, hv⟩, hout⟩ : (s.dmaR.rstate = .sendData ∧ s.dmaR.rvalid = true) ∧
      s.decodes .dma s.dmaR.rCur = false := by
    simpa only [State.atReadOutside, Bool.and_eq_true, decide_eq_true_eq, Bool.not_eq_true'] using h
  rw [State.offersR_eq (p := .dma) hs hv]
  simp only [State.rm, hout]
  rfl

/-- A read access takes the beat on the wires. -/
theorem readAccess_eq_takeR {b : RBeat} (hb : s.offersR .dma = some b) {here : Bool} (hh : here = true) :
    readAccess here s = takeR .dma b s := by
  rw [readAccess, takeR, decide_eq_true hb, hh]

/-- A read access completes and hands over the beat on the wires; the engine makes the edge it makes without the access. -/
theorem readAccess_gives {b : RBeat} (hr : s.runs) (hb : s.offersR .dma = some b) {here : Bool} (hh : here = true) :
    ∃ t, readAccess here s = .next t ∧ t.dmaR.gaveR = some b ∧ t.eng = s.nextEng := by
  obtain ⟨t, hnext, hrm⟩ := takeR_gives hr hb
  obtain ⟨-, -, rfl⟩ := State.clock_eq_next_iff.1 hnext
  refine ⟨_, (readAccess_eq_takeR hb hh).trans hnext, ?_, ?_⟩
  · exact (congrArg ReadMachine.gaveR hrm).trans (ReadMachine.give_gaveR _ b)
  · simpa using congrArg State.nextEng (State.drivePort_writeView (s := s) (p := .dma)
      (f := fun q => { q with rready := decide (s.offersR .dma = some b) }) fun _ => rfl)

/-- An edge without a register write keeps `int_pend` (R299, R300). -/
theorem State.nextEng_intPend_of_no_beat (hrst : s.inputs.rst = false) (hw : s.inputs.dma.w = none)
    (hp : s.eng.irq.intPend = true) : s.nextEng.irq.intPend = true := by
  rw [State.nextEng, hrst, State.regWrite_of_no_beat hw]
  simp [Engine.next, clearPulse, nextIntPend_no_clear, hp]

end

/-! ## The bits of the two programmable words -/

/-- The bits of `reg_addr` that are not reserved (R233). -/
theorem getLsbD_addrMask : ∀ j < 32, (0xFFFFFFF8 : Word).getLsbD j = decide (3 ≤ j) := by decide

/-- Clearing the low three bits keeps the upper 29 (R234). -/
theorem and_addrMask (v : Word) : v &&& 0xFFFFFFF8 = (v.extractLsb' 3 29 ++ 0#3 : BitVec 32) := by
  refine BitVec.eq_of_getLsbD_eq fun j hj => ?_
  rw [BitVec.getLsbD_and, getLsbD_addrMask j hj, BitVec.getLsbD_append, BitVec.getLsbD_extractLsb']
  by_cases h : j < 3
  · simp [h]
  · have hupper : 3 + (j - 3) = j := by omega
    have hlt : j - 3 < 29 := by omega
    simp [h, hupper, hlt, Nat.not_lt.1 h]

/-- A write of `reg_addr` merges the enabled lanes above the reserved bits (R233). -/
theorem DmaRegs.getLsbD_writeAddr (r : DmaRegs) (be : BitVec 4) (d : Word) {j : Nat} (h : j < 32) :
    (r.writeAddr be d).addr.getLsbD j =
      if j < 3 then false else if be.getLsbD (j / 8) then d.getLsbD j else r.addr.getLsbD j := by
  rw [DmaRegs.writeAddr, BitVec.getLsbD_and, getLsbD_addrMask j h]
  by_cases h3 : j < 3
  · simp [h3]
  · simp only [h3, Nat.not_lt.1 h3, BitVec.getLsbD_eq_getElem h, getElem_mergeLanes _ _ _ h, decide_true, Bool.and_true,
      if_false]

/-- Bit `j` of the low `w` bits of a word. -/
theorem getLsbD_lowBits (w : Nat) (v : Word) {j : Nat} (h : j < 32) :
    (lowBits w v).getLsbD j = if w ≤ j then false else v.getLsbD j := by
  rw [lowBits, BitVec.getLsbD_ofNat, Nat.testBit_mod_two_pow, BitVec.testBit_toNat]
  by_cases hj : w ≤ j
  · simp [hj]
  · simp [hj, h, Nat.not_le.1 hj]

/-- A write of `reg_count` merges the enabled lanes below `COUNT_W` (R235). -/
theorem DmaRegs.getLsbD_writeCount (c : Config) (r : DmaRegs) (be : BitVec 4) (d : Word) {j : Nat} (h : j < 32) :
    (r.writeCount c be d).count.getLsbD j =
      if c.countW ≤ j then false else if be.getLsbD (j / 8) then d.getLsbD j else r.count.getLsbD j := by
  simp only [DmaRegs.writeCount, getLsbD_lowBits _ _ h, BitVec.getLsbD_eq_getElem h, getElem_mergeLanes _ _ _ h]

/-! ## The engine at an edge with a register write -/

section
variable (c : Config) (e : Engine) {i j : Inputs} (fifo : List DWord) {wr : Option RegWrite} (o : Bool)

/-- The engine sees no pin of a slave. -/
theorem Engine.next_congr (ha : i.mAwready = j.mAwready) (hw : i.mWready = j.mWready) (hb : i.mB = j.mB) :
    e.next c i fifo wr o = e.next c j fifo wr o := by
  simp only [Engine.next, Engine.addrHandshake, Engine.dataHandshake, ha, hw, hb]
  rfl

/-- A register write that is no start changes the configuration and the pending bit, nothing else of the edge. -/
theorem Engine.next_of_no_start (h : startPulse wr = false) :
    e.next c i fifo wr o = { e.next c i fifo none o with
      regs := e.regs.next c wr
      irq := ⟨e.busy, nextIntPend e.completionEdge e.regs.intEn (clearPulse wr) e.irq.intPend⟩ } := by
  have hs : e.starts wr = e.starts none := by rw [Engine.starts, h]; rfl
  simp only [Engine.next, hs]

/-- Without a write-1-to-clear the interrupt registers make the edge they make without a register write (R298, R299). -/
theorem Engine.next_irq_of_no_clear (h : clearPulse wr = false) : (e.next c i fifo wr o).irq = e.restIrq := by
  simp [Engine.next, h, nextIntPend_no_clear, Engine.restIrq, Engine.completionEdge]

end

section
variable {s : State}

/-- Driving a slave reaches the engine through the register write alone. -/
theorem State.drivePort_nextEng (hrst : s.inputs.rst = false) (p : Port) (f : SlaveIn → SlaveIn) :
    (s.drivePort p f).nextEng =
      s.eng.next s.cfg s.inputs s.fifo (s.drivePort p f).regWrite (Config.outlastsStart s.cycle) := by
  have hlow : (s.drivePort p f).inputs.rst = false := by simpa using hrst
  rw [State.nextEng, hlow]
  exact Engine.next_congr _ _ _ _ (by simp) (by simp) (by simp)

/-! ## The edge without the register write -/

theorem State.withoutRegWrite_nextEng (hrst : s.inputs.rst = false) :
    s.withoutRegWrite.nextEng = s.eng.next s.cfg s.inputs s.fifo none (Config.outlastsStart s.cycle) := by
  rw [← s.withoutRegWrite_regWrite]
  exact State.drivePort_nextEng hrst _ _

/-- Without the register write the configuration is kept. -/
theorem State.withoutRegWrite_nextEng_regs (hrst : s.inputs.rst = false) : s.withoutRegWrite.nextEng.regs = s.eng.regs := by
  rw [State.withoutRegWrite_nextEng hrst]
  rfl

/-- Without the register write the pending bit is left to the completion edge (R299). -/
theorem State.withoutRegWrite_nextEng_irq (hrst : s.inputs.rst = false) : s.withoutRegWrite.nextEng.irq = s.eng.restIrq := by
  rw [State.withoutRegWrite_nextEng hrst]
  exact Engine.next_irq_of_no_clear _ _ _ _ rfl

/-- Without the register write, and with nothing else on the pins, the engine rests. -/
theorem State.withoutRegWrite_nextEng_of_quiet (h : s.quiet) : s.withoutRegWrite.nextEng = s.eng.rest := by
  obtain ⟨-, hidle⟩ := h
  rw [State.withoutRegWrite_nextEng (by rw [hidle]; rfl), hidle]
  exact Engine.next_idle _ _ _ _ rfl rfl rfl _

/-- Taking the write beat off the pins takes no command off them. -/
theorem State.withoutRegWrite_portBreach (q : Port) : s.withoutRegWrite.portBreach q = s.portBreach q := by
  cases q <;> simp [State.portBreach, State.capturesW, State.capturesR, State.resetsW, State.resetsR, State.resetReaches,
    WriteMachine.captures, ReadMachine.captures, Inputs.port] <;> rfl

/-- An edge that runs still does without the register write. -/
theorem step_withoutRegWrite (hr : s.runs) : step s.withoutRegWrite = .next s.withoutRegWrite.edge := by
  obtain ⟨hwf, hrst, hbr⟩ := hr
  obtain ⟨hports, -⟩ := State.breach_eq_none_iff.1 hbr
  refine step_eq_next_edge ⟨hwf, by simpa using hrst, State.breach_eq_none_iff.2 ⟨fun q => ?_, ?_⟩⟩
  · rw [State.withoutRegWrite_portBreach, hports q]
  · simp [State.engineBreach, Engine.breach, Engine.starts, startPulse]

/-! ## Write accesses -/

/-- The register write of a beat at word `k` (R230). -/
theorem State.withBeat_regWrite_of_atWriteOf {k : Nat} (hrst : s.inputs.rst = false) (h : s.atWriteOf k = true)
    (b : WBeat) : (s.withBeat .dma b).regWrite = some ⟨k, b.strb, b.data⟩ := by
  obtain ⟨hw, hy, hin, hcell⟩ := State.atWriteOf_iff.1 h
  rw [State.withBeat_regWrite_dma hrst hw hy, if_pos hin, hcell]

/-- A beat outside the six words writes no register (R246). -/
theorem State.withBeat_regWrite_of_outside (hrst : s.inputs.rst = false) (h : s.atWriteOutside = true) (b : WBeat) :
    (s.withBeat .dma b).regWrite = none := by
  obtain ⟨hw, hy, hout⟩ := State.atWriteOutside_iff.1 h
  rw [State.withBeat_regWrite_dma hrst hw hy, hout]
  rfl

/-- A write access offers its beat to the slave. -/
theorem writeAccess_eq_offerW {here : Bool} (hh : here = true) (b : WBeat) : writeAccess here b s = offerW .dma b s := by
  rw [hh]
  rfl

section
variable {here : Bool} {b : WBeat} (hr : s.runs) (hw : s.dmaW.wstate = .waitData) (hy : s.dmaW.wready = true)
  (h3 : s.atWriteOf 3 = false)
include hr hw hy h3

/-- A write access away from the control word completes. -/
theorem writeAccess_eq_next (hh : here = true) : writeAccess here b s = .next (s.withBeat .dma b).edge := by
  obtain ⟨hwf, -, hbr⟩ := State.runs_withAcceptedBeat (p := .dma) (b := b) hr hw hy fun _ h => absurd h (by simp [h3])
  rw [writeAccess_eq_offerW hh, offerW_eq_clock]
  exact State.clock_eq_next_iff.2 ⟨hwf, hbr, rfl⟩

/-- A write access away from the control word leaves the engine the edge it makes without it, but for the configuration
and the pending bit. -/
theorem State.withBeat_nextEng : (s.withBeat .dma b).nextEng =
    { s.withoutRegWrite.nextEng with
      regs := s.eng.regs.next s.cfg (s.withBeat .dma b).regWrite
      irq := ⟨s.eng.busy, nextIntPend s.eng.completionEdge s.eng.regs.intEn (clearPulse (s.withBeat .dma b).regWrite)
        s.eng.irq.intPend⟩ } := by
  obtain ⟨-, hrst, -⟩ := hr
  have hstart : startPulse (s.withBeat .dma b).regWrite = false := by
    refine Bool.eq_false_iff.2 fun hpulse => ?_
    obtain ⟨hat, -⟩ := State.withBeat_startPulse hrst hw hy hpulse
    rw [h3] at hat
    cases hat
  rw [State.withoutRegWrite_nextEng hrst, ← Engine.next_of_no_start _ _ _ _ hstart]
  exact State.drivePort_nextEng hrst _ _

/-- If the access clears nothing either, only the configuration is written. -/
theorem State.withBeat_nextEng_of_no_clear (hc : clearPulse (s.withBeat .dma b).regWrite = false) :
    (s.withBeat .dma b).nextEng =
      { s.withoutRegWrite.nextEng with regs := s.eng.regs.next s.cfg (s.withBeat .dma b).regWrite } := by
  have hrst : s.inputs.rst = false := hr.2.1
  have hirq := State.withoutRegWrite_nextEng_irq hrst
  rw [State.withBeat_nextEng hr hw hy h3, hc, nextIntPend_no_clear]
  rw [Engine.restIrq] at hirq
  simp only [Engine.completionEdge, ← hirq]

end

/-- A write access of a word other than control and interrupt-status completes, and the engine makes the edge it makes
without the access, the word written into the configuration. -/
theorem writeAccess_configures {k : Nat} (b : WBeat) (hr : s.runs) (h : s.atWriteOf k = true) (h3 : k ≠ 3) (h5 : k ≠ 5) :
    writeAccess (s.atWriteOf k) b s = .next (s.withBeat .dma b).edge ∧ (s.withBeat .dma b).nextEng =
      { s.withoutRegWrite.nextEng with regs := s.eng.regs.next s.cfg (some ⟨k, b.strb, b.data⟩) } := by
  obtain ⟨hw, hy, -, -⟩ := State.atWriteOf_iff.1 h
  have hnot := State.atWriteOf_ne h h3
  have hrst : s.inputs.rst = false := hr.2.1
  have hwr := State.withBeat_regWrite_of_atWriteOf hrst h b
  refine ⟨writeAccess_eq_next hr hw hy hnot h, ?_⟩
  rw [State.withBeat_nextEng_of_no_clear hr hw hy hnot (by simp [hwr, clearPulse, h5]), hwr]

end

end Sys2Proof.Machine

open Sys2Proof Sys2Proof.Machine

/-- Settles O23: a write access offers the same beat where the machine is at the word, and a read access takes the beat the
wires then show. -/
theorem registerAccessIsABeat : Obligations.RegisterAccessIsABeat := by
  rintro s last be d i b k rfl
  refine ⟨fun hat hi => ?_, fun hat hi => ?_⟩
  · have hbeat : exec (if last then .wLast .dma be d else .wBeat .dma be d) s = offerW .dma ⟨last, be, d⟩ s := by
      cases last <;> rfl
    obtain ⟨hexec, henc⟩ : exec i s = writeAccess (s.atWriteOf k) ⟨last, be, d⟩ s ∧
        (encode i).chan = .reg ∧ (encode i).word = BitVec.ofNat 80 (8 + k) := by
      rcases hi with ⟨rfl, rfl⟩ | ⟨rfl, rfl⟩ | ⟨rfl, rfl⟩ | ⟨rfl, rfl⟩ | ⟨rfl, rfl⟩ | ⟨rfl, rfl⟩ <;>
        exact ⟨exec_eq _ s, rfl, rfl⟩
    exact ⟨by rw [hexec, hbeat, writeAccess_eq_offerW hat], henc⟩
  · obtain ⟨hexec, henc⟩ : exec i s = readAccess (s.atReadOf k) s ∧
        (encode i).chan = .reg ∧ (encode i).word = BitVec.ofNat 80 k := by
      rcases hi with ⟨rfl, rfl⟩ | ⟨rfl, rfl⟩ | ⟨rfl, rfl⟩ | ⟨rfl, rfl⟩ | ⟨rfl, rfl⟩ | ⟨rfl, rfl⟩ <;>
        exact ⟨exec_eq _ s, rfl, rfl⟩
    exact ⟨by rw [hexec, readAccess_eq_takeR (State.offersR_of_atReadOf hat) hat, exec_eq], henc⟩

/-- Settles O24: the beat on the wires carries the word's value, and the engine's edge does not depend on its being taken. -/
theorem statedRegisterReads : Obligations.StatedRegisterReads := by
  intro s hr
  have hrst : s.inputs.rst = false := hr.2.1
  refine ⟨fun hat => ?_, fun hat => ?_, fun hat => ?_, fun hat o => ?_⟩
  · obtain ⟨t, hnext, hgave, -⟩ := readAccess_gives hr (State.offersR_of_atReadOf hat) hat
    have hvalue : s.eng.readReg 0 = (s.eng.regs.addr.extractLsb' 3 29 ++ 0#3 : BitVec 32) := and_addrMask _
    exact ⟨t, (exec_eq _ s).trans hnext, hvalue ▸ hgave⟩
  · obtain ⟨t, hnext, hgave, -⟩ := readAccess_gives hr (State.offersR_of_atReadOf hat) hat
    exact ⟨t, (exec_eq _ s).trans hnext, hgave⟩
  · obtain ⟨t, hnext, hgave, heng⟩ := readAccess_gives hr (State.offersR_of_atReadOf hat) hat
    exact ⟨t, (exec_eq _ s).trans hnext, hgave, heng ▸ State.nextEng_intPend_of_no_beat hrst⟩
  · obtain ⟨t, hnext, hgave, -⟩ := readAccess_gives hr (State.offersR_of_atReadOutside hat) hat
    exact ⟨t, (exec_eq _ s).trans hnext, hgave⟩

/-- Settles O26: the write merges the lanes into `reg_addr` and is no start, so the rest of the engine makes its edge. -/
theorem addressRegisterWrite : Obligations.AddressRegisterWrite := by
  intro s last be d hr hat
  obtain ⟨hnext, heng⟩ := writeAccess_configures ⟨last, be, d⟩ hr hat (by decide) (by decide)
  refine ⟨_, _, (exec_eq _ s).trans hnext, step_withoutRegWrite hr, ?_⟩
  rw [State.edge_eng, State.edge_eng, heng]
  exact ⟨fun j hj => DmaRegs.getLsbD_writeAddr _ be d hj, rfl, rfl, rfl,
    fun hq => by rw [State.withoutRegWrite_nextEng_of_quiet hq]⟩

/-- Settles O27: the write merges the lanes into `reg_count` below `COUNT_W` and is no start. -/
theorem countRegisterWrite : Obligations.CountRegisterWrite := by
  intro s last be d hr hat
  obtain ⟨hnext, heng⟩ := writeAccess_configures ⟨last, be, d⟩ hr hat (by decide) (by decide)
  refine ⟨_, _, (exec_eq _ s).trans hnext, step_withoutRegWrite hr, ?_⟩
  rw [State.edge_eng, State.edge_eng, heng]
  exact ⟨fun j hj => DmaRegs.getLsbD_writeCount _ _ be d hj, rfl, rfl, rfl,
    fun hq => by rw [State.withoutRegWrite_nextEng_of_quiet hq]⟩

/-- Settles O28: neither access writes the configuration, starts or clears; the beat outside latches the decode error. -/
theorem writesThatChangeNothing : Obligations.WritesThatChangeNothing := by
  intro s last be d hr
  have hrst : s.inputs.rst = false := hr.2.1
  have hregs := State.withoutRegWrite_nextEng_regs hrst
  refine ⟨fun hat => ?_, fun hat o => ?_⟩
  · obtain ⟨hw, hy, hin, -⟩ := State.atWriteOf_iff.1 hat
    obtain ⟨hnext, heng⟩ := writeAccess_configures ⟨last, be, d⟩ hr hat (by decide) (by decide)
    have hsame : (s.withBeat .dma ⟨last, be, d⟩).nextEng = s.withoutRegWrite.nextEng := by
      rw [heng, ← hregs]
      rfl
    refine ⟨_, _, (exec_eq _ s).trans hnext, step_withoutRegWrite hr, ?_, ?_⟩
    · rw [State.edge_dmaW, State.withBeat_nextW (p := .dma) hrst hw hy]
      exact if_pos hin
    · rw [State.edge_eng, State.edge_eng, hsame]
      exact ⟨hregs, rfl, State.withoutRegWrite_nextEng_of_quiet⟩
  · obtain ⟨hw, hy, hout⟩ := State.atWriteOutside_iff.1 hat
    have hnot := State.atWriteOf_of_outside hat 3
    have hnone := State.withBeat_regWrite_of_outside hrst hat ⟨last, be, d⟩
    have hsame : (s.withBeat .dma ⟨last, be, d⟩).nextEng = s.withoutRegWrite.nextEng := by
      rw [State.withBeat_nextEng_of_no_clear hr hw hy hnot (by rw [hnone]; rfl), hnone, ← hregs]
      rfl
    refine ⟨_, _, (exec_eq _ s).trans (writeAccess_eq_next hr hw hy hnot hat), step_withoutRegWrite hr, ?_, ?_⟩
    · rw [State.edge_dmaW, State.withBeat_nextW (p := .dma) hrst hw hy]
      exact if_neg (ne_true_of_eq_false hout)
    · rw [State.edge_eng, State.edge_eng, hsame]
      exact ⟨hregs, rfl, State.withoutRegWrite_nextEng_of_quiet⟩

/-- Settles O29: the write sets the enable after the edge's completion test has used the old one (R8), so the interrupt
registers make the edge they make without it. -/
theorem interruptEnableWrite : Obligations.InterruptEnableWrite := by
  intro s last be d hr hat
  have hrst : s.inputs.rst = false := hr.2.1
  obtain ⟨hnext, heng⟩ := writeAccess_configures ⟨last, be, d⟩ hr hat (by decide) (by decide)
  have hpend : (s.withBeat .dma ⟨last, be, d⟩).nextEng.irq.intPend = s.eng.restIrq.intPend := by
    rw [heng, ← State.withoutRegWrite_nextEng_irq hrst]
  refine ⟨_, _, (exec_eq _ s).trans hnext, step_withoutRegWrite hr, ?_⟩
  simp only [State.engineOut, State.edge_eng, hpend]
  rw [heng]
  refine ⟨rfl, rfl, rfl, fun hp => ?_, fun hno => ?_, rfl, fun hq => ?_⟩
  · simp [Engine.restIrq, hp]
  · have hedge : (s.eng.irq.busyPrev && !s.eng.busy) = false := Bool.eq_false_iff.2 fun h => hno (by simpa using h)
    rw [Engine.restIrq, hedge]
    exact Bool.or_false _
  · rw [State.withoutRegWrite_nextEng_of_quiet hq]

/-- Settles O30: the write reaches the pending bit through the write-1-to-clear, over which the completion edge wins. -/
theorem interruptStatusWrite : Obligations.InterruptStatusWrite := by
  intro s last be d hr hat
  have hrst : s.inputs.rst = false := hr.2.1
  obtain ⟨hw, hy, -, -⟩ := State.atWriteOf_iff.1 hat
  have hnot := State.atWriteOf_ne hat (by decide : 5 ≠ 3)
  have heng : (s.withBeat .dma ⟨last, be, d⟩).nextEng = { s.withoutRegWrite.nextEng with
      irq := ⟨s.eng.busy, nextIntPend s.eng.completionEdge s.eng.regs.intEn (be.getLsbD 0 && d.getLsbD 0)
        s.eng.irq.intPend⟩ } := by
    rw [State.withBeat_nextEng hr hw hy hnot, State.withBeat_regWrite_of_atWriteOf hrst hat,
      ← State.withoutRegWrite_nextEng_regs hrst]
    rfl
  refine ⟨_, _, (exec_eq _ s).trans (writeAccess_eq_next hr hw hy hnot hat), step_withoutRegWrite hr, ?_⟩
  rw [State.edge_eng, State.edge_eng, heng]
  refine ⟨fun hprev hbusy hen => ?_, fun hno => ?_, State.withoutRegWrite_nextEng_regs hrst, rfl, fun hq => ?_⟩
  · simp [nextIntPend, Engine.completionEdge, hprev, hbusy, hen]
  · have hedge : (s.eng.completionEdge && s.eng.regs.intEn) = false :=
      Bool.eq_false_iff.2 fun h => hno (by simpa [Engine.completionEdge, and_assoc] using h)
    simp only [nextIntPend, hedge]
    rfl
  · rw [State.withoutRegWrite_nextEng_of_quiet hq]

end

section
/-! PROOF. The handovers of the engine to the memory bus (spec 46_dma_burst_splitter.md): a cycle that differs in pins of
that bus only breaks no other duty, so the handover completes and the engine makes its move. -/

namespace Sys2Proof.Machine

/-! ## Driving pins of the memory bus -/

section
variable {s : State} {f : Inputs → Inputs} (hrst : (f s.inputs).rst = s.inputs.rst)
include hrst

theorem State.drive_resetsW_of_rst (p : Port) : (s.drive f).resetsW p = s.resetsW p := by
  cases p <;> simp [State.resetsW, State.resetReaches, hrst]

theorem State.drive_resetsR_of_rst (p : Port) : (s.drive f).resetsR p = s.resetsR p := by
  cases p <;> simp [State.resetsR, State.resetReaches, hrst]

variable (hport : ∀ p, (f s.inputs).port p = s.inputs.port p)
include hport

/-- The slaves capture and accept what they do without the drive. -/
theorem State.drive_slaves_of_ports (p : Port) : (s.drive f).capturesW p = s.capturesW p ∧
    (s.drive f).capturesR p = s.capturesR p ∧ (s.drive f).acceptsW p = s.acceptsW p := by
  simp [State.capturesW, State.capturesR, State.acceptsW, State.drive_resetsW_of_rst hrst,
    State.drive_resetsR_of_rst hrst, hport]

theorem State.drive_regWrite_of_ports : (s.drive f).regWrite = s.regWrite := by
  obtain ⟨-, -, haccepts⟩ := State.drive_slaves_of_ports hrst hport .dma
  rw [State.regWrite, haccepts]
  rfl

theorem State.drive_breach_of_ports : (s.drive f).breach = s.breach := by
  have hslave (p : Port) : (s.drive f).portBreach p = s.portBreach p := by
    obtain ⟨hW, hR, -⟩ := State.drive_slaves_of_ports hrst hport p
    rw [State.portBreach, hW, hR, State.portBreach]
  have heng : (s.drive f).engineBreach = s.engineBreach := by
    simp [State.engineBreach, State.drive_regWrite_of_ports hrst hport, hrst]
  simp only [State.breach, hslave, heng]

/-- An edge that runs still does when pins of the memory bus are driven; the engine moves on the pins driven. -/
theorem State.drive_clock_of_ports (hr : s.runs) : ∃ t, (s.drive f).clock = .next t ∧
    t.eng = s.eng.next s.cfg ((f s.inputs).fit s.cfg) s.fifo s.regWrite (Config.outlastsStart s.cycle) := by
  obtain ⟨hwf, hlow, hbr⟩ := hr
  refine ⟨_, State.clock_eq_next_iff.2 ⟨hwf, (State.drive_breach_of_ports hrst hport).trans hbr, rfl⟩, ?_⟩
  rw [State.edge_eng, State.nextEng, State.drive_regWrite_of_ports hrst hport, State.drive_inputs, Inputs.fit_rst, hrst,
    hlow]
  rfl

end

section
variable {s : State} (hr : s.runs)
include hr

/-- Taking the address on offer completes, and the engine moves with `m_awready` up. -/
theorem takeMAw_completes {a : AxCmd} (ha : s.eng.offersAw s.cfg = some a) : ∃ t, takeMAw a s = .next t ∧
    t.eng = s.eng.next s.cfg { s.inputs with mAwready := true } s.fifo s.regWrite (Config.outlastsStart s.cycle) := by
  have hpins : ({ s.inputs with mAwready := true } : Inputs).fit s.cfg = { s.inputs with mAwready := true } :=
    congrArg (fun i : Inputs => { i with mAwready := true }) s.inputs_fit
  rw [takeMAw, decide_eq_true ha, ← hpins]
  exact State.drive_clock_of_ports (f := fun i => { i with mAwready := true }) rfl (fun p => by cases p <;> rfl) hr

/-- Taking the data beat on offer completes, and the engine moves with `m_wready` up. -/
theorem takeMW_completes {b : MBeat} (hb : s.eng.offersW s.fifo = some b) : ∃ t, takeMW b s = .next t ∧
    t.eng = s.eng.next s.cfg { s.inputs with mWready := true } s.fifo s.regWrite (Config.outlastsStart s.cycle) := by
  have hpins : ({ s.inputs with mWready := true } : Inputs).fit s.cfg = { s.inputs with mWready := true } :=
    congrArg (fun i : Inputs => { i with mWready := true }) s.inputs_fit
  rw [takeMW, decide_eq_true hb, ← hpins]
  exact State.drive_clock_of_ports (f := fun i => { i with mWready := true }) rfl (fun p => by cases p <;> rfl) hr

end

/-! ## What the engine offers -/

theorem Engine.offersAw_of_awvalid {e : Engine} (h : e.ac.awvalid = true) (c : Config) :
    e.offersAw c = some ⟨c.mId, e.ac.awaddr, e.ac.awlen, 3, burstIncr⟩ := if_pos h

theorem Engine.offersW_of_run {e : Engine} (hrun : e.dstate = .run) (hrem : e.dc.dRem ≠ 0) (d : DWord)
    (rest : List DWord) : e.offersW (d :: rest) = some ⟨decide (e.dc.bRem = 1), d⟩ := if_pos ⟨hrun, hrem⟩

/-! ## The engine at a handover -/

/-- A start pulse in `RUN` is lost (R266). -/
theorem Engine.starts_of_run {e : Engine} (hrun : e.dstate = .run) (wr : Option RegWrite) : e.starts wr = false := by
  simp [Engine.starts, hrun]

/-- With an address handed over, the counter holds if a response comes at the same edge and counts up otherwise (R291). -/
theorem nextInflight_of_inc (c : Config) (inflight : Nat) (dec : Bool) :
    nextInflight c inflight true dec = if dec then inflight else (inflight + 1) % 2 ^ c.inflW := by
  cases dec <;> rfl

section
variable {e : Engine} {i : Inputs} {fifo : List DWord} (c : Config) (wr : Option RegWrite) (o : Bool)
  (hrun : e.dstate = .run)
include hrun

/-- An address handed over in `RUN` moves the address channel and is counted (R270, R291). -/
theorem Engine.next_of_addrHandshake (hv : e.ac.awvalid = true) (hready : i.mAwready = true) :
    (e.next c i fifo wr o).ac = e.ac.handshake ∧ (e.next c i fifo wr o).gaveAw = e.offersAw c ∧
    (e.next c i fifo wr o).trk.inflight =
      if i.mB.isSome then e.trk.inflight else (e.trk.inflight + 1) % 2 ^ c.inflW := by
  have hshake : e.addrHandshake i = true := by rw [Engine.addrHandshake, hv, hready]; rfl
  refine ⟨?_, ?_, ?_⟩
  · simp [Engine.next, Engine.starts_of_run hrun, hrun, hshake]
  · simp [Engine.next, hready]
  · simp only [Engine.next, Tracker.next, hshake, nextInflight_of_inc]

/-- A data word handed over in `RUN` moves the data channel (R273). -/
theorem Engine.next_dc_of_dataHandshake (hshake : (e.dataHandshake i fifo).isSome) :
    (e.next c i fifo wr o).dc = e.dc.handshake := by
  simp [Engine.next, Engine.starts_of_run hrun, hshake]

end

/-! ## The address channel after a handover -/

section
variable {a : AddrChannel}

/-- With more than 15 words left a full burst follows (R270, R271). -/
theorem AddrChannel.handshake_of_full (hv : a.awvalid = true) (h : 15 < a.aRem) :
    a.handshake = ⟨true, a.nextAddr, 15, a.aRem - 16, a.addrDone⟩ := by
  rw [AddrChannel.handshake, if_pos h, hv]

/-- With 1 to 15 words left the final burst follows. -/
theorem AddrChannel.handshake_of_final (hv : a.awvalid = true) (hpos : 0 < a.aRem) (h : a.aRem ≤ 15) :
    a.handshake = ⟨true, a.nextAddr, BitVec.ofNat 4 (a.aRem - 1), 0, a.addrDone⟩ := by
  rw [AddrChannel.handshake, if_neg (Nat.not_lt.2 h), if_pos hpos, hv]

/-- With no word left the addresses are done (R272). -/
theorem AddrChannel.handshake_of_none (h : a.aRem = 0) : a.handshake = ⟨false, a.awaddr, a.awlen, 0, true⟩ := by
  simp [AddrChannel.handshake, h]

end

/-! ## The data channel after a handover -/

/-- Inside a burst the beats left fall by one (R273). -/
theorem DataChannel.handshake_bRem_of_inside {d : DataChannel} (h : d.bRem ≠ 1) :
    d.handshake.bRem = d.bRem - 1 := if_neg h

/-- At the last beat of a burst the next burst's length is looked ahead from the words then left (R273). -/
theorem DataChannel.handshake_bRem_of_last {d : DataChannel} (h : d.bRem = 1) :
    d.handshake.bRem = if 15 < d.handshake.dRem then 16 else BitVec.ofNat 5 d.handshake.dRem := if_pos h

/-- DMA.W or DMA.WLAST, as `b_rem` says, takes the beat the engine offers for the word `d`. -/
theorem exec_dmaW_or_dmaWlast {i : Instr} {d : DWord} {s : State}
    (h : (i = .dmaW d ∧ s.eng.dc.bRem ≠ 1) ∨ (i = .dmaWlast d ∧ s.eng.dc.bRem = 1)) :
    exec i s = takeMW ⟨decide (s.eng.dc.bRem = 1), d⟩ s := by
  rcases h with ⟨rfl, hb⟩ | ⟨rfl, hb⟩
  · rw [decide_eq_false hb, exec_eq]
  · rw [decide_eq_true hb, exec_eq]

end Sys2Proof.Machine

open Sys2Proof Sys2Proof.Machine

/-- Settles O35: the memory takes the burst on offer, and the address channel makes the one of its three moves that the
words left decide. -/
theorem addressHandshakeDecidesTheNextBurst : Obligations.AddressHandshakeDecidesTheNextBurst := by
  intro s hr hrun hv
  have hoffer := Engine.offersAw_of_awvalid hv s.cfg
  obtain ⟨t, hnext, heng⟩ := takeMAw_completes hr hoffer
  obtain ⟨hac, hgave, hinflight⟩ := Engine.next_of_addrHandshake (i := { s.inputs with mAwready := true })
    (fifo := s.fifo) s.cfg s.regWrite (Config.outlastsStart s.cycle) hrun hv rfl
  refine ⟨t, (exec_eq _ s).trans hnext, ?_⟩
  rw [heng, hac, hgave]
  exact ⟨hoffer, hinflight, AddrChannel.handshake_of_full hv, AddrChannel.handshake_of_final hv,
    AddrChannel.handshake_of_none⟩

/-- Settles O36: the memory takes the beat on offer, and the data channel counts it. -/
theorem dataHandshakeCountsTheWord : Obligations.DataHandshakeCountsTheWord := by
  intro s d rest i hr hrun hrem hfifo hi
  have hoffer : s.eng.offersW s.fifo = some ⟨decide (s.eng.dc.bRem = 1), d⟩ :=
    hfifo ▸ Engine.offersW_of_run hrun hrem d rest
  obtain ⟨t, hnext, heng⟩ := takeMW_completes hr hoffer
  have hdc : t.eng.dc = s.eng.dc.handshake :=
    heng ▸ Engine.next_dc_of_dataHandshake _ _ _ hrun (Option.isSome_of_eq_some hoffer)
  refine ⟨t, (exec_dmaW_or_dmaWlast hi).trans hnext, ?_⟩
  rw [hdc]
  exact ⟨Nat.sub_one_add_one hrem, DataChannel.handshake_bRem_of_inside, DataChannel.handshake_bRem_of_last⟩

end

section
/-! PROOF. The in-flight counter (spec 47_dma_response_tracker.md section 1): the tracker counts at every edge that runs,
whatever the engine's state, and what the counter does is read off case by case. -/

namespace Sys2Proof.Machine

/-- An address and a response at one edge, or neither, leave the counter (R291). -/
theorem nextInflight_of_eq {inc dec : Bool} (h : inc = dec) (c : Config) (inflight : Nat) :
    nextInflight c inflight inc dec = inflight := if_pos h

/-- A response alone counts down; at 0 the truncated subtraction stays at 0 (R291, U8). -/
theorem nextInflight_of_response (c : Config) (inflight : Nat) :
    nextInflight c inflight false true = inflight - 1 := rfl

/-- Without reset the counter follows the two handshakes of the edge, in either state of the engine (R291). -/
theorem State.nextEng_inflight {s : State} (hrst : s.inputs.rst = false) :
    s.nextEng.trk.inflight =
      nextInflight s.cfg s.eng.trk.inflight (s.eng.addrHandshake s.inputs) s.inputs.mB.isSome := by
  rw [State.nextEng, hrst]
  rfl

end Sys2Proof.Machine

open Sys2Proof Sys2Proof.Machine

/-- Settles O39: an edge that runs makes the counter's move, which is read off for each of the four combinations. -/
theorem inflightCountsAddressesLessResponses : Obligations.InflightCountsAddressesLessResponses := by
  intro s inc dec hr hinc hdec
  have hcount : s.edge.eng.trk.inflight = nextInflight s.cfg s.eng.trk.inflight inc dec := by
    rw [hinc, hdec]
    exact State.nextEng_inflight hr.2.1
  refine ⟨s.edge, step_eq_next_edge hr, ?_⟩
  rw [hcount]
  refine ⟨fun heq => nextInflight_of_eq heq _ _, ?_, ?_, ?_⟩
  · rintro rfl rfl
    exact nextInflight_of_inc _ _ false
  · rintro rfl rfl howed
    rw [nextInflight_of_response]
    exact Nat.sub_one_add_one howed
  · rintro rfl rfl hnone
    rw [nextInflight_of_response, hnone]

end

section
/-! PROOF. The packed words both ways (spec 30_encoding.md sections 3 and 4): an operation's transfer decodes to it, and a
transfer that decodes carries the word of what it decodes to. -/

namespace Sys2Proof

/-! ## An operation's transfer decodes to it -/

/-- The low three bits of a multiple of 8 are zero (R103). -/
theorem extractLsb'_low_of_mod_eight {addr : Word} (h : addr.toNat % 8 = 0) : addr.extractLsb' 0 3 = 0 := by
  apply BitVec.eq_of_toNat_eq
  simpa [BitVec.extractLsb'_toNat] using h

/-- A command of the engine with an 8-byte aligned address is the row `DMA.AW` (R103, R261). -/
theorem decodeMAw_of_aligned {addr : Word} (h : addr.toNat % 8 = 0) (id : Nat) (len : BitVec 4) :
    decodeMAw ⟨id, addr, len, 3, burstIncr⟩ = .ok (.dmaAw id len addr) :=
  if_pos ⟨rfl, rfl, extractLsb'_low_of_mod_eight h⟩

/-- The row `011o` is read back, whatever the beat beside it. -/
theorem decodeReg_unmapped_read (o : BitVec 1) (b : WBeat) :
    decodeReg (regWord false (0b11#2 ++ o)) b = .rdUnmapped o := by
  obtain rfl | rfl := BitVec.eq_zero_or_eq_one o <;> rfl

/-- The row `111o` is read back with the beat beside it. -/
theorem decodeReg_unmapped_write (o : BitVec 1) (b : WBeat) :
    decodeReg (regWord true (0b11#2 ++ o)) b = .wrUnmapped o b.last b.strb b.data := by
  obtain rfl | rfl := BitVec.eq_zero_or_eq_one o <;> rfl

/-! ## A word is the packing of its fields -/

section
open BitVec

theorem AxCmd.pack_unpack (id : Nat) (w : BitVec 40) : (AxCmd.unpack id w).pack = w := by
  have hburst : w.extractLsb' 38 2 ++ w.extractLsb' 36 2 = w.extractLsb' 36 4 :=
    extractLsb'_append_extractLsb'_eq_extractLsb' rfl
  have hsize : w.extractLsb' 36 4 ++ w.extractLsb' 32 4 = w.extractLsb' 32 8 :=
    extractLsb'_append_extractLsb'_eq_extractLsb' rfl
  have hlen : w.extractLsb' 32 8 ++ w.extractLsb' 0 32 = w.extractLsb' 0 40 :=
    extractLsb'_append_extractLsb'_eq_extractLsb' rfl
  simp only [AxCmd.pack, AxCmd.unpack, hburst, hsize, hlen, extractLsb'_eq_self]

/-- A word is its top bit, its middle field and its low field. -/
theorem ofBool_append_extractLsb' {n m : Nat} (w : BitVec (1 + m + n)) :
    BitVec.ofBool (w.getLsbD (n + m)) ++ w.extractLsb' n m ++ w.extractLsb' 0 n = w := by
  have hmid : w.extractLsb' (n + m) 1 ++ w.extractLsb' n m = w.extractLsb' n (1 + m) :=
    extractLsb'_append_extractLsb'_eq_extractLsb' rfl
  have hlow : w.extractLsb' n (1 + m) ++ w.extractLsb' 0 n = w.extractLsb' 0 (1 + m + n) :=
    extractLsb'_append_extractLsb'_eq_extractLsb' (by simp)
  have htop : BitVec.ofBool (w.getLsbD (n + m)) = w.extractLsb' (n + m) 1 := by
    ext i hi
    simp [show i = 0 by omega]
  rw [htop, hmid, hlow, extractLsb'_eq_self]

theorem WBeat.pack_unpack (w : BitVec 37) : (WBeat.unpack w).pack = w :=
  ofBool_append_extractLsb' (n := 32) (m := 4) w

theorem RBeat.pack_unpack (id : Nat) (w : BitVec 35) : (RBeat.unpack id w).pack = w :=
  ofBool_append_extractLsb' (n := 32) (m := 2) w

/-- An engine's beat is packed from the fields of its word, whose strobes are all ones. -/
theorem MBeat.pack_of_strobes {w : BitVec 73} (h : w.extractLsb' 64 8 = 0xFF#8) :
    MBeat.pack ⟨w.getLsbD 72, w.extractLsb' 0 64⟩ = w := by
  have hw := ofBool_append_extractLsb' (n := 64) (m := 8) w
  rwa [h] at hw

end

/-- A payload with no bit above its format is the word widened (R102). -/
theorem setWidth_setWidth_of_fits {n : Nat} {w : BitVec 80} (h : w >>> n = 0) : (w.setWidth n).setWidth 80 = w := by
  apply BitVec.eq_of_getLsbD_eq
  intro i hi
  have hbit := congrArg (BitVec.getLsbD · (i - n)) h
  simp only [BitVec.getLsbD_ushiftRight] at hbit
  simp only [BitVec.getLsbD_setWidth, hi, decide_true, Bool.true_and]
  by_cases hn : i < n
  · simp [hn]
  · rw [show n + (i - n) = i by omega] at hbit
    simp [hn, hbit]

/-! ## What decodes carries the word of its encoding -/

section
variable (p : Port) {i : Instr}

theorem encode_decodeAw (c : AxCmd) : encode (decodeAw p c) = c.toAw p := by
  obtain ⟨id, addr, len, size, burst⟩ := c
  rcases Machine.burst_cases burst with rfl | rfl | rfl | rfl <;> rfl

theorem encode_decodeAr (c : AxCmd) : encode (decodeAr p c) = c.toAr p := by
  obtain ⟨id, addr, len, size, burst⟩ := c
  rcases Machine.burst_cases burst with rfl | rfl | rfl | rfl <;> rfl

theorem encode_decodeW (b : WBeat) : encode (decodeW p b) = b.toW p := by
  obtain ⟨last, strb, data⟩ := b
  cases last <;> rfl

theorem encode_of_decodeB {b : BResp} (h : decodeB p b = .ok i) : encode i = b.toB p := by
  obtain ⟨id, resp⟩ := b
  unfold decodeB at h
  split_ifs at h with hokay hdecerr
  · cases h; cases hokay; rfl
  · cases h; cases hdecerr; rfl

theorem encode_of_decodeR {b : RBeat} (h : decodeR p b = .ok i) : encode i = b.toR p := by
  obtain ⟨id, last, resp, data⟩ := b
  unfold decodeR at h
  split_ifs at h with hokay hdecerr
  · cases h; cases hokay; rfl
  · cases h; obtain ⟨rfl, rfl⟩ := hdecerr; rfl

theorem encode_of_decodeMAw {c : AxCmd} (h : decodeMAw c = .ok i) : encode i = c.toMAw := by
  obtain ⟨id, addr, len, size, burst⟩ := c
  unfold decodeMAw at h
  split_ifs at h with hengine
  cases h; obtain ⟨rfl, rfl, -⟩ := hengine; rfl

theorem encode_of_decodeMW {w : BitVec 73} (h : decodeMW w = .ok i) :
    (encode i).chan = .mW ∧ (encode i).word = w.setWidth 80 := by
  unfold decodeMW at h
  split_ifs at h with hstrb hlast
  all_goals
    have hpack := congrArg (BitVec.setWidth 80) (MBeat.pack_of_strobes hstrb)
    cases h
  · rw [hlast] at hpack
    exact ⟨rfl, hpack⟩
  · rw [Bool.eq_false_iff.2 hlast] at hpack
    exact ⟨rfl, hpack⟩

theorem encode_decodeMB (b : BResp) : encode (decodeMB b) = b.toMB := by
  obtain ⟨id, resp⟩ := b
  rcases Machine.resp_cases resp with rfl | rfl | rfl | rfl <;> rfl

/-- The sixteen register-access words are those of their rows, whatever the beat. -/
theorem encode_decodeReg (w : BitVec 4) (b : WBeat) :
    (encode (decodeReg w b)).chan = .reg ∧ (encode (decodeReg w b)).word = w.setWidth 80 := by
  obtain ⟨k, hk, rfl⟩ : ∃ k < 16, w = BitVec.ofNat 4 k := ⟨w.toNat, w.isLt, by simp⟩
  interval_cases k <;> exact ⟨rfl, rfl⟩

end

end Sys2Proof

open Sys2Proof

/-- Settles O1: each row packs its payload, whose fields the decoder of its channel reads back. -/
theorem decodeOfEncodeGivesOperationBack : Obligations.DecodeOfEncodeGivesOperationBack := by
  intro i hi
  cases i with
  | awFixed p id size len addr => exact decode_toAw p _
  | awIncr p id size len addr => exact decode_toAw p _
  | awWrap p id size len addr => exact decode_toAw p _
  | awRsvd p id size len addr => exact decode_toAw p _
  | arFixed p id size len addr => exact decode_toAr p _
  | arIncr p id size len addr => exact decode_toAr p _
  | arWrap p id size len addr => exact decode_toAr p _
  | arRsvd p id size len addr => exact decode_toAr p _
  | wBeat p strb data => exact decode_toW p _
  | wLast p strb data => exact decode_toW p _
  | bOkay p id => exact decode_toB p _
  | bDecerr p id => exact decode_toB p _
  | rOkay p id last data => exact decode_toR p _
  | rDecerr p id last => exact decode_toR p _
  | dmaAw id len addr => exact (decode_toMAw _).trans (decodeMAw_of_aligned (of_decide_eq_true hi) id len)
  | dmaW data => exact decode_toMW _
  | dmaWlast data => exact decode_toMW _
  | mbOkay id => exact decode_toMB _
  | mbExokay id => exact decode_toMB _
  | mbSlverr id => exact decode_toMB _
  | mbDecerr id => exact decode_toMB _
  | rdAddr => exact decode_regRead 0
  | wrAddr last be d => exact decode_regWrite 0 _
  | rdCount => exact decode_regRead 1
  | wrCount last be d => exact decode_regWrite 1 _
  | rdStatus => exact decode_regRead 2
  | wrStatus last be d => exact decode_regWrite 2 _
  | rdCtrl => exact decode_regRead 3
  | wrCtrl last be d => exact decode_regWrite 3 _
  | rdIntcfg => exact decode_regRead 4
  | wrIntcfg last be d => exact decode_regWrite 4 _
  | rdIntstat => exact decode_regRead 5
  | wrIntstat last be d => exact decode_regWrite 5 _
  | rdUnmapped o => exact (decode_regRead _).trans (congrArg _ (decodeReg_unmapped_read o _))
  | wrUnmapped o last be d => exact (decode_regWrite _ _).trans (congrArg _ (decodeReg_unmapped_write o _))

/-- Settles O2: the word has no bit above its format, so it is the packing of the fields the decoder reads. -/
theorem decodedWordIsTheEncodedWord : Obligations.DecodedWordIsTheEncodedWord := by
  rintro ⟨chan, word, id, beat⟩ i h
  unfold decode at h
  split_ifs at h with hfit
  have hword := setWidth_setWidth_of_fits (not_not.1 hfit)
  cases chan with
  | aw p =>
    cases h
    rw [encode_decodeAw]
    exact ⟨rfl, (congrArg _ (AxCmd.pack_unpack id _)).trans hword⟩
  | w p =>
    cases h
    rw [encode_decodeW]
    exact ⟨rfl, (congrArg _ (WBeat.pack_unpack _)).trans hword⟩
  | b p =>
    rw [encode_of_decodeB p h]
    exact ⟨rfl, hword⟩
  | ar p =>
    cases h
    rw [encode_decodeAr]
    exact ⟨rfl, (congrArg _ (AxCmd.pack_unpack id _)).trans hword⟩
  | r p =>
    rw [encode_of_decodeR p h]
    exact ⟨rfl, (congrArg _ (RBeat.pack_unpack id _)).trans hword⟩
  | mAw =>
    rw [encode_of_decodeMAw h]
    exact ⟨rfl, (congrArg _ (AxCmd.pack_unpack id _)).trans hword⟩
  | mW =>
    obtain ⟨hchan, hw⟩ := encode_of_decodeMW h
    exact ⟨hchan, hw.trans hword⟩
  | mB =>
    cases h
    rw [encode_decodeMB]
    exact ⟨rfl, hword⟩
  | reg =>
    cases h
    obtain ⟨hchan, hw⟩ := encode_decodeReg (word.setWidth 4) (WBeat.unpack beat)
    exact ⟨hchan, hw.trans hword⟩

/-- Settles O3: the words are closed, so the decoder is run on them. -/
theorem workedWordsDecode : Obligations.WorkedWordsDecode := by
  unfold Obligations.WorkedWordsDecode
  decide

end

section
/-! PROOF. The step is the clock edge in every state (spec R8): a reserved command on the first wire is the duty the edge
finds broken first, and every other operation is the bare edge. -/

namespace Sys2Proof.Machine

/-! ## Reserved commands on the wires -/

/-- A reserved operation is a command on the AW or AR channel of a slave. -/
theorem chan_of_isReserved {t : Transfer} {i : Instr} (hd : decode t = .ok i) (hres : isReserved i = true) :
    ∃ p, t.chan = .aw p ∨ t.chan = .ar p := by
  obtain ⟨hchan, -⟩ := decodedWordIsTheEncodedWord t i hd
  rw [← hchan]
  unfold isReserved at hres
  split at hres
  · next p _ _ _ _ => exact ⟨p, .inl rfl⟩
  · next p _ _ _ _ => exact ⟨p, .inr rfl⟩
  · cases hres

theorem State.chan_of_mem_beatWires {s : State} {p : Port} {b : WBeat} {t : Transfer} (h : t ∈ s.beatWires p b) :
    t.chan = .w p ∨ t.chan = .reg := by
  have hreg : (s.regWriteWire b).chan = .reg := by
    unfold State.regWriteWire
    split <;> rfl
  cases p with
  | dma =>
    rcases List.mem_pair.1 h with rfl | rfl
    · exact .inr hreg
    · exact .inl rfl
  | bank => exact .inl (congrArg _ (List.mem_singleton.1 h))
  | ref => exact .inl (congrArg _ (List.mem_singleton.1 h))

theorem State.chan_of_mem_readWires {s : State} {p : Port} {b : RBeat} {t : Transfer} (h : t ∈ s.readWires p b) :
    t.chan = .r p ∨ t.chan = .reg := by
  have hreg : s.regReadWire.chan = .reg := by
    unfold State.regReadWire
    split <;> rfl
  cases p with
  | dma =>
    rcases List.mem_pair.1 h with rfl | rfl
    · exact .inr hreg
    · exact .inl rfl
  | bank => exact .inl (congrArg _ (List.mem_singleton.1 h))
  | ref => exact .inl (congrArg _ (List.mem_singleton.1 h))

section
variable {s : State} {p : Port} {t : Transfer} {i : Instr} (hd : decode t = .ok i) (hres : isReserved i = true)
include hd hres

/-- A reserved operation among the transfers of a slave is a command it captures. -/
theorem State.captures_of_isReserved (ht : t ∈ s.portWires p) :
    (∃ c, s.capturesW p = some c ∧ t = c.toAw p) ∨ ∃ c, s.capturesR p = some c ∧ t = c.toAr p := by
  obtain ⟨q, hchan⟩ := chan_of_isReserved hd hres
  simp only [State.portWires, List.mem_append, Option.mem_toList, Option.map_eq_some_iff, or_assoc] at ht
  rcases ht with ⟨c, hc, rfl⟩ | ht | ⟨b, -, rfl⟩ | ⟨c, hc, rfl⟩ | ht
  · exact .inl ⟨c, hc, rfl⟩
  · split at ht
    · rcases State.chan_of_mem_beatWires ht with h | h <;> simp [h] at hchan
    · cases ht
  · simp [BResp.toB] at hchan
  · exact .inr ⟨c, hc, rfl⟩
  · split at ht
    · rcases State.chan_of_mem_readWires ht with h | h <;> simp [h] at hchan
    · cases ht

/-- No transfer of the memory-facing bus is a reserved operation. -/
theorem State.not_mem_engineWires_of_isReserved : t ∉ s.engineWires := by
  intro ht
  obtain ⟨q, hchan⟩ := chan_of_isReserved hd hres
  unfold State.engineWires at ht
  split at ht
  · cases ht
  · simp only [List.mem_append, Option.mem_toList, Option.map_eq_some_iff, or_assoc] at ht
    rcases ht with ht | ⟨b, -, rfl⟩ | ⟨b, -, rfl⟩
    · split at ht
      · obtain ⟨c, -, rfl⟩ := by simpa only [Option.mem_toList, Option.map_eq_some_iff] using ht
        simp [AxCmd.toMAw] at hchan
      · cases ht
    · simp [MBeat.toMW] at hchan
    · simp [BResp.toMB] at hchan

/-- The capture of a reserved write command is the duty broken first at its slave (U1). -/
theorem State.portBreach_of_reserved_aw {c : AxCmd} (hc : s.capturesW p = some c) (ht : t = c.toAw p) :
    s.portBreach p = some .reservedBurst := by
  subst ht
  obtain rfl := Except.ok.inj ((decode_toAw p c).symm.trans hd)
  rw [isReserved_decodeAw, decide_eq_true_eq] at hres
  simp [State.portBreach, hc, commandBreach, hres]

/-- The capture of a reserved read command, with no write command beside it, is the duty broken at its slave. -/
theorem State.portBreach_of_reserved_ar {c : AxCmd} (hw : s.capturesW p = none) (hc : s.capturesR p = some c)
    (ht : t = c.toAr p) : s.portBreach p = some .reservedBurst := by
  subst ht
  obtain rfl := Except.ok.inj ((decode_toAr p c).symm.trans hd)
  rw [isReserved_decodeAr, decide_eq_true_eq] at hres
  simp [State.portBreach, hw, hc, commandBreach, hres]

/-- Where a reserved operation is on the first wire, the slave either has it first, and breaks that duty, or has no wire
and breaks none. -/
theorem State.portBreach_of_first {l ts : List Transfer} (h : s.portWires p ++ l = t :: ts) :
    s.portBreach p = some .reservedBurst ∨ (s.portBreach p = none ∧ l = t :: ts) := by
  cases hw : s.capturesW p with
  | some c =>
    have hfirst : s.portWires p = c.toAw p :: (s.portWires p).tail := by simp [State.portWires, hw]
    rw [hfirst] at h
    exact .inl (State.portBreach_of_reserved_aw hd hres hw (List.cons.inj h).1.symm)
  | none =>
    cases hwires : s.portWires p with
    | nil =>
      have hr : s.capturesR p = none := by
        simp only [State.portWires, List.append_eq_nil_iff] at hwires
        simpa using hwires.1.2
      exact .inr ⟨by simp [State.portBreach, hw, hr], by simpa [hwires] using h⟩
    | cons u us =>
      obtain ⟨rfl, -⟩ := List.cons.inj ((hwires ▸ h : u :: us ++ l = t :: ts))
      rcases State.captures_of_isReserved hd hres (hwires ▸ List.mem_cons_self) with ⟨c, hc, -⟩ | ⟨c, hc, ht⟩
      · rw [hw] at hc
        cases hc
      · exact .inl (State.portBreach_of_reserved_ar hd hres hw hc ht)

/-- A reserved operation on the first wire of the edge is the duty the edge breaks first (log 12, log 14). -/
theorem State.breach_of_isReserved {ts : List Transfer} (h : s.wires = t :: ts) : s.breach = some .reservedBurst := by
  unfold State.breach
  rcases State.portBreach_of_first hd hres h with hb | ⟨hb, h⟩ <;> rw [hb]
  · rfl
  rcases State.portBreach_of_first hd hres h with hb | ⟨hb, h⟩ <;> rw [hb]
  · rfl
  rcases State.portBreach_of_first hd hres h with hb | ⟨hb, h⟩ <;> rw [hb]
  · rfl
  exact absurd (h ▸ List.mem_cons_self) (State.not_mem_engineWires_of_isReserved hd hres)

end

/-- Running a reserved operation refuses it (R104). -/
theorem exec_of_isReserved {i : Instr} (h : isReserved i = true) (s : State) : exec i s = refuseReserved s := by
  unfold isReserved at h
  split at h
  · rfl
  · rfl
  · cases h

/-- In every state the step is the clock edge. -/
theorem step_eq_clock (s : State) : step s = s.clock := by
  unfold step runWires
  split
  · rfl
  · next t ts hwires =>
    split
    · next i hd =>
      cases hres : isReserved i with
      | false => exact (State.carries_of_mem_wires (hwires ▸ List.mem_cons_self)).exec_eq_clock hd (.inl hres)
      | true =>
        rw [exec_of_isReserved hres, refuseReserved, State.clock, State.breach_of_isReserved hd hres hwires]
    · rfl

/-- What a step that answers a next state says: the parameters are in bounds, no duty is broken, the answer is the edge. -/
theorem of_step_eq_next {s t : State} (h : step s = .next t) : s.cfg.wf = true ∧ s.breach = none ∧ t = s.edge :=
  State.clock_eq_next_iff.1 (step_eq_clock s ▸ h)

end Sys2Proof.Machine

open Sys2Proof Sys2Proof.Machine

/-- Settles O4: `step` runs what the first wire decodes to. -/
theorem stepRunsTheDecodedTransfer : Obligations.StepRunsTheDecodedTransfer := by
  intro s t ts i hwires hd
  simp only [step, runWires, hwires, hd]

/-- Settles O5: a reserved operation on the first wire is refused by the edge too, and any other is the bare edge. -/
theorem stepIsOneClockEdge : Obligations.StepIsOneClockEdge := step_eq_clock

/-- Settles O6: an operation the edge carries out, if it is not a reserved one, is the bare edge, and so is the step. -/
theorem simultaneousOperationsShareTheEdge : Obligations.SimultaneousOperationsShareTheEdge := by
  intro s t i ht hd hne
  have hres : isReserved i = false := by
    unfold isReserved
    split
    · exact absurd rfl (hne _ _ _ _ _).1
    · exact absurd rfl (hne _ _ _ _ _).2
    · rfl
  rw [step_eq_clock, (State.carries_of_mem_wires ht).exec_eq_clock hd (.inl hres)]

/-- Settles O20: the two rows run the refusal itself. -/
theorem reservedBurstIsRefused : Obligations.ReservedBurstIsRefused := by
  intro s p id size len addr hwf
  have hrefuse : refuseReserved s = .refused .reservedBurst := if_pos hwf
  exact ⟨hrefuse, hrefuse⟩

/-- Settles O22: every operation is an edge of a driven cycle or the refusal of a reserved command, and neither runs under
parameters out of bounds. -/
theorem parametersOutOfBoundsAreRefused : Obligations.ParametersOutOfBoundsAreRefused := by
  intro i s hwf
  have hclock {u : State} (hu : u.cfg = s.cfg) : u.clock = .refused .parametersOutOfBounds := by
    rw [State.clock, hu, hwf]
    rfl
  have hrefuse : refuseReserved s = .refused .parametersOutOfBounds := by
    rw [refuseReserved, hwf]
    rfl
  refine ⟨?_, (step_eq_clock s).trans (hclock rfl)⟩
  cases i
  case awRsvd | arRsvd => exact hrefuse
  all_goals exact hclock rfl

end

section
/-! PROOF. The invariant of the six slave machines (R98, R170, R200): each move a machine can make keeps its control bits
those of its state and its id within `S_ID_W` bits. -/

namespace Sys2Proof.Machine

/-! ## The write machine -/

section
variable {c : Config} {m : WriteMachine} (h : m.ok c)
include h

theorem WriteMachine.ok_capture {cmd : AxCmd} (hid : cmd.id < 2 ^ c.sIdW) (hw : m.wstate = .waitAddr) :
    (m.capture cmd).ok c := by
  obtain ⟨-, -, -, haddr, -, -⟩ := h
  obtain ⟨-, -, hb⟩ := haddr hw
  exact ⟨.inl rfl, hid, nofun, nofun, fun _ => ⟨rfl, hb⟩, nofun⟩

theorem WriteMachine.ok_takeBeat (hw : m.wstate = .waitData) (base : Word) (n : Nat) (b : WBeat) :
    (m.takeBeat base n b).ok c := by
  obtain ⟨hresp, hid, -, -, hdata, -⟩ := h
  obtain ⟨hy, hb⟩ := hdata hw
  have hraise : raiseDecerr (inRange base n m.wCur) m.bresp = respOkay ∨
      raiseDecerr (inRange base n m.wCur) m.bresp = respDecerr := by
    unfold raiseDecerr
    split
    · exact hresp
    · exact .inr rfl
  refine ⟨hraise, hid, ?_⟩
  cases hl : b.last <;> simp [WriteMachine.takeBeat, hl, hy, hb]

theorem WriteMachine.ok_give (hw : m.wstate = .waitRespReady) : m.give.ok c := by
  obtain ⟨hresp, hid, -, -, -, hoffer⟩ := h
  obtain ⟨-, hy, -⟩ := hoffer hw
  exact ⟨hresp, hid, nofun, fun _ => ⟨rfl, hy, rfl⟩, nofun, nofun⟩

theorem WriteMachine.ok_rest : m.rest.ok c := by
  obtain ⟨hresp, hid, hreset, haddr, hdata, hoffer⟩ := h
  refine ⟨hresp, hid, ?_⟩
  cases hs : m.wstate <;> simp_all [WriteMachine.rest]

theorem WriteMachine.ok_resetEdge : m.resetEdge.ok c := by
  obtain ⟨hresp, hid, -⟩ := h
  exact ⟨hresp, hid, fun _ => ⟨rfl, rfl, rfl⟩, nofun, nofun, nofun⟩

/-- Every move of a write machine keeps it consistent, if the ids on its pins fit the port. -/
theorem WriteMachine.ok_next {i : SlaveIn} (hid : ∀ cmd, i.aw = some cmd → cmd.id < 2 ^ c.sIdW) (base : Word) (n : Nat) :
    (m.next base n i).ok c := by
  rcases WriteMachine.next_cases base n m i with ⟨cmd, hc, hm⟩ | ⟨b, hb, hm⟩ | ⟨b, hb, hm⟩ | ⟨-, -, -, hm⟩ <;> rw [hm]
  · obtain ⟨hw, hpin⟩ := by simpa [WriteMachine.captures] using hc
    exact WriteMachine.ok_capture h (hid cmd hpin) hw
  · obtain ⟨⟨hw, -⟩, -⟩ := by simpa [WriteMachine.accepts] using hb
    exact WriteMachine.ok_takeBeat h hw base n b
  · obtain ⟨-, ⟨hw, -⟩, -⟩ := by simpa [WriteMachine.gives, WriteMachine.offersB] using hb
    exact WriteMachine.ok_give h hw
  · exact WriteMachine.ok_rest h

end

/-! ## The read machine -/

section
variable {c : Config} {m : ReadMachine} (h : m.ok c)
include h

theorem ReadMachine.ok_give (hs : m.rstate = .sendData) (b : RBeat) : (m.give b).ok c := by
  obtain ⟨hid, -, -, hsend⟩ := h
  obtain ⟨hy, hv⟩ := hsend hs
  unfold ReadMachine.give
  split
  · exact ⟨hid, nofun, fun _ => ⟨rfl, rfl⟩, nofun⟩
  · simp [ReadMachine.ok, hid, hs, hy, hv]

theorem ReadMachine.ok_rest : m.rest.ok c := by
  obtain ⟨hid, hreset, hwait, hsend⟩ := h
  refine ⟨hid, ?_⟩
  cases hs : m.rstate <;> simp_all [ReadMachine.rest]

/-- Every move of a read machine keeps it consistent, if the ids on its pins fit the port. -/
theorem ReadMachine.ok_next {o : Option RBeat} {i : SlaveIn} (ho : o.isSome → m.rstate = .sendData)
    (hid : ∀ cmd, i.ar = some cmd → cmd.id < 2 ^ c.sIdW) : (m.next o i).ok c := by
  rcases ReadMachine.next_cases o m i ho with ⟨cmd, hc, hm⟩ | ⟨b, hb, -, hm⟩ | ⟨-, -, hm⟩ <;> rw [hm]
  · obtain ⟨-, hpin⟩ := by simpa [ReadMachine.captures] using hc
    exact ⟨hid cmd hpin, nofun, nofun, fun _ => ⟨rfl, rfl⟩⟩
  · exact ReadMachine.ok_give h (ho (Option.isSome_of_eq_some hb)) b
  · exact ReadMachine.ok_rest h

end

/-! ## The six machines at an edge -/

/-- The ids on the AW and AR pins have the width of the port (R91, log 16). -/
theorem State.inputs_id_lt (p : Port) (s : State) {cmd : AxCmd}
    (h : (s.inputs.port p).aw = some cmd ∨ (s.inputs.port p).ar = some cmd) : cmd.id < 2 ^ s.cfg.sIdW := by
  rw [← s.inputs_port_fit p] at h
  simp only [SlaveIn.fit_aw, SlaveIn.fit_ar, Option.map_eq_some_iff] at h
  rcases h with ⟨d, -, rfl⟩ | ⟨d, -, rfl⟩ <;> exact fitId_lt _ _

theorem State.machinesOk_iff {s : State} : s.machinesOk ↔ ∀ p, (s.wm p).ok s.cfg ∧ (s.rm p).ok s.cfg := by
  constructor
  · rintro ⟨⟨hbw, hdw, hrw⟩, hbr, hdr, hrr⟩ p
    cases p <;> exact ⟨by assumption, by assumption⟩
  · intro h
    exact ⟨⟨(h .bank).1, (h .dma).1, (h .ref).1⟩, (h .bank).2, (h .dma).2, (h .ref).2⟩

theorem State.nextW_ok {s : State} {p : Port} (h : (s.wm p).ok s.cfg) : (s.nextW p).ok s.cfg := by
  unfold State.nextW
  split
  · exact WriteMachine.ok_resetEdge h
  · exact WriteMachine.ok_next h (fun cmd hcmd => s.inputs_id_lt p (.inl hcmd)) _ _

theorem State.nextR_ok {s : State} {p : Port} (h : (s.rm p).ok s.cfg) : (s.nextR p).ok s.cfg := by
  unfold State.nextR
  split
  · exact ⟨h.1, fun _ => ⟨rfl, rfl⟩, nofun, nofun⟩
  · exact ReadMachine.ok_next h State.offersR_isSome fun cmd hcmd => s.inputs_id_lt p (.inr hcmd)

/-- An edge keeps the six machines consistent. -/
theorem State.edge_machinesOk {s : State} (h : s.machinesOk) : s.edge.machinesOk := by
  rw [State.machinesOk_iff] at h ⊢
  intro p
  obtain ⟨hw, hr⟩ := h p
  rw [State.edge_wm, State.edge_rm]
  exact ⟨State.nextW_ok hw, State.nextR_ok hr⟩

/-! ## Storage at an edge -/

theorem length_writeCell (c : Config) (cells : List Word) (i : Nat) (be : BitVec 4) (d : Word) :
    (writeCell c cells i be d).length = cells.length := by
  unfold writeCell
  split
  · exact List.length_set
  · rfl

theorem State.length_nextCells {s : State} (h : s.bankCells.length = s.cfg.bankCells.length) :
    s.nextCells.length = s.cfg.bankCells.length := by
  unfold State.nextCells
  split
  · simp [resetCells]
  · split
    · split
      · rw [length_writeCell, h]
      · exact h
    · exact h

theorem State.wf_nextRefMem {s : State} (h : Memory.wf s.refMem) : Memory.wf s.nextRefMem := by
  unfold State.nextRefMem
  split
  · split
    · exact Memory.wf_writeWord h _ _ _
    · exact h
  · exact h

theorem State.wf_nextMem {s : State} (h : Memory.wf s.mem) : Memory.wf s.nextMem := by
  unfold State.nextMem
  split
  · exact Memory.wf_writeDWord h _ _
  · exact h

/-- An edge keeps storage canonical. -/
theorem State.edge_storageOk {s : State} (h : s.storageOk) : s.edge.storageOk := by
  obtain ⟨hmem, href, hcells⟩ := h
  exact ⟨State.wf_nextMem hmem, State.wf_nextRefMem href, State.length_nextCells hcells⟩

/-! ## Power-on -/

/-- The engine at power-on meets its invariant: nothing is on offer and every register is zero. -/
theorem Engine.atReset_ok (c : Config) : Engine.atReset.ok c := by
  refine ⟨⟨rfl, Nat.two_pow_pos _⟩, ⟨Nat.two_pow_pos _, fun _ => rfl, nofun⟩, fun _ => ⟨rfl, rfl, rfl⟩, nofun, nofun, ?_⟩
  exact fun h => absurd rfl h

theorem Engine.atReset_statusWord : Engine.atReset.statusWord = 0 := by decide

theorem WriteMachine.atReset_ok (c : Config) : WriteMachine.atReset.ok c :=
  ⟨.inl rfl, Nat.two_pow_pos _, fun _ => ⟨rfl, rfl, rfl⟩, nofun, nofun, nofun⟩

theorem ReadMachine.atReset_ok (c : Config) : ReadMachine.atReset.ok c :=
  ⟨Nat.two_pow_pos _, fun _ => ⟨rfl, rfl⟩, nofun, nofun⟩

end Sys2Proof.Machine

open Sys2Proof Sys2Proof.Machine

/-- Settles O48: the step is the edge, at which each machine makes one of its moves or is reset. -/
theorem stepKeepsTheMachinesConsistent : Obligations.StepKeepsTheMachinesConsistent := by
  intro s t h hstep
  obtain ⟨-, -, rfl⟩ := of_step_eq_next hstep
  exact State.edge_machinesOk h

/-- Settles O50: each store is written by word writes or cell writes only, and no rule writes the parameters. -/
theorem stepKeepsStorageCanonical : Obligations.StepKeepsStorageCanonical := by
  intro s t h hstep
  obtain ⟨-, -, rfl⟩ := of_step_eq_next hstep
  exact ⟨State.edge_storageOk h, rfl, rfl⟩

/-- Settles O42: the values are those `powerOn` is made of; the cells are the reset values of their kinds. -/
theorem powerOnState : Obligations.PowerOnState := by
  refine ⟨rfl, fun c => ⟨fun p => by cases p <;> exact ⟨rfl, rfl, rfl, rfl, rfl, rfl, rfl⟩,
    rfl, rfl, rfl, rfl, rfl, rfl, rfl, fun i v h => ?_, rfl, Engine.atReset_statusWord, rfl, rfl⟩⟩
  simp [State.powerOn, h, CellKind.resetStorage]

/-- Settles O47: every machine, the engine and the stores meet their invariants at power-on. -/
theorem powerOnMeetsTheInvariant : Obligations.PowerOnMeetsTheInvariant := by
  intro c
  have hW := WriteMachine.atReset_ok c
  have hR := ReadMachine.atReset_ok c
  refine ⟨⟨⟨hW, hW, hW⟩, hR, hR, hR⟩, Engine.atReset_ok c, ⟨.nil, nofun⟩, ⟨.nil, nofun⟩, ?_⟩
  simp [State.powerOn]

end

section
/-! PROOF. The invariant of the engine (spec 46_dma_burst_splitter.md section 7): the end of the run stays where it is while
both channels move towards it, so an address burst and a data burst are judged at addresses that are plain numbers. -/

namespace Sys2Proof.Machine

/-! ## The first burst -/

section
variable {addr : Word} {n : Nat} (ha : addr.toNat % 8 = 0) (hn : 1 ≤ n)
include ha hn

/-- The first burst goes to the next multiple of 128 or to the end of the run (R263). -/
theorem firstLen_spec : 1 ≤ firstLen addr n ∧ firstLen addr n ≤ n ∧ addr.toNat % 128 + 8 * firstLen addr n ≤ 128 ∧
    (firstLen addr n < n → addr.toNat % 128 + 8 * firstLen addr n = 128) := by
  unfold firstLen
  omega

end

/-- A first burst has at least one beat, wherever it starts. -/
theorem firstLen_pos (addr : Word) {n : Nat} (hn : 1 ≤ n) : 1 ≤ firstLen addr n := by
  unfold firstLen
  omega

/-- A first burst has at most 16 beats, wherever it starts. -/
theorem firstLen_le (addr : Word) (n : Nat) : firstLen addr n ≤ 16 := by
  unfold firstLen
  omega

/-! ## The address channel -/

/-- The end of the run's bytes as the address channel has it. -/
def AddrChannel.runEnd (a : AddrChannel) : Nat := a.awaddr.toNat + 8 * (a.awlen.toNat + 1) + 8 * a.aRem

theorem Engine.runEnd_eq (e : Engine) : e.runEnd = e.ac.runEnd := rfl

/-- The channel's own part of the invariant in `RUN`: an address is on offer until the last is handed over (R272). -/
def AddrChannel.offerOk (a : AddrChannel) : Prop := (a.addrDone = !a.awvalid) ∧ (a.awvalid = false → a.aRem = 0)

section
variable {a : AddrChannel}

/-- With words still to come, and the run below `2^32`, the next address does not wrap. -/
theorem AddrChannel.nextAddr_toNat (hpos : 0 < a.aRem) (htop : a.runEnd ≤ addressSpace) :
    a.nextAddr.toNat = a.awaddr.toNat + 8 * (a.awlen.toNat + 1) := by
  unfold AddrChannel.runEnd addressSpace at htop
  simp only [AddrChannel.nextAddr, BitVec.toNat_add, BitVec.toNat_ofNat]
  omega

/-- The three moves of a handover, the last burst's length as a number (R270, R272). -/
theorem AddrChannel.handshake_cases (hv : a.awvalid = true) :
    (15 < a.aRem ∧ a.handshake = ⟨true, a.nextAddr, 15, a.aRem - 16, a.addrDone⟩) ∨
    (0 < a.aRem ∧ ∃ len : BitVec 4, len.toNat + 1 = a.aRem ∧ a.handshake = ⟨true, a.nextAddr, len, 0, a.addrDone⟩) ∨
    (a.aRem = 0 ∧ a.handshake = ⟨false, a.awaddr, a.awlen, 0, true⟩) := by
  by_cases hfull : 15 < a.aRem
  · exact .inl ⟨hfull, AddrChannel.handshake_of_full hv hfull⟩
  · by_cases hpos : 0 < a.aRem
    · refine .inr (.inl ⟨hpos, _, ?_, AddrChannel.handshake_of_final hv hpos (Nat.not_lt.1 hfull)⟩)
      rw [BitVec.toNat_ofNat]
      omega
    · have hnone : a.aRem = 0 := Nat.eq_zero_of_not_pos hpos
      exact .inr (.inr ⟨hnone, AddrChannel.handshake_of_none hnone⟩)

/-- Handing over an address leaves the end of the run where it is (R271). -/
theorem AddrChannel.runEnd_handshake (hv : a.awvalid = true) (htop : a.runEnd ≤ addressSpace) :
    a.handshake.runEnd = a.runEnd := by
  rcases AddrChannel.handshake_cases hv with ⟨h, hm⟩ | ⟨h, len, hlen, hm⟩ | ⟨h, hm⟩ <;> rw [hm]
  · have hfull : (15 : BitVec 4).toNat = 15 := rfl
    simp only [AddrChannel.runEnd, AddrChannel.nextAddr_toNat (by omega) htop, hfull]
    omega
  · simp only [AddrChannel.runEnd, AddrChannel.nextAddr_toNat h htop]
    omega
  · simp only [AddrChannel.runEnd, h]

/-- A burst that starts at a multiple of 128, full if another follows, does not cross one and ends at one then. -/
theorem AddrChannel.burstOk_of_block_start (hstart : a.awaddr.toNat % 128 = 0) (hfull : 0 < a.aRem → a.awlen = 15) :
    a.burstOk := by
  have hlen := a.awlen.isLt
  refine fun _ => ⟨by omega, by omega, fun hmore => ?_⟩
  have hbytes : 8 * (a.awlen.toNat + 1) = 128 := by rw [hfull hmore]; rfl
  simp only [AddrChannel.nextAddr, hbytes, BitVec.toNat_add, BitVec.toNat_ofNat]
  omega

/-- The burst after a handover starts at a multiple of 128 (R279). -/
theorem AddrChannel.burstOk_handshake (hv : a.awvalid = true) (h : a.burstOk) : a.handshake.burstOk := by
  obtain ⟨-, -, hnext⟩ := h hv
  rcases AddrChannel.handshake_cases hv with ⟨hpos, hm⟩ | ⟨hpos, len, -, hm⟩ | ⟨-, hm⟩ <;> rw [hm]
  · exact AddrChannel.burstOk_of_block_start (hnext (Nat.zero_lt_of_lt hpos)) fun _ => rfl
  · exact AddrChannel.burstOk_of_block_start (hnext hpos) nofun
  · exact nofun

theorem AddrChannel.offerOk_handshake (hv : a.awvalid = true) (h : a.offerOk) : a.handshake.offerOk := by
  obtain ⟨hdone, -⟩ := h
  rw [hv] at hdone
  rcases AddrChannel.handshake_cases hv with ⟨-, hm⟩ | ⟨-, len, -, hm⟩ | ⟨-, hm⟩ <;> rw [hm]
  · exact ⟨hdone, nofun⟩
  · exact ⟨hdone, nofun⟩
  · exact ⟨rfl, fun _ => rfl⟩

end

/-! ## The data channel -/

/-- The data burst in progress at byte address `x`, as a number: its words lie in one block of 128 bytes, and it ends at the
end of the run or of the block (R278). -/
def DataChannel.burstAt (d : DataChannel) (x : Nat) : Prop :=
  d.dRem ≠ 0 → 1 ≤ d.bRem.toNat ∧ d.bRem.toNat ≤ d.dRem ∧ x % 8 = 0 ∧ x % 128 + 8 * d.bRem.toNat ≤ 128 ∧
    (d.bRem.toNat < d.dRem → x % 128 + 8 * d.bRem.toNat = 128)

theorem Engine.dataBurstOk_iff (e : Engine) : e.dataBurstOk ↔ e.dc.burstAt e.dataAddr.toNat := Iff.rfl

/-- Handing over a word leaves a data burst eight bytes on: the rest of it, or the one after it (R273). -/
theorem DataChannel.burstAt_handshake {d : DataChannel} {x : Nat} (h : d.burstAt x) (hrem : d.dRem ≠ 0) :
    d.handshake.burstAt (x + 8) := by
  obtain ⟨hpos, hle, halign, hblock, hend⟩ := h hrem
  intro hrem'
  have hcount : d.handshake.dRem = d.dRem - 1 := rfl
  by_cases hlast : d.bRem = 1
  · have hone : d.bRem.toNat = 1 := congrArg BitVec.toNat hlast
    have hahead : d.handshake.bRem.toNat = min 16 d.handshake.dRem := by
      rw [DataChannel.handshake_bRem_of_last hlast]
      split
      · show 16 = _
        omega
      · rw [BitVec.toNat_ofNat]
        omega
    omega
  · have hone : d.bRem.toNat ≠ 1 := fun h => hlast (BitVec.eq_of_toNat_eq h)
    have hless : d.handshake.bRem.toNat = d.bRem.toNat - 1 := by
      rw [DataChannel.handshake_bRem_of_inside hlast]
      exact BitVec.toNat_sub_of_le (BitVec.le_def.2 hpos)
    omega

/-! ## The two channels at the start of a run -/

section
variable {r : DmaRegs}

theorem AddrChannel.start_awlen (r : DmaRegs) : (AddrChannel.start r).awlen.toNat + 1 = firstLen r.addr r.words := by
  have hpos : 1 ≤ firstLen r.addr r.words := firstLen_pos r.addr (Nat.succ_pos r.count.toNat)
  have hle := firstLen_le r.addr r.words
  simp only [AddrChannel.start, BitVec.toNat_ofNat]
  omega

theorem DataChannel.start_bRem (r : DmaRegs) : (DataChannel.start r).bRem.toNat = firstLen r.addr r.words := by
  have hle := firstLen_le r.addr r.words
  simp only [DataChannel.start, BitVec.toNat_ofNat]
  omega

section
variable (ha : r.addr.toNat % 8 = 0)
include ha

/-- The run ends after its words (R64, R265). -/
theorem AddrChannel.runEnd_start : (AddrChannel.start r).runEnd = r.addr.toNat + 8 * r.words := by
  obtain ⟨-, hle, -⟩ := firstLen_spec (n := r.words) ha (Nat.succ_pos _)
  have hrem : (AddrChannel.start r).aRem = r.words - firstLen r.addr r.words := rfl
  have haddr : (AddrChannel.start r).awaddr = r.addr := rfl
  rw [AddrChannel.runEnd, AddrChannel.start_awlen, hrem, haddr]
  omega

/-- The first address burst stays in its block and ends at its end if another follows (R263, R279). -/
theorem AddrChannel.burstOk_start : (AddrChannel.start r).burstOk := by
  obtain ⟨-, hle, hblock, hend⟩ := firstLen_spec (n := r.words) ha (Nat.succ_pos _)
  have hrem : (AddrChannel.start r).aRem = r.words - firstLen r.addr r.words := rfl
  have haddr : (AddrChannel.start r).awaddr = r.addr := rfl
  intro _
  rw [AddrChannel.nextAddr, AddrChannel.start_awlen, hrem, haddr]
  refine ⟨ha, hblock, fun hmore => ?_⟩
  simp only [BitVec.toNat_add, BitVec.toNat_ofNat]
  have hstop := hend (Nat.lt_of_sub_pos hmore)
  omega

/-- The first data burst is the first address burst. -/
theorem DataChannel.burstAt_start : (DataChannel.start r).burstAt r.addr.toNat := by
  obtain ⟨hpos, hle, hblock, hend⟩ := firstLen_spec (n := r.words) ha (Nat.succ_pos _)
  intro _
  rw [DataChannel.start_bRem]
  exact ⟨hpos, hle, ha, hblock, hend⟩

end
end

/-! ## The address of the data word -/

/-- While words are left, and the run lies below `2^32`, the data word's address is its distance from the end of the run. -/
theorem Engine.dataAddr_toNat {e : Engine} (hrem : e.dc.dRem ≠ 0) (hle : 8 * e.dc.dRem ≤ e.ac.runEnd)
    (htop : e.ac.runEnd ≤ addressSpace) : e.dataAddr.toNat = e.ac.runEnd - 8 * e.dc.dRem := by
  unfold AddrChannel.runEnd addressSpace at *
  simp only [Engine.dataAddr, AddrChannel.nextAddr, BitVec.toNat_sub, BitVec.toNat_add, BitVec.toNat_ofNat]
  omega

/-! ## The registers and the tracker -/

theorem mod_eight_of_and_addrMask (v : Word) : (v &&& 0xFFFFFFF8).toNat % 8 = 0 := by
  rw [and_addrMask, BitVec.toNat_append, BitVec.toNat_ofNat, Nat.zero_mod, Nat.or_zero, Nat.shiftLeft_eq]
  exact Nat.mul_mod_left _ _

theorem lowBits_toNat_lt (w : Nat) (v : Word) : (lowBits w v).toNat < 2 ^ w := by
  rw [lowBits, BitVec.toNat_ofNat]
  exact Nat.lt_of_le_of_lt (Nat.mod_le _ _) (Nat.mod_lt _ (Nat.two_pow_pos w))

/-- A register write keeps the reserved fields of the configuration zero (R233, R235). -/
theorem DmaRegs.ok_next {c : Config} {r : DmaRegs} (h : r.ok c) (wr : Option RegWrite) : (r.next c wr).ok c := by
  obtain ⟨haddr, hcount⟩ := h
  unfold DmaRegs.next
  split
  · exact ⟨haddr, hcount⟩
  · split_ifs
    · exact ⟨mod_eight_of_and_addrMask _, hcount⟩
    · exact ⟨haddr, lowBits_toNat_lt _ _⟩
    · exact ⟨haddr, hcount⟩
    · exact ⟨haddr, hcount⟩

theorem nextInflight_lt {c : Config} {inflight : Nat} (h : inflight < 2 ^ c.inflW) (inc dec : Bool) :
    nextInflight c inflight inc dec < 2 ^ c.inflW := by
  unfold nextInflight
  split_ifs
  · exact h
  · exact Nat.mod_lt _ (Nat.two_pow_pos _)
  · exact Nat.lt_of_le_of_lt (Nat.sub_le _ _) h

/-- The latches agree: no code without an error, an error code with one (R101). -/
def Tracker.latchOk (t : Tracker) : Prop :=
  (t.err = false → t.errResp = respOkay) ∧ (t.err = true → t.errResp = respSlverr ∨ t.errResp = respDecerr)

theorem Tracker.latchOk_cleared {t : Tracker} (h : t.latchOk) (start : Bool) : (t.cleared start).latchOk := by
  cases start
  · exact h
  · exact ⟨fun _ => rfl, nofun⟩

/-- The two error codes are those with the top bit set (R97). -/
theorem isErrorCode_iff : ∀ r : BitVec 2, isErrorCode r = true ↔ r = respSlverr ∨ r = respDecerr := by decide

theorem Tracker.latchOk_answered {t : Tracker} (h : t.latchOk) (r : BitVec 2) : (t.answered r).latchOk := by
  obtain ⟨hno, hyes⟩ := h
  cases he : t.err with
  | true => simpa [Tracker.latchOk, Tracker.answered, nextErr, nextErrResp, he] using hyes he
  | false =>
    cases hr : isErrorCode r with
    | true => simpa [Tracker.latchOk, Tracker.answered, nextErr, nextErrResp, he, hr] using (isErrorCode_iff r).1 hr
    | false => simpa [Tracker.latchOk, Tracker.answered, nextErr, nextErrResp, he, hr] using hno he

theorem Tracker.latchOk_latched {t : Tracker} (h : t.latchOk) (start : Bool) (resp : Option BResp) (o : Bool) :
    (t.latched start resp o).latchOk := by
  have hcleared := Tracker.latchOk_cleared h start
  unfold Tracker.latched
  split
  · split
    · exact hcleared
    · exact Tracker.latchOk_answered hcleared _
  · exact hcleared

theorem Tracker.ok_next {c : Config} {t : Tracker} (h : t.ok c) (start inc : Bool) (resp : Option BResp) (o : Bool) :
    (t.next c start inc resp o).ok c := by
  obtain ⟨hinflight, hlatch⟩ := h
  exact ⟨nextInflight_lt hinflight _ _, Tracker.latchOk_latched hlatch start resp o⟩

/-! ## The engine at an edge -/

section
variable (c : Config) (e : Engine) (i : Inputs) (fifo : List DWord) (wr : Option RegWrite) (o : Bool)

/-- A start puts the engine in `RUN` with both channels loaded (R265). -/
theorem Engine.next_of_starts {e : Engine} {wr : Option RegWrite} (h : e.starts wr = true) :
    (e.next c i fifo wr o).dstate = .run ∧ (e.next c i fifo wr o).ac = AddrChannel.start e.regs ∧
    (e.next c i fifo wr o).dc = DataChannel.start e.regs := by
  simp [Engine.next, Engine.nextState, h]

/-- What the state register and the channels can do at an edge without reset: start a run, move in `RUN`, or hold in
`WAIT_START`. -/
theorem Engine.next_cases :
    (e.starts wr = true ∧ (e.next c i fifo wr o).dstate = .run ∧ (e.next c i fifo wr o).ac = AddrChannel.start e.regs ∧
      (e.next c i fifo wr o).dc = DataChannel.start e.regs) ∨
    (e.starts wr = false ∧ e.dstate = .run ∧
      (e.next c i fifo wr o).dstate = (if e.ac.addrDone = true ∧ e.dc.dRem = 0 then .waitStart else .run) ∧
      (e.next c i fifo wr o).ac = (if e.addrHandshake i = true then e.ac.handshake else e.ac) ∧
      (e.next c i fifo wr o).dc = (if (e.dataHandshake i fifo).isSome then e.dc.handshake else e.dc)) ∨
    (e.starts wr = false ∧ e.dstate = .waitStart ∧ (e.next c i fifo wr o).dstate = .waitStart ∧
      (e.next c i fifo wr o).ac = e.ac ∧ (e.next c i fifo wr o).dc = e.dc) := by
  cases hs : e.starts wr with
  | true => exact .inl ⟨rfl, Engine.next_of_starts c i fifo o hs⟩
  | false =>
    cases hd : e.dstate with
    | run => exact .inr (.inl ⟨rfl, rfl, by simp [Engine.next, Engine.nextState, hs, hd]⟩)
    | waitStart =>
      exact .inr (.inr ⟨rfl, rfl, by
        simp [Engine.next, Engine.nextState, hs, hd, Engine.dataHandshake, Engine.offersW]⟩)

end

/-! ## The invariant of the channels -/

/-- The part of the engine's invariant that speaks of the state register and the two channels. -/
def Engine.channelsOk (e : Engine) : Prop := e.idleOk ∧ e.runOk ∧ e.ac.burstOk ∧ e.dataBurstOk

theorem Engine.ok_iff (c : Config) (e : Engine) : e.ok c ↔ e.regs.ok c ∧ e.trk.ok c ∧ e.channelsOk := Iff.rfl

/-- In `RUN`, the invariant of the channels with the end of the run and the data word's address as numbers. -/
theorem Engine.channelsOk_of_run {e : Engine} (hrun : e.dstate = .run) : e.channelsOk ↔
    e.ac.offerOk ∧ 8 * e.dc.dRem ≤ e.ac.runEnd ∧ e.ac.runEnd ≤ addressSpace ∧ e.ac.burstOk ∧
    e.dc.burstAt (e.ac.runEnd - 8 * e.dc.dRem) := by
  have hidle : e.idleOk := fun h => by rw [hrun] at h; cases h
  have hdata (hle : 8 * e.dc.dRem ≤ e.ac.runEnd) (htop : e.ac.runEnd ≤ addressSpace) :
      e.dataBurstOk ↔ e.dc.burstAt (e.ac.runEnd - 8 * e.dc.dRem) :=
    e.dataBurstOk_iff.trans (forall_congr' fun hrem => by rw [Engine.dataAddr_toNat hrem hle htop])
  constructor
  · rintro ⟨-, hr, hburst, hd⟩
    obtain ⟨hdone, hnone, hle, htop⟩ := hr hrun
    exact ⟨⟨hdone, hnone⟩, hle, htop, hburst, (hdata hle htop).1 hd⟩
  · rintro ⟨⟨hdone, hnone⟩, hle, htop, hburst, hd⟩
    exact ⟨hidle, fun _ => ⟨hdone, hnone, hle, htop⟩, hburst, (hdata hle htop).2 hd⟩

/-- In `WAIT_START` it says that nothing is on offer. -/
theorem Engine.channelsOk_of_waitStart {e : Engine} (hwait : e.dstate = .waitStart) :
    e.channelsOk ↔ e.ac.awvalid = false ∧ e.ac.addrDone = true ∧ e.dc.dRem = 0 := by
  constructor
  · rintro ⟨hidle, -⟩
    exact hidle hwait
  · rintro ⟨hv, hdone, hrem⟩
    refine ⟨fun _ => ⟨hv, hdone, hrem⟩, fun h => ?_, fun h => ?_, fun h => absurd hrem h⟩
    · rw [hwait] at h; cases h
    · rw [hv] at h; cases h

section
variable {c : Config} {e : Engine} {i : Inputs} {fifo : List DWord} {wr : Option RegWrite} {o : Bool}

/-- What a data handover needs (R268, R273). -/
theorem Engine.of_dataHandshake_isSome (h : (e.dataHandshake i fifo).isSome) :
    e.dstate = .run ∧ e.dc.dRem ≠ 0 ∧ i.mWready = true ∧ fifo ≠ [] := by
  unfold Engine.dataHandshake Engine.offersW at h
  split_ifs at h with hready hrun
  · cases fifo with
    | nil => cases h
    | cons d rest => exact ⟨hrun.1, hrun.2, hready, nofun⟩
  all_goals cases h

/-- A start that breaks no duty begins a run below `2^32` (R265, R357). -/
theorem Engine.channelsOk_start {u : Engine} {r : DmaRegs} (ha : r.addr.toNat % 8 = 0)
    (htop : r.addr.toNat + 8 * r.words ≤ addressSpace) (hstate : u.dstate = .run) (hac : u.ac = AddrChannel.start r)
    (hdc : u.dc = DataChannel.start r) : u.channelsOk := by
  have hrem : (DataChannel.start r).dRem = r.words := rfl
  rw [Engine.channelsOk_of_run hstate, hac, hdc, AddrChannel.runEnd_start ha, hrem, Nat.add_sub_cancel]
  exact ⟨⟨rfl, nofun⟩, Nat.le_add_left _ _, htop, AddrChannel.burstOk_start ha, DataChannel.burstAt_start ha⟩

/-- A move in `RUN` keeps the end of the run and takes the data word's address eight bytes on per word. -/
theorem Engine.channelsOk_run {u : Engine} {inc w : Bool} (h : e.channelsOk) (hrun : e.dstate = .run)
    (hinc : inc = true → e.ac.awvalid = true) (hw : w = true → e.dc.dRem ≠ 0) (hstate : u.dstate = .run)
    (hac : u.ac = if inc then e.ac.handshake else e.ac) (hdc : u.dc = if w then e.dc.handshake else e.dc) :
    u.channelsOk := by
  obtain ⟨hoffer, hle, htop, hburst, hdata⟩ := (Engine.channelsOk_of_run hrun).1 h
  have haddr : u.ac.offerOk ∧ u.ac.runEnd = e.ac.runEnd ∧ u.ac.burstOk := by
    rw [hac]
    cases inc with
    | false => exact ⟨hoffer, rfl, hburst⟩
    | true =>
      have hv := hinc rfl
      exact ⟨AddrChannel.offerOk_handshake hv hoffer, AddrChannel.runEnd_handshake hv htop,
        AddrChannel.burstOk_handshake hv hburst⟩
  have hword : 8 * u.dc.dRem ≤ e.ac.runEnd ∧ u.dc.burstAt (e.ac.runEnd - 8 * u.dc.dRem) := by
    rw [hdc]
    cases w with
    | false => exact ⟨hle, hdata⟩
    | true =>
      have hrem := hw rfl
      have hcount : e.dc.handshake.dRem = e.dc.dRem - 1 := rfl
      have hnext : e.ac.runEnd - 8 * e.dc.handshake.dRem = e.ac.runEnd - 8 * e.dc.dRem + 8 := by omega
      exact ⟨by simp only [if_true]; omega, by simpa [hnext] using DataChannel.burstAt_handshake hdata hrem⟩
  obtain ⟨hoffer', hend, hburst'⟩ := haddr
  obtain ⟨hle', hdata'⟩ := hword
  rw [Engine.channelsOk_of_run hstate, hend]
  exact ⟨hoffer', hle', htop, hburst', hdata'⟩

/-- An edge without reset keeps the channels' invariant, if a start it makes breaks no duty. -/
theorem Engine.channelsOk_next (h : e.channelsOk) (ha : e.regs.addr.toNat % 8 = 0) (hbr : e.breach wr = none) :
    (e.next c i fifo wr o).channelsOk := by
  rcases e.next_cases c i fifo wr o with ⟨hs, hd, hac, hdc⟩ | ⟨-, hrun, hd, hac, hdc⟩ | ⟨-, hwait, hd, hac, hdc⟩
  · refine Engine.channelsOk_start ha ?_ hd hac hdc
    simp only [Engine.breach, hs, true_and, DmaRegs.pastTop, decide_eq_true_eq] at hbr
    split_ifs at hbr with _ htop
    exact Nat.not_lt.1 htop
  · have hinc : e.addrHandshake i = true → e.ac.awvalid = true := fun hi => (Bool.and_eq_true_iff.1 hi).1
    have hw : (e.dataHandshake i fifo).isSome = true → e.dc.dRem ≠ 0 := fun hi => (Engine.of_dataHandshake_isSome hi).2.1
    split_ifs at hd with hdone
    · obtain ⟨haddr, hrem⟩ := hdone
      obtain ⟨⟨hoffer, -⟩, -⟩ := (Engine.channelsOk_of_run hrun).1 h
      have hv : e.ac.awvalid = false := by simpa [haddr] using hoffer
      rw [if_neg fun hi => by rw [hinc hi] at hv; cases hv] at hac
      rw [if_neg fun hi => hw hi hrem] at hdc
      rw [Engine.channelsOk_of_waitStart hd, hac, hdc]
      exact ⟨hv, haddr, hrem⟩
    · exact Engine.channelsOk_run h hrun hinc hw hd hac hdc
  · rw [Engine.channelsOk_of_waitStart hd, hac, hdc]
    exact (Engine.channelsOk_of_waitStart hwait).1 h

end

/-- A reset edge leaves the engine idle with every latch clear (R343). -/
theorem Engine.ok_resetEdge (c : Config) (e : Engine) : e.resetEdge.ok c :=
  ⟨⟨rfl, Nat.two_pow_pos _⟩, ⟨Nat.two_pow_pos _, fun _ => rfl, nofun⟩,
    (Engine.channelsOk_of_waitStart rfl).2 ⟨rfl, rfl, rfl⟩⟩

/-- An edge that breaks no duty keeps the engine's invariant. -/
theorem State.nextEng_ok {s : State} (h : s.eng.ok s.cfg) (hbr : s.engineBreach = none) : s.nextEng.ok s.cfg := by
  unfold State.nextEng
  split
  · exact Engine.ok_resetEdge _ _
  · next hrst =>
    rw [State.engineBreach, if_neg hrst] at hbr
    obtain ⟨hregs, htrk, hchannels⟩ := (Engine.ok_iff _ _).1 h
    exact (Engine.ok_iff _ _).2 ⟨DmaRegs.ok_next hregs _, Tracker.ok_next htrk _ _ _ _, Engine.channelsOk_next hchannels hregs.1 hbr⟩

end Sys2Proof.Machine

open Sys2Proof Sys2Proof.Machine

/-- Settles O49: the step is an edge that breaks no duty, so a run it starts lies below `2^32`. -/
theorem stepKeepsTheEngineConsistent : Obligations.StepKeepsTheEngineConsistent := by
  intro s t h hstep
  obtain ⟨-, hbr, rfl⟩ := of_step_eq_next hstep
  exact State.nextEng_ok h (State.breach_eq_none_iff.1 hbr).2

/-- Settles O34: the first burst is cut at the next multiple of 128. -/
theorem firstBurstEndsAtTheBoundary : Obligations.FirstBurstEndsAtTheBoundary := fun _ _ => firstLen_spec

end

section
/-! PROOF. The address-advance sequencer (spec 40_address_sequencer.md): a word whose low bits are one word's and whose high
bits are another's is, as a number, a window and a place in it. -/

namespace Sys2Proof.Machine

/-! ## A window of `2 ^ n` bytes -/

/-- The high bits of `a` with the low bits of `v`, as `advance` and the closed form of R138 put them together. -/
def windowed (mask a v : Word) : Word := (a &&& ~~~mask) ||| (v &&& mask)

theorem advance_eq_windowed (cur mask : Word) (size : BitVec 2) :
    advance cur mask size = windowed mask cur (cur + (1#32 <<< size.toNat)) := rfl

section
variable {mask : Word} {n : Nat} (hm : mask.toNat + 1 = 2 ^ n)
include hm

/-- The mask of a window has exactly the bits below `n`. -/
theorem getLsbD_windowMask (i : Nat) : mask.getLsbD i = decide (i < n) := by
  rw [BitVec.getLsbD, Nat.eq_sub_of_add_eq hm, Nat.testBit_two_pow_sub_one]

/-- As a number: the window `a` lies in, and the place of `v` in its own. -/
theorem windowed_toNat (a v : Word) : (windowed mask a v).toNat = 2 ^ n * (a.toNat / 2 ^ n) + v.toNat % 2 ^ n := by
  refine Nat.eq_of_testBit_eq fun i => ?_
  rw [Nat.testBit_two_pow_mul_add _ (Nat.mod_lt _ (Nat.two_pow_pos n)), Nat.testBit_mod_two_pow, Nat.testBit_div_two_pow,
    BitVec.testBit_toNat, windowed, BitVec.getLsbD_or, BitVec.getLsbD_and, BitVec.getLsbD_and, BitVec.getLsbD_not,
    getLsbD_windowMask hm, BitVec.testBit_toNat, BitVec.testBit_toNat]
  by_cases hi : i < n
  · simp [hi]
  · have hsub : i - n + n = i := by omega
    by_cases h32 : i < 32
    · simp [hi, h32, hsub]
    · simp [hi, hsub, BitVec.getLsbD_of_ge a i (Nat.not_lt.1 h32)]

/-- A window is at most the address space. -/
theorem windowSize_dvd : 2 ^ n ∣ 2 ^ 32 := by
  refine Nat.pow_dvd_pow 2 (Nat.not_lt.1 fun hn => ?_)
  have hlt := Nat.pow_lt_pow_right (a := 2) (by decide) hn
  have hmask := mask.isLt
  omega

/-- The sum of two words, seen in a window, does not notice the wrap at `2^32`. -/
theorem windowed_add_toNat (a v w : Word) :
    (windowed mask a (v + w)).toNat = 2 ^ n * (a.toNat / 2 ^ n) + (v.toNat + w.toNat) % 2 ^ n := by
  rw [windowed_toNat hm, BitVec.toNat_add, Nat.mod_mod_of_dvd _ (windowSize_dvd hm)]

theorem windowed_toNat_div (a v : Word) : (windowed mask a v).toNat / 2 ^ n = a.toNat / 2 ^ n := by
  rw [windowed_toNat hm, Nat.mul_add_div (Nat.two_pow_pos n), Nat.div_eq_of_lt (Nat.mod_lt _ (Nat.two_pow_pos n)),
    Nat.add_zero]

theorem windowed_self (a : Word) : windowed mask a a = a :=
  BitVec.eq_of_toNat_eq (by rw [windowed_toNat hm, Nat.div_add_mod])

/-- Stepping inside the window from the place of `v` is stepping from `v`. -/
theorem windowed_windowed_add (a v w : Word) :
    windowed mask (windowed mask a v) (windowed mask a v + w) = windowed mask a (v + w) := by
  apply BitVec.eq_of_toNat_eq
  rw [windowed_add_toNat hm, windowed_toNat_div hm, windowed_add_toNat hm, windowed_toNat hm, Nat.add_assoc,
    Nat.mul_add_mod, Nat.mod_add_mod]

/-- Whole windows do not move the place. -/
theorem windowed_add_window (a : Word) : windowed mask a (a + BitVec.ofNat 32 (2 ^ n)) = a := by
  apply BitVec.eq_of_toNat_eq
  rw [windowed_add_toNat hm, BitVec.toNat_ofNat, ← Nat.add_mod_mod, Nat.mod_mod_of_dvd _ (windowSize_dvd hm), Nat.mod_self,
    Nat.add_zero, Nat.div_add_mod]

end

/-! ## Beat `k` of a burst -/

/-- The beat size of R93 as a word. -/
theorem one_shiftLeft_size : ∀ size : BitVec 2, (1#32 <<< size.toNat) = BitVec.ofNat 32 (2 ^ size.toNat) := by decide

/-- The offset of beat `k + 1` is that of beat `k` and one beat size. -/
theorem beatOffset_succ (size : BitVec 2) (k : Nat) :
    BitVec.ofNat 32 ((k + 1) * 2 ^ size.toNat) = BitVec.ofNat 32 (k * 2 ^ size.toNat) + (1#32 <<< size.toNat) := by
  rw [one_shiftLeft_size, ← BitVec.ofNat_add, Nat.succ_mul]

/-- Beat `k` of a burst in a window is `k` beat sizes on, inside the window (R138). -/
theorem advance_iterate {mask : Word} {n : Nat} (hm : mask.toNat + 1 = 2 ^ n) (size : BitVec 2) (addr : Word) (k : Nat) :
    (fun a => advance a mask size)^[k] addr = windowed mask addr (addr + BitVec.ofNat 32 (k * 2 ^ size.toNat)) := by
  induction k with
  | zero =>
    rw [Nat.zero_mul, BitVec.add_zero, windowed_self hm]
    rfl
  | succ k ih =>
    rw [Function.iterate_succ_apply', ih, advance_eq_windowed, windowed_windowed_add hm, BitVec.add_assoc,
      ← beatOffset_succ]

/-- A legal WRAP length is a power of two of beats (R105). -/
theorem beats_of_wrapLenOk {len : BitVec 4} (h : wrapLenOk len = true) : ∃ m ≤ 4, len.toNat + 1 = 2 ^ m := by
  simp only [wrapLenOk, Bool.or_eq_true, decide_eq_true_eq] at h
  rcases h with ((rfl | rfl) | rfl) | rfl
  · exact ⟨1, by decide⟩
  · exact ⟨2, by decide⟩
  · exact ⟨3, by decide⟩
  · exact ⟨4, by decide⟩

/-- The mask of a legal WRAP command spans its whole burst (R131). -/
theorem wrapMask_toNat {len : BitVec 4} {size : BitVec 2} {mask : Word} (hlen : wrapLenOk len = true)
    (hmask : wrapMask burstWrap len size = some mask) :
    mask.toNat + 1 = (len.toNat + 1) * 2 ^ size.toNat ∧ ∃ n, mask.toNat + 1 = 2 ^ n := by
  obtain rfl : BitVec.ofNat 32 ((len.toNat + 1) * 2 ^ size.toNat - 1) = mask := Option.some.inj hmask
  obtain ⟨m, hm4, hm⟩ := beats_of_wrapLenOk hlen
  have hsize := size.isLt
  have hspan : 2 ^ m * 2 ^ size.toNat = 2 ^ (m + size.toNat) := (pow_add 2 m size.toNat).symm
  have hsmall : 2 ^ (m + size.toNat) ≤ 2 ^ 7 := Nat.pow_le_pow_right (by decide) (by omega)
  have hpos := Nat.two_pow_pos (m + size.toNat)
  have heq : (BitVec.ofNat 32 ((len.toNat + 1) * 2 ^ size.toNat - 1)).toNat + 1 = 2 ^ (m + size.toNat) := by
    rw [hm, hspan, BitVec.toNat_ofNat]
    omega
  exact ⟨by rw [heq, hm, hspan], _, heq⟩

/-- With every bit in the window a beat only adds its size (R137). -/
theorem windowed_allOnes (a v : Word) : windowed (BitVec.allOnes 32) a v = v := by
  rw [windowed, BitVec.not_allOnes, BitVec.and_zero, BitVec.zero_or, BitVec.and_allOnes]

/-- With no bit in the window a beat does not move (R136). -/
theorem windowed_zero (a v : Word) : windowed 0#32 a v = a := by
  rw [windowed, BitVec.not_zero, BitVec.and_allOnes, BitVec.and_zero, BitVec.or_zero]

end Sys2Proof.Machine

open Sys2Proof Sys2Proof.Machine

/-- Settles O7: the mask spans the burst, a window of a power of two bytes, so `len + 1` beats are the whole window. -/
theorem wrapBurstVisitsItsWindow : Obligations.WrapBurstVisitsItsWindow := by
  intro addr mask len size hlen hmask
  obtain ⟨hspan, n, hm⟩ := wrapMask_toNat hlen hmask
  refine ⟨advance_iterate hm size addr, fun k => ?_, ?_⟩
  · rw [advance_iterate hm, hm, windowed_toNat_div hm]
  · rw [advance_iterate hm, ← hspan, hm, windowed_add_window hm]

/-- Settles O8: FIXED is a window of one byte, INCR the whole address space. -/
theorem fixedStaysAndIncrClimbs : Obligations.FixedStaysAndIncrClimbs := by
  intro addr mf mi len size k hf hi
  obtain rfl : (0 : Word) = mf := Option.some.inj hf
  obtain rfl : BitVec.allOnes 32 = mi := Option.some.inj hi
  constructor
  · exact (advance_iterate (n := 0) rfl size addr k).trans (windowed_zero _ _)
  · rw [advance_iterate (n := 32) rfl, windowed_allOnes]

end

section
/-! PROOF. The write channels of a slave (spec 42_write_channel.md): a command or a response driven on the pins of a slave
reaches nothing but its write machine, and breaks no duty but one of the command it captures. -/

namespace Sys2Proof.Machine

/-! ## Driving a slave's pins -/

/-- What is driven on a slave's pins counts only at the pins as they are. -/
theorem Inputs.onPort_congr {p : Port} {f g : SlaveIn → SlaveIn} {i : Inputs} (h : f (i.port p) = g (i.port p)) :
    i.onPort p f = i.onPort p g := by
  cases p <;> simp_all [Inputs.onPort, Inputs.port]

section
variable (p q : Port) (f g : SlaveIn → SlaveIn) (s : State)

@[simp] theorem State.drivePort_resetsW : (s.drivePort p f).resetsW q = s.resetsW q :=
  State.drive_resetsW_of_rst (Inputs.onPort_rst p f s.inputs) q

@[simp] theorem State.drivePort_resetsR : (s.drivePort p f).resetsR q = s.resetsR q :=
  State.drive_resetsR_of_rst (Inputs.onPort_rst p f s.inputs) q

@[simp] theorem State.drivePort_rst : (s.drivePort p f).inputs.rst = s.inputs.rst := by simp

theorem State.drivePort_port_self :
    (s.drivePort p f).inputs.port p = (f (s.inputs.port p)).fit s.cfg.sIdW := by
  rw [State.drivePort_inputs, Inputs.onPort_port]

/-- The commands on the pins have ids the ports carry (log 16). -/
@[simp] theorem State.inputs_aw_fit : (s.inputs.port p).aw.map (fitCmd s.cfg.sIdW) = (s.inputs.port p).aw :=
  congrArg SlaveIn.aw (s.inputs_port_fit p)

@[simp] theorem State.inputs_ar_fit : (s.inputs.port p).ar.map (fitCmd s.cfg.sIdW) = (s.inputs.port p).ar :=
  congrArg SlaveIn.ar (s.inputs_port_fit p)

end

section
variable {p q : Port} {f g : SlaveIn → SlaveIn} {s : State}

theorem State.drivePort_port_ne (h : q ≠ p) : (s.drivePort p f).inputs.port q = s.inputs.port q := by
  rw [State.drivePort_inputs, Inputs.onPort_port_ne h]

/-- Another slave captures what it does without the drive. -/
theorem State.drivePort_portBreach_ne (h : q ≠ p) : (s.drivePort p f).portBreach q = s.portBreach q := by
  simp [State.portBreach, State.capturesW, State.capturesR, Inputs.onPort_port_ne h]

/-- The edge sees of what is driven only what the ports carry (log 16). -/
theorem State.drivePort_clock_congr
    (h : (f (s.inputs.port p)).fit s.cfg.sIdW = (g (s.inputs.port p)).fit s.cfg.sIdW) :
    (s.drivePort p f).clock = (s.drivePort p g).clock := by
  refine State.clock_congr (s := s.drivePort p g) (f := s.inputs.onPort p f :: s.feed.tail) ?_ rfl
  have hpins : (s.drivePort p f).inputs = (s.drivePort p g).inputs := by
    rw [State.drivePort_inputs, State.drivePort_inputs]
    exact Inputs.onPort_congr h
  exact hpins

section
variable (hw : ∀ j, (f j).w = j.w)
include hw

/-- With W as it was, every slave accepts the beat it accepts without the drive. -/
theorem State.drivePort_acceptsW : (s.drivePort p f).acceptsW q = s.acceptsW q := by
  by_cases h : q = p
  · subst h
    simp [State.acceptsW, WriteMachine.accepts, hw]
  · simp [State.acceptsW, Inputs.onPort_port_ne h]

theorem State.drivePort_regWrite : (s.drivePort p f).regWrite = s.regWrite := by
  rw [State.regWrite, State.drivePort_acceptsW hw]
  rfl

theorem State.drivePort_engineBreach : (s.drivePort p f).engineBreach = s.engineBreach := by
  rw [State.engineBreach, State.drivePort_rst, State.drivePort_regWrite hw]
  rfl

/-- Where an edge would run, driving AW, B or the read channels of a slave lets it run if the slave then breaks no duty. -/
theorem State.drivePort_runs (hr : s.runs) (hp : (s.drivePort p f).portBreach p = none) : (s.drivePort p f).runs := by
  obtain ⟨hwf, hrst, hbr⟩ := hr
  obtain ⟨hports, heng⟩ := State.breach_eq_none_iff.1 hbr
  refine ⟨hwf, by simpa using hrst, State.breach_eq_none_iff.2 ⟨fun q => ?_, (State.drivePort_engineBreach hw).trans heng⟩⟩
  by_cases h : q = p
  · exact h ▸ hp
  · rw [State.drivePort_portBreach_ne h, hports q]

/-- The edge then completes, and the slave's write machine moves on the pins driven. -/
theorem State.drivePort_clock_of_runs (hr : s.runs) (hp : (s.drivePort p f).portBreach p = none) :
    ∃ t, (s.drivePort p f).clock = .next t ∧ t.wm p = (s.wm p).next (Config.base p s.cfg) (Config.cells p s.cfg)
      ((f (s.inputs.port p)).fit s.cfg.sIdW) := by
  obtain ⟨hwf, hrst, hbr⟩ := State.drivePort_runs hw hr hp
  refine ⟨_, State.clock_eq_next_iff.2 ⟨hwf, hbr, rfl⟩, ?_⟩
  rw [State.edge_wm, State.nextW_of_low hrst, State.drivePort_wm, State.drivePort_port_self, State.drivePort_cfg]

end

/-- Where an edge would run, a duty the driven slave breaks is the one the edge is refused for. -/
theorem State.drivePort_clock_refused {r : Refusal} (hr : s.runs) (hp : (s.drivePort p f).portBreach p = some r) :
    (s.drivePort p f).clock = .refused r := by
  obtain ⟨hwf, -, hbr⟩ := hr
  obtain ⟨hports, -⟩ := State.breach_eq_none_iff.1 hbr
  have hother (q : Port) (h : q ≠ p) : (s.drivePort p f).portBreach q = none :=
    (State.drivePort_portBreach_ne h).trans (hports q)
  refine State.clock_eq_refused hwf ?_
  cases p with
  | bank => simp [State.breach, hp]
  | dma => simp [State.breach, hp, hother .bank nofun]
  | ref => simp [State.breach, hp, hother .bank nofun, hother .dma nofun]

end

/-! ## What a command captured breaks -/

/-- The id has no part in the duties on a command. -/
@[simp] theorem commandBreach_fitCmd (w : Nat) (c : AxCmd) : commandBreach (fitCmd w c) = commandBreach c := rfl

section
variable {s : State} {p : Port} (hr : s.runs)
include hr

/-- A write command offered where the machine waits for an address is judged for its own duties. -/
theorem State.portBreach_offerAw (hs : (s.wm p).wstate = .waitAddr) (c : AxCmd) :
    (s.drivePort p fun q => { q with aw := some c }).portBreach p = commandBreach c := by
  obtain ⟨-, hrst, hbr⟩ := hr
  obtain ⟨-, hread⟩ := Option.or_eq_none_iff.1 ((State.breach_eq_none_iff.1 hbr).1 p)
  have hcapR : (s.drivePort p fun q => { q with aw := some c }).capturesR p = s.capturesR p := by
    simp [State.capturesR, ReadMachine.captures]
  rw [State.portBreach, hcapR, hread, Option.or_none]
  simp [State.capturesW, State.resetsW_of_low hrst, WriteMachine.captures, hs]

/-- A read command offered where the machine waits with `arready` up is judged for its own duties. -/
theorem State.portBreach_offerAr (hs : (s.rm p).rstate = .waitValid) (hy : (s.rm p).arready = true) (c : AxCmd) :
    (s.drivePort p fun q => { q with ar := some c }).portBreach p = commandBreach c := by
  obtain ⟨-, hrst, hbr⟩ := hr
  obtain ⟨hwrite, -⟩ := Option.or_eq_none_iff.1 ((State.breach_eq_none_iff.1 hbr).1 p)
  have hcapW : (s.drivePort p fun q => { q with ar := some c }).capturesW p = s.capturesW p := by
    simp [State.capturesW, WriteMachine.captures]
  rw [State.portBreach, hcapW, hwrite, Option.none_or]
  simp [State.capturesR, State.resetsR_of_low hrst, ReadMachine.captures, hs, hy]

end

/-- Offering a legal command to a machine that waits for an address completes, and the machine captures it, with the bits
of the id its port carries (R173, log 16). -/
theorem offerAw_captures {s : State} {p : Port} {c : AxCmd} (hr : s.runs) (hs : (s.wm p).wstate = .waitAddr)
    (hlegal : c.legal = true) :
    ∃ t, offerAw p c s = .next t ∧ t.wm p = (s.wm p).capture (fitCmd s.cfg.sIdW c) := by
  obtain ⟨t, hnext, hwm⟩ := State.drivePort_clock_of_runs (p := p) (f := fun q => { q with aw := some c }) (fun _ => rfl) hr
    ((State.portBreach_offerAw hr hs c).trans ((commandBreach_eq_none_iff c).2 hlegal))
  refine ⟨t, hnext, hwm.trans ?_⟩
  simp [WriteMachine.next, WriteMachine.captures, hs]

/-- Taking the response on offer completes, and the machine gives it (R180). -/
theorem takeB_gives {s : State} {p : Port} {b : BResp} (hr : s.runs) (hb : (s.wm p).offersB = some b) :
    ∃ t, takeB p b s = .next t ∧ t.wm p = (s.wm p).give := by
  obtain ⟨hs, -⟩ : (s.wm p).wstate = .waitRespReady ∧ _ := by
    unfold WriteMachine.offersB at hb
    split_ifs at hb with hoffer
    exact hoffer
  have hport : (s.drivePort p fun q => { q with bready := decide ((s.wm p).offersB = some b) }).portBreach p = none := by
    rw [← (State.breach_eq_none_iff.1 hr.2.2).1 p]
    simp [State.portBreach, State.capturesW, State.capturesR, WriteMachine.captures, ReadMachine.captures]
  obtain ⟨t, hnext, hwm⟩ := State.drivePort_clock_of_runs (p := p)
    (f := fun q => { q with bready := decide ((s.wm p).offersB = some b) }) (fun _ => rfl) hr hport
  refine ⟨t, hnext, hwm.trans ?_⟩
  simp [WriteMachine.next, WriteMachine.gives, hs, hb]

/-- Two commands the ports carry as one are one operation on AW (log 16). -/
theorem offerAw_congr {c d : AxCmd} {s : State} (h : fitCmd s.cfg.sIdW c = fitCmd s.cfg.sIdW d) (p : Port) :
    offerAw p c s = offerAw p d s :=
  State.drivePort_clock_congr (by simp [SlaveIn.fit, h])

theorem offerAr_congr {c d : AxCmd} {s : State} (h : fitCmd s.cfg.sIdW c = fitCmd s.cfg.sIdW d) (p : Port) :
    offerAr p c s = offerAr p d s :=
  State.drivePort_clock_congr (by simp [SlaveIn.fit, h])

/-- The duty a command breaks, by the order of log 12: WRAP length, size, alignment. -/
theorem commandBreach_of_wrap {c : AxCmd} (hb : c.burst = burstWrap) (hlen : wrapLenOk c.len = false) :
    commandBreach c = some .malformedWrap := by
  simp [commandBreach, hb, hlen, burstRsvd, burstWrap]

theorem commandBreach_of_size_or_alignment {c : AxCmd} {r : Refusal} (hb : c.burst ≠ burstRsvd)
    (hlen : c.burst = burstWrap → wrapLenOk c.len = true)
    (hr : (r = .sizeTooWide ∧ c.size = 3) ∨
      (r = .misaligned ∧ c.size ≠ 3 ∧ c.addr.toNat % 2 ^ c.size.toNat ≠ 0)) : commandBreach c = some r := by
  have hwrap : ¬(c.burst = burstWrap ∧ wrapLenOk c.len = false) := fun ⟨hw, hl⟩ => by
    rw [hlen hw] at hl
    cases hl
  rw [commandBreach, if_neg hb, if_neg hwrap]
  rcases hr with ⟨rfl, hs⟩ | ⟨rfl, hs, ha⟩
  · exact if_pos hs
  · rw [if_neg hs]
    exact if_pos (decide_eq_false ha)

/-- Where every offered command is refused for the duty it breaks, the names are those of U2, U3 and U4, for the three
burst types. -/
theorem refused_of_commandBreach {offer : AxCmd → Host.Outcome State Fault Refusal}
    (h : ∀ c r, commandBreach c = some r → offer c = .refused r) (id : Nat) (size : BitVec 2) (len : BitVec 4) (addr : Word) :
    (wrapLenOk len = false → offer ⟨id, addr, len, size, burstWrap⟩ = .refused .malformedWrap) ∧
    (∀ r, (r = .sizeTooWide ∧ size = 3) ∨ (r = .misaligned ∧ size ≠ 3 ∧ addr.toNat % 2 ^ size.toNat ≠ 0) →
      offer ⟨id, addr, len, size, burstFixed⟩ = .refused r ∧ offer ⟨id, addr, len, size, burstIncr⟩ = .refused r ∧
      (wrapLenOk len = true → offer ⟨id, addr, len, size, burstWrap⟩ = .refused r)) :=
  ⟨fun hlen => h _ _ (commandBreach_of_wrap rfl hlen), fun _ hr =>
    ⟨h _ _ (commandBreach_of_size_or_alignment nofun nofun hr), h _ _ (commandBreach_of_size_or_alignment nofun nofun hr),
      fun hlen => h _ _ (commandBreach_of_size_or_alignment nofun (fun _ => hlen) hr)⟩⟩

end Sys2Proof.Machine

open Sys2Proof Sys2Proof.Machine

/-- Settles O10: the three operations offer a command that the waiting machine captures, each with the mask of its burst
type, and the port carries the low bits of the id. -/
theorem writeCommandIsCaptured : Obligations.WriteCommandIsCaptured := by
  refine ⟨fun s p id size len addr hr hs i burst mask hi hlegal => ?_, fun s p id low size len addr hlow => ?_⟩
  · obtain ⟨hexec, hmask⟩ : exec i s = offerAw p ⟨id, addr, len, size, burst⟩ s ∧
        wrapMask burst len size = some mask := by
      rcases hi with ⟨rfl, rfl, rfl⟩ | ⟨rfl, rfl, rfl⟩ | ⟨rfl, rfl, rfl⟩ <;> exact ⟨exec_eq _ s, rfl⟩
    obtain ⟨t, hnext, hwm⟩ := offerAw_captures hr hs hlegal
    refine ⟨t, hexec.trans hnext, hwm.trans ?_⟩
    simp only [WriteMachine.capture, fitCmd, hmask, Option.getD_some]
    rfl
  · have hfit (burst : BitVec 2) :
        fitCmd s.cfg.sIdW ⟨id, addr, len, size, burst⟩ = fitCmd s.cfg.sIdW ⟨low, addr, len, size, burst⟩ := by
      simp [fitCmd, fitId, hlow]
    exact ⟨offerAw_congr (hfit _) p, offerAw_congr (hfit _) p, offerAw_congr (hfit _) p, offerAr_congr (hfit _) p,
      offerAr_congr (hfit _) p, offerAr_congr (hfit _) p⟩

/-- Settles O12: the last beat is one the machine takes, with the write-last flag. -/
theorem lastBeatEndsTheBurst : Obligations.LastBeatEndsTheBurst := by
  intro s p strb data hr hw hy hs
  obtain ⟨t, hexec, hwm⟩ := offerW_takes (b := ⟨true, strb, data⟩) hr hw hy hs
  exact ⟨t, (exec_eq _ s).trans hexec, hwm⟩

/-- Settles O15: each operation names the response on offer, so it is taken. -/
theorem responseIsHandedOver : Obligations.ResponseIsHandedOver := by
  intro s p hr hs hv i hi
  have hexec : exec i s = takeB p ⟨(s.wm p).bid, (s.wm p).bresp⟩ s := by
    rcases hi with ⟨rfl, hresp⟩ | ⟨rfl, hresp⟩ <;> rw [hresp] <;> exact exec_eq _ s
  obtain ⟨t, hnext, hwm⟩ := takeB_gives hr (if_pos ⟨hs, hv⟩)
  exact ⟨t, hexec.trans hnext, hwm⟩

/-- Settles O21: the command is captured at the driven edge, which is refused for the duty the command breaks first. -/
theorem malformedCommandIsRefusedAtCapture : Obligations.MalformedCommandIsRefusedAtCapture := by
  intro s p id size len addr hr
  refine ⟨fun hs => ?_, fun hs hy => ?_⟩
  · exact refused_of_commandBreach (offer := (offerAw p · s))
      (fun c _ h => State.drivePort_clock_refused hr ((State.portBreach_offerAw hr hs c).trans h)) id size len addr
  · exact refused_of_commandBreach (offer := (offerAr p · s))
      (fun c _ h => State.drivePort_clock_refused hr ((State.portBreach_offerAr hr hs hy c).trans h)) id size len addr

/-- Settles O25: the beat on the wires carries the word's value. -/
theorem decidedRegisterReads : Obligations.DecidedRegisterReads := by
  intro s hr
  refine ⟨fun hat => ?_, fun hat => ?_, fun hat => ?_⟩
  all_goals
    obtain ⟨t, hnext, hgave, -⟩ := readAccess_gives hr (State.offersR_of_atReadOf hat) hat
    exact ⟨t, (exec_eq _ s).trans hnext, hgave⟩

end

section
/-! PROOF. Writes of the control word of the DMA block (spec 45_dma_registers.md section 5, 46_dma_burst_splitter.md section
3): a start pulse in `WAIT_START` loads both channels or is refused, and any other write of control changes nothing. -/

namespace Sys2Proof.Machine

/-! ## The pulses of a register write -/

/-- The start bit in an enabled lane of a beat at word 3 is a start pulse (R239). -/
theorem startPulse_control (be : BitVec 4) (d : Word) :
    startPulse (some ⟨3, be, d⟩) = (be.getLsbD 0 && d.getLsbD 0) := rfl

section
variable {s : State} {b : WBeat} (hrst : s.inputs.rst = false) (hat : s.atWriteOf 3 = true)
include hrst hat

/-- The engine at the edge of a beat at the control word. -/
theorem State.withBeat_nextEng_control : (s.withBeat .dma b).nextEng =
    s.eng.next s.cfg s.inputs s.fifo (some ⟨3, b.strb, b.data⟩) (Config.outlastsStart s.cycle) := by
  rw [← State.withBeat_regWrite_of_atWriteOf hrst hat b]
  exact State.drivePort_nextEng hrst _ _

/-- The duty a beat at the control word breaks at the engine. -/
theorem State.withBeat_engineBreach_control :
    (s.withBeat .dma b).engineBreach = s.eng.breach (some ⟨3, b.strb, b.data⟩) := by
  rw [State.engineBreach, State.withBeat_rst, hrst, State.withBeat_regWrite_of_atWriteOf hrst hat b]
  rfl

end

/-- At the control word WR.CTRL is the edge of the cycle with its beat on the pins. -/
theorem exec_wrCtrl_eq_clock {s : State} (hat : s.atWriteOf 3 = true) (last : Bool) (be : BitVec 4) (d : Word) :
    exec (.wrCtrl last be d) s = (s.withBeat .dma ⟨last, be, d⟩).clock :=
  (exec_eq _ s).trans (writeAccess_eq_offerW hat _)

section
variable {s : State} {last : Bool} {be : BitVec 4} {d : Word} (hr : s.runs) (hat : s.atWriteOf 3 = true)
include hr hat

/-- A write of control completes where a start it is would break no duty. -/
theorem exec_wrCtrl_eq_next (hs : be.getLsbD 0 = true → d.getLsbD 0 = true → s.startAllowed) :
    exec (.wrCtrl last be d) s = .next (s.withBeat .dma ⟨last, be, d⟩).edge := by
  obtain ⟨hw, hy, -, -⟩ := State.atWriteOf_iff.1 hat
  obtain ⟨hwf, -, hbr⟩ := State.runs_withAcceptedBeat (p := .dma) (b := ⟨last, be, d⟩) hr hw hy fun _ _ => hs
  rw [exec_wrCtrl_eq_clock hat]
  exact State.clock_eq_next_iff.2 ⟨hwf, hbr, rfl⟩

/-- A write of control is refused for the duty it breaks at the engine. -/
theorem exec_wrCtrl_refused {r : Refusal} (h : s.eng.breach (some ⟨3, be, d⟩) = some r) :
    exec (.wrCtrl last be d) s = .refused r := by
  obtain ⟨hwf, hrst, hbr⟩ := hr
  obtain ⟨hports, -⟩ := State.breach_eq_none_iff.1 hbr
  rw [exec_wrCtrl_eq_clock hat]
  refine State.clock_eq_refused hwf ?_
  simp [State.breach, hports, State.withBeat_engineBreach_control hrst hat, h]

end

/-! ## The engine at a write of control -/

section
variable (c : Config) {e : Engine} (i : Inputs) (fifo : List DWord) {wr : Option RegWrite} (o : Bool)

/-- At a start the latches come out cleared, or holding the error code of a response of the same edge (log 22). -/
theorem Engine.next_latches_of_starts (h : e.starts wr = true) :
    ((e.next c i fifo wr o).trk.err = false ∧ (e.next c i fifo wr o).trk.errResp = respOkay) ∨
    ∃ b, i.mB = some b ∧ b.resp.getLsbD 1 = true ∧
      (e.next c i fifo wr o).trk.err = true ∧ (e.next c i fifo wr o).trk.errResp = b.resp := by
  simp only [Engine.next, Tracker.next, h]
  exact Tracker.latched_start e.trk i.mB o

/-- A write of control that starts nothing is as no register write. -/
theorem Engine.next_control_of_not_starts {be : BitVec 4} {d : Word} (h : e.starts (some ⟨3, be, d⟩) = false) :
    e.next c i fifo (some ⟨3, be, d⟩) o = e.next c i fifo none o := by
  have hnone : e.starts none = false := rfl
  simp only [Engine.next, h, hnone]
  rfl

/-- Without a start `WAIT_START` is kept. -/
theorem Engine.next_waitStart (h : e.starts wr = false) (hwait : e.dstate = .waitStart) :
    (e.next c i fifo wr o).dstate = .waitStart := by
  simp [Engine.next, Engine.nextState, h, hwait]

end

end Sys2Proof.Machine

open Sys2Proof Sys2Proof.Machine

/-- Settles O31: the pulse breaks no duty, and at the driven edge both channels are loaded from the configuration. -/
theorem startBeginsTheRun : Obligations.StartBeginsTheRun := by
  rintro s last be d n f hr hat hbe hd hwait howed htop rfl rfl
  have hstart : s.eng.starts (some ⟨3, be, d⟩) = true := by simp [Engine.starts, startPulse_control, hbe, hd, hwait]
  have heng := State.withBeat_nextEng_control (b := ⟨last, be, d⟩) hr.2.1 hat
  obtain ⟨hstate, hac, hdc⟩ := Engine.next_of_starts s.cfg s.inputs s.fifo (Config.outlastsStart s.cycle) hstart
  refine ⟨_, exec_wrCtrl_eq_next hr hat fun _ _ => .inr ⟨howed, htop⟩, ?_⟩
  rw [State.edge_eng, heng, hac, hdc]
  refine ⟨hstate, Engine.next_latches_of_starts _ _ _ _ hstart, rfl, rfl, AddrChannel.start_awlen _, ?_, rfl, rfl,
    DataChannel.start_bRem _, rfl⟩
  exact Nat.sub_add_cancel (Nat.min_le_left _ _)

/-- Settles O32: without a start the write of control is as no register write. -/
theorem controlWriteWithoutStart : Obligations.ControlWriteWithoutStart := by
  intro s last be d hr hat hno
  have hrst : s.inputs.rst = false := hr.2.1
  have hstart : s.eng.starts (some ⟨3, be, d⟩) = false := by
    rcases hno with h | h | h
    · simp only [Engine.starts, startPulse_control, h, Bool.false_and]
    · simp only [Engine.starts, startPulse_control, h, Bool.and_false, Bool.false_and]
    · exact Engine.starts_of_run h _
  have hallowed : be.getLsbD 0 = true → d.getLsbD 0 = true → s.startAllowed := fun hbe hd => by
    rcases hno with h | h | h
    · rw [hbe] at h; cases h
    · rw [hd] at h; cases h
    · exact .inl h
  have heng : (s.withBeat .dma ⟨last, be, d⟩).nextEng = s.withoutRegWrite.nextEng := by
    rw [State.withBeat_nextEng_control hrst hat, Engine.next_control_of_not_starts _ _ _ _ hstart,
      State.withoutRegWrite_nextEng hrst]
  refine ⟨_, _, exec_wrCtrl_eq_next hr hat hallowed, step_withoutRegWrite hr, ?_⟩
  rw [State.edge_eng, State.edge_eng, heng]
  refine ⟨State.withoutRegWrite_nextEng_regs hrst, fun hwait => ?_, rfl, State.withoutRegWrite_nextEng_of_quiet⟩
  rw [State.withoutRegWrite_nextEng hrst]
  exact Engine.next_waitStart _ _ _ _ rfl hwait

/-- Settles O33: the pulse starts the engine, which breaks the duty named first. -/
theorem startThatBreaksADutyIsRefused : Obligations.StartThatBreaksADutyIsRefused := by
  intro s last be d hr hat hbe hd hwait
  have hstart : s.eng.starts (some ⟨3, be, d⟩) = true := by simp [Engine.starts, startPulse_control, hbe, hd, hwait]
  refine ⟨fun howed => exec_wrCtrl_refused hr hat ?_, fun hnone htop => exec_wrCtrl_refused hr hat ?_⟩
  · simp [Engine.breach, hstart, howed]
  · have hpast : s.eng.regs.pastTop = true := decide_eq_true htop
    simp [Engine.breach, hstart, hnone, hpast]

end

section
/-! PROOF. What the engine hands over and takes at an edge (spec 46_dma_burst_splitter.md section 4,
47_dma_response_tracker.md): the data word's bytes, the error latches, the pending bit, and how `busy` rises. -/

namespace Sys2Proof.Machine

/-! ## A double word written to byte memory -/

/-- The lanes of a double word lie at different addresses, wherever it is. -/
theorem laneAddr_ne_of_ne (a : Word) {j k : Nat} (hj : j < 8) (hk : k < 8) (h : j ≠ k) : laneAddr a j ≠ laneAddr a k := by
  intro heq
  have hlane : BitVec.ofNat 32 j = BitVec.ofNat 32 k := (BitVec.add_right_inj a).1 (BitVec.eq_of_toNat_eq heq)
  have hmod : j % 2 ^ 32 = k % 2 ^ 32 := congrArg BitVec.toNat hlane
  omega

/-- After the write of lane `j`, lane `k` holds the byte if it is that lane, else what it held. -/
theorem Memory.read_writeLane_true {j k : Nat} (hj : j < 8) (hk : k < 8) (m : List Host.Cell) (a : Word) (b : Byte) :
    Memory.read (Memory.writeLane m a true b j) (laneAddr a k) =
      if j = k then some b else Memory.read m (laneAddr a k) := by
  by_cases h : j = k
  · subst h
    simp [Memory.writeLane]
  · rw [Memory.read_writeLane_ne (laneAddr_ne_of_ne a hk hj (Ne.symm h)), if_neg h]

/-- After a double-word write each lane holds the data's byte (R269). -/
theorem Memory.read_writeDWord_lane {k : Nat} (hk : k < 8) (m : List Host.Cell) (a : Word) (d : DWord) :
    Memory.read (Memory.writeDWord m a d) (laneAddr a k) = some (laneByte64 d k) := by
  interval_cases k <;> simp [Memory.writeDWord, Memory.read_writeLane_true]

/-! ## The data word handed over -/

/-- Taking the data beat on offer takes the head of the FIFO and stores its bytes (R262, R275, log 10). -/
theorem takeMW_stores {s : State} {b : MBeat} (hr : s.runs) (hb : s.eng.offersW s.fifo = some b) :
    ∃ t, takeMW b s = .next t ∧ t.fifo = s.fifo.tail ++ s.inputs.fifoPush ∧ t.eng.gaveW = some b ∧
      t.mem = Memory.writeDWord s.mem s.eng.dataAddr b.data := by
  obtain ⟨t, hnext, heng⟩ := takeMW_completes hr hb
  obtain ⟨-, -, rfl⟩ := State.clock_eq_next_iff.1 hnext
  have hout : (s.drive fun i => { i with mWready := decide (s.eng.offersW s.fifo = some b) }).dataOut = some b := by
    simp [State.dataOut, Engine.dataHandshake, hb, hr.2.1]
  refine ⟨_, hnext, ?_, ?_, ?_⟩
  · rw [State.edge_fifo, State.nextFifo, hout, State.drive_inputs]
    rfl
  · rw [heng]
    exact hb
  · rw [State.edge_mem, State.nextMem, hout]
    rfl

/-! ## The error latches -/

/-- A latched error outlasts everything but a start. -/
theorem Tracker.latched_of_err {t : Tracker} (h : t.err = true) (resp : Option BResp) (o : Bool) :
    (t.latched false resp o).err = true ∧ (t.latched false resp o).errResp = t.errResp := by
  cases resp with
  | none => exact ⟨h, rfl⟩
  | some b =>
    rw [Tracker.latched_no_start]
    simp [Tracker.answered, nextErr, nextErrResp, h]

/-- A response completes at every edge that runs, and the tracker takes its code (R291, U8). -/
theorem offerMB_completes {s : State} (hr : s.runs) (b : BResp) : ∃ t resp, offerMB b s = .next t ∧ resp.resp = b.resp ∧
    t.eng.trk = s.eng.trk.next s.cfg (s.eng.starts s.regWrite) (s.eng.addrHandshake s.inputs) (some resp)
      (Config.outlastsStart s.cycle) := by
  obtain ⟨t, hnext, heng⟩ := State.drive_clock_of_ports (s := s) (f := fun i => { i with mB := some b }) rfl
    (fun p => by cases p <;> rfl) hr
  exact ⟨t, fitResp s.cfg.mIdW b, hnext, rfl, by rw [heng]; rfl⟩

/-! ## The register write of an edge -/

/-- A register write is an accepted beat of the `dma` slave at its word (R230). -/
theorem State.of_regWrite {s : State} {a : RegWrite} (h : s.regWrite = some a) :
    s.atWriteOf a.word = true ∧ ∃ b, s.inputs.dma.w = some b ∧ a.be = b.strb ∧ a.d = b.data := by
  unfold State.regWrite at h
  split at h
  · next b hb =>
    split_ifs at h with hin
    obtain ⟨hw, hy, hpin⟩ : s.dmaW.wstate = .waitData ∧ s.dmaW.wready = true ∧ s.inputs.dma.w = some b :=
      State.of_acceptsW hb
    cases h
    exact ⟨State.atWriteOf_iff.2 ⟨hw, hy, hin, rfl⟩, b, hpin, rfl, rfl⟩
  · cases h

/-- A pulse of word `k` is a write of 1 to bit 0 in an enabled lane 0 of that word. -/
theorem State.of_pulse {s : State} {k : Nat} (h : ∃ a, s.regWrite = some a ∧
    (decide (a.word = k) && a.be.getLsbD 0 && a.d.getLsbD 0) = true) :
    s.atWriteOf k = true ∧ ∃ b, s.inputs.dma.w = some b ∧ b.strb.getLsbD 0 = true ∧ b.data.getLsbD 0 = true := by
  obtain ⟨a, ha, hbits⟩ := h
  simp only [Bool.and_eq_true, decide_eq_true_eq] at hbits
  obtain ⟨⟨rfl, hbe⟩, hd⟩ := hbits
  obtain ⟨hat, b, hpin, hstrb, hdata⟩ := State.of_regWrite ha
  exact ⟨hat, b, hpin, hstrb ▸ hbe, hdata ▸ hd⟩

theorem exists_of_startPulse {wr : Option RegWrite} (h : startPulse wr = true) :
    ∃ a, wr = some a ∧ (decide (a.word = 3) && a.be.getLsbD 0 && a.d.getLsbD 0) = true := by
  cases wr with
  | none => cases h
  | some a => exact ⟨a, rfl, h⟩

theorem exists_of_clearPulse {wr : Option RegWrite} (h : clearPulse wr = true) :
    ∃ a, wr = some a ∧ (decide (a.word = 5) && a.be.getLsbD 0 && a.d.getLsbD 0) = true := by
  cases wr with
  | none => cases h
  | some a => exact ⟨a, rfl, h⟩

/-- A start needs the pulse and `WAIT_START` (R265, R266). -/
theorem Engine.starts_iff {e : Engine} {wr : Option RegWrite} :
    e.starts wr = true ↔ startPulse wr = true ∧ e.dstate = .waitStart := by
  simp [Engine.starts]

/-! ## The engine at an edge without reset -/

section
variable {s : State} (hrst : s.inputs.rst = false)
include hrst

theorem State.nextEng_of_low :
    s.nextEng = s.eng.next s.cfg s.inputs s.fifo s.regWrite (Config.outlastsStart s.cycle) := by
  rw [State.nextEng, hrst]
  rfl

/-- The interrupt registers: `busy_prev` follows `busy`, `int_pend` makes its move (R298 to R300). -/
theorem State.nextEng_irq : s.nextEng.irq =
    ⟨s.eng.busy, nextIntPend s.eng.completionEdge s.eng.regs.intEn (clearPulse s.regWrite) s.eng.irq.intPend⟩ := by
  rw [State.nextEng_of_low hrst]
  rfl

/-- From an idle engine nothing owed, without a start, no edge leads to a busy one. -/
theorem State.nextEng_busy_of_no_start (hok : s.eng.ok s.cfg) (hidle : s.eng.busy = false)
    (hs : s.eng.starts s.regWrite = false) : s.nextEng.busy = false := by
  obtain ⟨hstate, howed⟩ : s.eng.dstate ≠ .run ∧ s.eng.trk.inflight = 0 := by simpa [Engine.busy] using hidle
  have hwait : s.eng.dstate = .waitStart := by cases h : s.eng.dstate <;> simp_all
  obtain ⟨-, -, hnone, -⟩ := hok
  obtain ⟨hv, -⟩ := hnone hwait
  have hinflight : s.nextEng.trk.inflight = 0 := by
    rw [State.nextEng_inflight hrst, howed, Engine.addrHandshake, hv]
    cases s.inputs.mB <;> rfl
  have hstay : s.nextEng.dstate = .waitStart := by
    rw [State.nextEng_of_low hrst]
    exact Engine.next_waitStart _ _ _ _ hs hwait
  simp [Engine.busy, hinflight, hstay]

/-- A run ends at the edge that finds both channels done (R277). -/
theorem State.nextEng_waitStart_iff (hrun : s.eng.dstate = .run) :
    s.nextEng.dstate = .waitStart ↔ s.eng.ac.addrDone = true ∧ s.eng.dc.dRem = 0 := by
  have hnext : s.nextEng.dstate = s.eng.restState := by
    rw [State.nextEng_of_low hrst]
    simp [Engine.next, Engine.nextState, Engine.starts_of_run hrun, Engine.restState]
  rw [hnext, Engine.restState, hrun]
  simp

end

end Sys2Proof.Machine

open Sys2Proof Sys2Proof.Machine

/-- Settles O37: the memory takes the beat on offer, whose bytes are one double-word write at `dataAddr`. -/
theorem dataWordGoesToItsAddress : Obligations.DataWordGoesToItsAddress := by
  intro s d rest i hr hrun hrem hfifo hi
  have hoffer : s.eng.offersW s.fifo = some ⟨decide (s.eng.dc.bRem = 1), d⟩ :=
    hfifo ▸ Engine.offersW_of_run hrun hrem d rest
  obtain ⟨t, hnext, hleft, hgave, hmem⟩ := takeMW_stores hr hoffer
  refine ⟨t, (exec_dmaW_or_dmaWlast hi).trans hnext, by rw [hleft, hfifo]; rfl, hgave, fun k hk => ?_, fun x hx => ?_⟩
  · rw [hmem, Memory.read_writeDWord_lane hk]
  · rw [hmem, Memory.read_writeDWord_ne hx]

/-- Settles O38: the response reaches the latches of the tracker, which a start clears. -/
theorem responseLatchesTheFirstError : Obligations.ResponseLatchesTheFirstError := by
  refine ⟨fun s id i resp hr hi => ?_, fun s t hstep hrst herr => ?_⟩
  · have hexec : exec i s = offerMB ⟨id, resp⟩ s := by
      rcases hi with ⟨rfl, rfl⟩ | ⟨rfl, rfl⟩ | ⟨rfl, rfl⟩ | ⟨rfl, rfl⟩ <;> exact exec_eq _ s
    obtain ⟨t, b, hnext, rfl, htrk⟩ := offerMB_completes hr ⟨id, resp⟩
    refine ⟨t, hexec.trans hnext, fun hs => ?_, fun hs => ?_⟩ <;> rw [htrk, Tracker.next, hs]
    · rw [Tracker.latched_no_start]
      exact ⟨rfl, by simp [Tracker.answered, nextErrResp, isErrorCode]⟩
    · rcases Tracker.latched_start s.eng.trk (some b) (Config.outlastsStart s.cycle) with h | ⟨c, hc, hcode, he, hresp⟩
      · exact .inl h
      · cases hc
        exact .inr ⟨hcode, he, hresp⟩
  · obtain ⟨-, -, rfl⟩ := of_step_eq_next hstep
    rw [State.edge_eng, State.nextEng_of_low hrst]
    cases hs : s.eng.starts s.regWrite with
    | false =>
      refine .inl ?_
      simp only [Engine.next, Tracker.next, hs]
      exact Tracker.latched_of_err herr _ _
    | true =>
      obtain ⟨-, hwait⟩ := Engine.starts_iff.1 hs
      obtain ⟨hrun, -⟩ := Engine.next_of_starts s.cfg s.inputs s.fifo (Config.outlastsStart s.cycle) hs
      refine .inr ⟨hwait, hrun, ?_⟩
      rcases Engine.next_latches_of_starts s.cfg s.inputs s.fifo (Config.outlastsStart s.cycle) hs with
        ⟨he, -⟩ | ⟨b, hb, hcode, -, hresp⟩
      · exact .inl he
      · exact .inr ⟨b, hb, hcode, hresp⟩

/-- Settles O40: the interrupt registers of the edge are read off case by case. -/
theorem completionEdgeSetsThePendingBit : Obligations.CompletionEdgeSetsThePendingBit := by
  intro s t hstep hrst
  obtain ⟨-, -, rfl⟩ := of_step_eq_next hstep
  rw [State.edge_eng, State.nextEng_irq hrst]
  refine ⟨rfl, congrArg Interrupt.intPend (State.nextEng_irq hrst), fun hprev hbusy hen => ?_, fun hlow hhigh => ?_,
    fun hhigh hlow => ?_⟩
  · simp [nextIntPend, Engine.completionEdge, hprev, hbusy, hen]
  · simpa [nextIntPend, Engine.completionEdge, hlow, and_assoc] using hhigh
  · cases hclear : clearPulse s.regWrite with
    | true => exact State.of_pulse (exists_of_clearPulse hclear)
    | false =>
      rw [hclear, nextIntPend_no_clear, hhigh] at hlow
      cases hlow

/-- Settles O41: without a start an idle engine stays idle, and a start is a pulse at the control word. -/
theorem busyRisesOnlyByAStart : Obligations.BusyRisesOnlyByAStart := by
  intro s t hstep
  obtain ⟨-, -, rfl⟩ := of_step_eq_next hstep
  rw [State.edge_eng]
  refine ⟨fun hok hidle hbusy => ?_, State.nextEng_waitStart_iff⟩
  have hrst : s.inputs.rst = false := Bool.eq_false_iff.2 fun hrst => by
    rw [State.nextEng, hrst] at hbusy
    cases hbusy
  have hs : s.eng.starts s.regWrite = true := by
    by_contra hs
    rw [State.nextEng_busy_of_no_start hrst hok hidle (Bool.eq_false_iff.2 hs)] at hbusy
    cases hbusy
  obtain ⟨hpulse, -⟩ := Engine.starts_iff.1 hs
  obtain ⟨hat, hbeat⟩ := State.of_pulse (exists_of_startPulse hpulse)
  obtain ⟨hrun, hac, -⟩ := Engine.next_of_starts s.cfg s.inputs s.fifo (Config.outlastsStart s.cycle) hs
  rw [State.nextEng_of_low hrst, hac]
  exact ⟨hat, hrun, rfl, hbeat⟩

end

section
/-! PROOF. Reset edges (spec 70_reset_and_hazards.md section 1), and the rules that hold at every edge: who writes storage,
when a response may be offered, and that a decode error sticks. -/

namespace Sys2Proof.Machine

/-! ## What reset leaves -/

section
variable {s : State} {p : Port}

theorem State.nextW_of_resets (h : s.resetsW p = true) : s.nextW p = (s.wm p).resetEdge := if_pos h

theorem State.nextR_of_resets (h : s.resetsR p = true) : s.nextR p = (s.rm p).resetEdge := if_pos h

section
variable (hrst : s.inputs.rst = true)
include hrst

/-- With `rst` high every machine of a resettable slave is reset: the bank, the DMA block, and the reference slave with
`REF_RESET_RECOVERY` (R224, R225, log 26). -/
theorem State.resets_of_high (hp : p ≠ .ref ∨ s.cfg.refResetRecovery = true) :
    s.resetsW p = true ∧ s.resetsR p = true := by
  have hreach (b : Bool) : s.resetReaches p b = true := by
    cases p with
    | bank => exact hrst
    | dma => exact hrst
    | ref =>
      obtain hrec := hp.resolve_left (absurd rfl)
      simp [State.resetReaches, hrst, hrec]
  exact ⟨hreach _, hreach _⟩

theorem State.nextCells_of_high : s.nextCells = resetCells s.cfg := if_pos hrst

theorem State.nextEng_of_high : s.nextEng = s.eng.resetEdge := if_pos hrst

theorem State.dataOut_of_high : s.dataOut = none := if_pos hrst

theorem State.nextMem_of_high : s.nextMem = s.mem := by
  rw [State.nextMem, State.dataOut_of_high hrst]

theorem State.nextFifo_of_high : s.nextFifo = s.fifo ++ s.inputs.fifoPush := by
  rw [State.nextFifo, State.dataOut_of_high hrst]

end

/-- A reset edge leaves the machines of the two resettable slaves, the cells, the engine and the memory space as they follow
from the state alone: it reads no pin but `rst` (R317). -/
theorem State.edge_of_high (hrst : s.inputs.rst = true) :
    s.edge.bankW = s.bankW.resetEdge ∧ s.edge.bankR = s.bankR.resetEdge ∧ s.edge.dmaW = s.dmaW.resetEdge ∧
    s.edge.dmaR = s.dmaR.resetEdge ∧ s.edge.bankCells = resetCells s.cfg ∧ s.edge.eng = s.eng.resetEdge ∧
    s.edge.mem = s.mem := by
  obtain ⟨hbankW, hbankR⟩ := State.resets_of_high hrst (p := .bank) (.inl nofun)
  obtain ⟨hdmaW, hdmaR⟩ := State.resets_of_high hrst (p := .dma) (.inl nofun)
  exact ⟨State.nextW_of_resets hbankW, State.nextR_of_resets hbankR, State.nextW_of_resets hdmaW,
    State.nextR_of_resets hdmaR, State.nextCells_of_high hrst, State.nextEng_of_high hrst, State.nextMem_of_high hrst⟩

/-- In `WAIT_START` the engine offers no word (R268). -/
theorem Engine.offersW_of_waitStart {e : Engine} (h : e.dstate = .waitStart) (fifo : List DWord) :
    e.offersW fifo = none := by
  simp [Engine.offersW, h]

/-! ## Who writes storage -/

/-- A cell changes only under a beat the bank accepts at its address (R157). -/
theorem State.of_nextCells_ne (hrst : s.inputs.rst = false) {j : Nat} (h : s.nextCells[j]? ≠ s.bankCells[j]?) :
    (∃ b, s.acceptsW .bank = some b) ∧ s.decodes .bank s.bankW.wCur = true ∧ s.cellOf .bank s.bankW.wCur = j := by
  rw [State.nextCells, hrst, if_neg Bool.false_ne_true] at h
  split at h
  · next b hb =>
    split_ifs at h with hin
    · exact ⟨⟨b, hb⟩, hin, by_contra fun hne => h (getElem?_writeCell_ne (Ne.symm hne) _ _ _ _)⟩
    · exact absurd rfl h
  · exact absurd rfl h

/-- A byte of the reference array changes only under a beat in range, in the word it addresses (R222). -/
theorem State.of_nextRefMem_ne {x : Nat} (h : Memory.read s.nextRefMem x ≠ Memory.read s.refMem x) :
    (∃ b, s.acceptsW .ref = some b) ∧ s.decodes .ref s.refW.wCur = true ∧
    ∃ k < 4, x = laneAddr (refWordAddr s.cfg.refBase (s.cellOf .ref s.refW.wCur)) k := by
  unfold State.nextRefMem at h
  split at h
  · next b hb =>
    split_ifs at h with hin
    · refine ⟨⟨b, hb⟩, hin, by_contra fun hout => h (Memory.read_writeWord_ne (fun k hk hx => hout ⟨k, hk, hx⟩) _ _ _)⟩
    · exact absurd rfl h
  · exact absurd rfl h

/-- A byte of the memory space changes only under a data word handed over, at its address (log 10). -/
theorem State.of_nextMem_ne {x : Nat} (h : Memory.read s.nextMem x ≠ Memory.read s.mem x) :
    (s.eng.dataHandshake s.inputs s.fifo).isSome ∧ ∃ k < 8, x = laneAddr s.eng.dataAddr k := by
  unfold State.nextMem State.dataOut at h
  split at h
  · next b hb =>
    split_ifs at hb
    exact ⟨Option.isSome_of_eq_some hb,
      by_contra fun hout => h (Memory.read_writeDWord_ne (fun k hk hx => hout ⟨k, hk, hx⟩) _ _)⟩
  · exact absurd rfl h

end

/-! ## The response of a write burst -/

section
variable {base : Word} {n : Nat} {m : WriteMachine} {i : SlaveIn}

/-- `bvalid` rises only with an accepted last beat (R178). -/
theorem WriteMachine.last_of_bvalid_rises (hlow : m.bvalid = false) (hhigh : (m.next base n i).bvalid = true) :
    ∃ b, m.accepts i = some b ∧ b.last = true := by
  rcases WriteMachine.next_cases base n m i with ⟨c, -, h⟩ | ⟨b, hb, h⟩ | ⟨b, -, h⟩ | ⟨-, -, -, h⟩ <;> rw [h] at hhigh
  · exact absurd hhigh (ne_true_of_eq_false hlow)
  · refine ⟨b, hb, Bool.of_not_eq_false fun hl => ?_⟩
    simp [WriteMachine.takeBeat, hl, hlow] at hhigh
  · cases hhigh
  · exact absurd hhigh (ne_true_of_eq_false hlow)

/-- DECERR, once latched, is lowered by the capture of a next command only, and is the code handed over (R176). -/
theorem WriteMachine.decerr_next (hm : m.bresp = respDecerr) :
    ((m.next base n i).bresp = respDecerr ∨ (m.wstate = .waitAddr ∧ (m.next base n i).wstate = .waitData)) ∧
    ∀ b, (m.next base n i).gaveB = some b → b.resp = respDecerr := by
  rcases WriteMachine.next_cases base n m i with ⟨c, hc, h⟩ | ⟨b, -, h⟩ | ⟨b, -, h⟩ | ⟨-, -, -, h⟩ <;> rw [h]
  · obtain ⟨hs, -⟩ := by simpa [WriteMachine.captures] using hc
    exact ⟨.inr ⟨hs, rfl⟩, nofun⟩
  · refine ⟨.inl ?_, nofun⟩
    simp only [WriteMachine.takeBeat, raiseDecerr, hm, ite_self]
  · refine ⟨.inl hm, fun b hb => ?_⟩
    cases hb
    exact hm
  · exact ⟨.inl hm, nofun⟩

end

end Sys2Proof.Machine

open Sys2Proof Sys2Proof.Machine

/-- Settles O43: a machine reset reaches makes its reset edge, and the cells are the reset values of their kinds. -/
theorem resetEdgeOfASlave : Obligations.ResetEdgeOfASlave := by
  intro s t hstep
  obtain ⟨-, -, rfl⟩ := of_step_eq_next hstep
  refine ⟨fun p h => ?_, fun p h => ?_, fun hrst => ⟨fun p hp => State.resets_of_high hrst hp, fun i v h => ?_⟩⟩
  · rw [State.edge_wm, State.nextW_of_resets h]
    rfl
  · rw [State.edge_rm, State.nextR_of_resets h]
    rfl
  · rw [State.edge_bankCells, State.nextCells_of_high hrst]
    simp [resetCells, h, CellKind.resetStorage]

/-- Settles O44: the engine makes its reset edge and hands no word over. -/
theorem resetEdgeOfTheEngine : Obligations.ResetEdgeOfTheEngine := by
  intro s t hstep hrst
  obtain ⟨-, -, rfl⟩ := of_step_eq_next hstep
  have heng : s.edge.eng = s.eng.resetEdge := State.nextEng_of_high hrst
  have hout : s.edge.engineOut.w = none :=
    (congrArg (·.offersW s.edge.fifo) heng).trans (Engine.offersW_of_waitStart rfl _)
  refine ⟨?_, ?_, ?_, ?_, ?_, ?_, ?_, ?_, ?_, ?_, ?_, ?_, congrArg (·.irq.intPend) heng, hout, State.nextMem_of_high hrst,
    State.nextFifo_of_high hrst⟩
  all_goals
    rw [heng]
    rfl

/-- Settles O45: each of these parts makes a reset edge, which reads no other pin. -/
theorem resetBeatsEveryHandshake : Obligations.ResetBeatsEveryHandshake := by
  intro s t1 t2 i1 i2 h1 h2 hstep1 hstep2
  obtain ⟨-, -, rfl⟩ := of_step_eq_next hstep1
  obtain ⟨-, -, rfl⟩ := of_step_eq_next hstep2
  obtain ⟨hbw1, hbr1, hdw1, hdr1, hcells1, heng1, hmem1⟩ := State.edge_of_high (s := { s with feed := i1 :: s.feed.tail }) h1
  obtain ⟨hbw2, hbr2, hdw2, hdr2, hcells2, heng2, hmem2⟩ := State.edge_of_high (s := { s with feed := i2 :: s.feed.tail }) h2
  exact ⟨hbw1.trans hbw2.symm, hbr1.trans hbr2.symm, hdw1.trans hdw2.symm, hdr1.trans hdr2.symm,
    hcells1.trans hcells2.symm, heng1.trans heng2.symm, hmem1.trans hmem2.symm⟩

/-- Settles O51: each store is written at one place of the edge, by the beat or the word named. -/
theorem onlyItsWriterChangesStorage : Obligations.OnlyItsWriterChangesStorage := by
  intro s t hstep hrst
  obtain ⟨-, -, rfl⟩ := of_step_eq_next hstep
  refine ⟨fun j h => ?_, fun x h => ?_, fun x h => ?_⟩
  · obtain ⟨⟨b, hb⟩, hin, hcell⟩ := State.of_nextCells_ne hrst h
    obtain ⟨hw, hy, hpin⟩ : s.bankW.wstate = .waitData ∧ s.bankW.wready = true ∧ s.inputs.bank.w = some b :=
      State.of_acceptsW hb
    exact ⟨hw, hy, by rw [hpin]; exact nofun, hin, hcell⟩
  · obtain ⟨⟨b, hb⟩, hin, hlane⟩ := State.of_nextRefMem_ne h
    obtain ⟨hw, hy, hpin⟩ : s.refW.wstate = .waitData ∧ s.refW.wready = true ∧ s.inputs.ref.w = some b :=
      State.of_acceptsW hb
    exact ⟨hw, hy, by rw [hpin]; exact nofun, hin, hlane⟩
  · obtain ⟨hshake, hlane⟩ := State.of_nextMem_ne h
    obtain ⟨hrun, hrem, hready, hfifo⟩ := Engine.of_dataHandshake_isSome hshake
    exact ⟨hrun, hrem, hready, hfifo, hlane⟩

/-- Settles O53: of the machine's moves only an accepted last beat raises `bvalid`. -/
theorem responseOnlyAfterTheLastBeat : Obligations.ResponseOnlyAfterTheLastBeat := by
  intro s t p hstep hlow hhigh
  obtain ⟨-, -, rfl⟩ := of_step_eq_next hstep
  rw [State.edge_wm, State.nextW] at hhigh
  split_ifs at hhigh
  · cases hhigh
  · obtain ⟨b, hb, hlast⟩ := WriteMachine.last_of_bvalid_rises hlow hhigh
    obtain ⟨⟨hw, hy⟩, hpin⟩ := by simpa [WriteMachine.accepts] using hb
    exact ⟨hw, hy, b, hpin, hlast⟩

/-- Settles O54: a reset keeps the code and hands nothing over, and of the other moves only a capture presets OKAY. -/
theorem decodeErrorIsStickyWithinABurst : Obligations.DecodeErrorIsStickyWithinABurst := by
  intro s t p hstep hm
  obtain ⟨-, -, rfl⟩ := of_step_eq_next hstep
  rw [State.edge_wm, State.nextW]
  split_ifs
  · exact ⟨.inl hm, nofun⟩
  · exact WriteMachine.decerr_next hm

end

section
/-! PROOF. Frames: on pins that are quiet but for one operation's, every part of the hardware whose pins stay idle makes the
edge it makes with nothing handed over. -/

namespace Sys2Proof.Machine

/-! ## Parts whose pins are idle -/

section
variable {s : State} {p q : Port} (hrst : s.inputs.rst = false)
include hrst

/-- A write machine whose master does nothing rests. -/
theorem State.nextW_of_idle (ha : (s.inputs.port q).aw = none) (hw : (s.inputs.port q).w = none)
    (hb : (s.inputs.port q).bready = false) : s.nextW q = (s.wm q).rest := by
  rw [State.nextW_of_low hrst, WriteMachine.next_idle _ _ _ _ ha hw hb]

/-- A read machine whose master does nothing rests. -/
theorem State.nextR_of_idle (ha : (s.inputs.port q).ar = none) (hr : (s.inputs.port q).rready = false) :
    s.nextR q = (s.rm q).rest := by
  rw [State.nextR_of_low hrst, ReadMachine.next_idle _ _ _ State.offersR_isSome ha hr]

end

theorem State.dataOut_of_not_ready {s : State} (h : s.inputs.mWready = false) : s.dataOut = none := by
  simp [State.dataOut, Engine.dataHandshake, h]

theorem State.nextMem_of_not_ready {s : State} (h : s.inputs.mWready = false) : s.nextMem = s.mem := by
  rw [State.nextMem, State.dataOut_of_not_ready h]

theorem State.nextFifo_of_not_ready {s : State} (h : s.inputs.mWready = false) :
    s.nextFifo = s.fifo ++ s.inputs.fifoPush := by
  rw [State.nextFifo, State.dataOut_of_not_ready h]

/-! ## One slave's pins driven on quiet pins -/

section
variable {s : State} (hq : s.quiet) {p q : Port} {f : SlaveIn → SlaveIn}
include hq

theorem State.inputs_port_of_quiet : s.inputs.port q = .idle := by
  obtain ⟨-, hidle⟩ := hq
  rw [hidle]
  cases q <;> rfl

theorem State.drivePort_rst_of_quiet : (s.drivePort p f).inputs.rst = false := by
  rw [State.drivePort_rst, hq.2]
  rfl

theorem State.drivePort_port_of_ne (h : q ≠ p) : (s.drivePort p f).inputs.port q = .idle :=
  (State.drivePort_port_ne h).trans (State.inputs_port_of_quiet hq)

theorem State.drivePort_port_of_quiet : (s.drivePort p f).inputs.port p = (f .idle).fit s.cfg.sIdW := by
  rw [State.drivePort_port_self, State.inputs_port_of_quiet hq]

/-- The machines of every other slave rest. -/
theorem State.drivePort_nextW_ne (h : q ≠ p) : (s.drivePort p f).nextW q = (s.wm q).rest := by
  have hport := State.drivePort_port_of_ne (f := f) hq h
  rw [State.nextW_of_idle (State.drivePort_rst_of_quiet hq) (by rw [hport]; rfl) (by rw [hport]; rfl) (by rw [hport]; rfl),
    State.drivePort_wm]

theorem State.drivePort_nextR_ne (h : q ≠ p) : (s.drivePort p f).nextR q = (s.rm q).rest := by
  have hport := State.drivePort_port_of_ne (f := f) hq h
  rw [State.nextR_of_idle (State.drivePort_rst_of_quiet hq) (by rw [hport]; rfl) (by rw [hport]; rfl), State.drivePort_rm]

/-- With AR and R idle every read machine rests. -/
theorem State.drivePort_nextR (ha : (f .idle).ar = none) (hr : (f .idle).rready = false) :
    (s.drivePort p f).nextR q = (s.rm q).rest := by
  by_cases h : q = p
  · subst h
    have hport := State.drivePort_port_of_quiet (p := q) (f := f) hq
    rw [State.nextR_of_idle (State.drivePort_rst_of_quiet hq) (by rw [hport, SlaveIn.fit_ar, ha]; rfl)
      (by rw [hport, SlaveIn.fit_rready, hr]), State.drivePort_rm]
  · exact State.drivePort_nextR_ne hq h

/-- With AW, W and B idle every write machine rests. -/
theorem State.drivePort_nextW (ha : (f .idle).aw = none) (hw : (f .idle).w = none) (hb : (f .idle).bready = false) :
    (s.drivePort p f).nextW q = (s.wm q).rest := by
  by_cases h : q = p
  · subst h
    have hport := State.drivePort_port_of_quiet (p := q) (f := f) hq
    rw [State.nextW_of_idle (State.drivePort_rst_of_quiet hq) (by rw [hport, SlaveIn.fit_aw, ha]; rfl)
      (by rw [hport, SlaveIn.fit_w, hw]) (by rw [hport, SlaveIn.fit_bready, hb]), State.drivePort_wm]
  · exact State.drivePort_nextW_ne hq h

/-- The memory space and the FIFO are not behind a slave's pins. -/
theorem State.drivePort_nextMem : (s.drivePort p f).nextMem = s.mem ∧ (s.drivePort p f).nextFifo = s.fifo := by
  have hready : (s.drivePort p f).inputs.mWready = false := by
    rw [State.drivePort_inputs, Inputs.onPort_mWready, hq.2]
    rfl
  have hpush : (s.drivePort p f).inputs.fifoPush = [] := by
    rw [State.drivePort_inputs, Inputs.onPort_fifoPush, hq.2]
    rfl
  refine ⟨State.nextMem_of_not_ready hready, ?_⟩
  rw [State.nextFifo_of_not_ready hready, hpush, List.append_nil]
  rfl

section
variable (hw : q ≠ p ∨ (f .idle).w = none)
include hw

/-- A slave has a beat on its W pins only if it is the one driven and W is. -/
theorem State.drivePort_w_eq_none : ((s.drivePort p f).inputs.port q).w = none := by
  by_cases h : q = p
  · subst h
    rw [State.drivePort_port_of_quiet hq]
    exact hw.resolve_left (absurd rfl)
  · rw [State.drivePort_port_of_ne hq h]
    rfl

end

theorem State.drivePort_nextCells (hw : .bank ≠ p ∨ (f .idle).w = none) : (s.drivePort p f).nextCells = s.bankCells :=
  State.nextCells_of_no_beat (State.drivePort_rst_of_quiet hq) (State.drivePort_w_eq_none (q := .bank) hq hw)

theorem State.drivePort_nextRefMem (hw : .ref ≠ p ∨ (f .idle).w = none) : (s.drivePort p f).nextRefMem = s.refMem :=
  State.nextRefMem_of_no_beat (State.drivePort_w_eq_none (q := .ref) hq hw)

/-- With no beat for the DMA block the engine rests. -/
theorem State.drivePort_nextEng_rest (hw : .dma ≠ p ∨ (f .idle).w = none) : (s.drivePort p f).nextEng = s.eng.rest := by
  have hidle : s.inputs = Inputs.idle := hq.2
  rw [State.drivePort_nextEng (by rw [hidle]; rfl),
    State.regWrite_of_no_beat (State.drivePort_w_eq_none (q := .dma) hq hw), hidle]
  exact Engine.next_idle _ _ _ _ rfl rfl rfl _

/-- With no beat on W, all storage is as before and the engine rests. -/
theorem State.drivePort_sameStorage (hw : (f .idle).w = none) :
    s.sameStorage (s.drivePort p f).edge ∧ (s.drivePort p f).edge.eng = s.eng.rest := by
  obtain ⟨hmem, hfifo⟩ := State.drivePort_nextMem (p := p) (f := f) hq
  refine ⟨⟨rfl, State.drivePort_nextCells hq (.inr hw), hfifo, fun a => ?_, fun a => ?_⟩,
    State.drivePort_nextEng_rest hq (.inr hw)⟩
  · rw [State.edge_refMem, State.drivePort_nextRefMem hq (.inr hw)]
  · rw [State.edge_mem, hmem]

variable {t : State} (ht : (s.drivePort p f).clock = .next t) (hw : (f .idle).w = none)
include ht hw

/-- Driving AW or B of one slave changes its write machine alone. -/
theorem State.frame_of_write_side (ha : (f .idle).ar = none) (hr : (f .idle).rready = false) :
    s.sameStorage t ∧ t.eng = s.eng.rest ∧ (∀ q, t.rm q = (s.rm q).rest) ∧ (∀ q, q ≠ p → t.wm q = (s.wm q).rest) := by
  obtain ⟨-, -, rfl⟩ := State.clock_eq_next_iff.1 ht
  obtain ⟨hstore, heng⟩ := State.drivePort_sameStorage (p := p) hq hw
  exact ⟨hstore, heng, fun q => (State.edge_rm q _).trans (State.drivePort_nextR hq ha hr),
    fun q h => (State.edge_wm q _).trans (State.drivePort_nextW_ne hq h)⟩

/-- Driving the read channels of one slave changes its read machine alone. -/
theorem State.frame_of_read_side (ha : (f .idle).aw = none) (hb : (f .idle).bready = false) :
    s.sameStorage t ∧ t.eng = s.eng.rest ∧ (∀ q, t.wm q = (s.wm q).rest) ∧ (∀ q, q ≠ p → t.rm q = (s.rm q).rest) := by
  obtain ⟨-, -, rfl⟩ := State.clock_eq_next_iff.1 ht
  obtain ⟨hstore, heng⟩ := State.drivePort_sameStorage (p := p) hq hw
  exact ⟨hstore, heng, fun q => (State.edge_wm q _).trans (State.drivePort_nextW hq ha hw hb),
    fun q h => (State.edge_rm q _).trans (State.drivePort_nextR_ne hq h)⟩

end

end Sys2Proof.Machine

open Sys2Proof Sys2Proof.Machine

/-- Settles O55: each operation drives AW or AR of its slave. -/
theorem addressCommandFrame : Obligations.AddressCommandFrame := by
  refine fun s t p id size len addr i hq ht => ⟨fun hi => ?_, fun hi => ?_⟩
  · obtain ⟨c, hc⟩ : ∃ c, exec i s = offerAw p c s := by
      rcases hi with rfl | rfl | rfl <;> exact ⟨_, exec_eq _ s⟩
    exact State.frame_of_write_side hq (hc.symm.trans ht) rfl rfl rfl
  · obtain ⟨c, hc⟩ : ∃ c, exec i s = offerAr p c s := by
      rcases hi with rfl | rfl | rfl <;> exact ⟨_, exec_eq _ s⟩
    exact State.frame_of_read_side hq (hc.symm.trans ht) rfl rfl rfl

/-- Settles O57: a response drives B of its slave, a read beat and a register read R. -/
theorem responseAndReadFrame : Obligations.ResponseAndReadFrame := by
  refine fun s t p id last data o i hq ht => ⟨fun hi => ?_, fun hi => ?_, fun hi => ?_⟩
  · obtain ⟨b, hb⟩ : ∃ b, exec i s = takeB p b s := by
      rcases hi with rfl | rfl <;> exact ⟨_, exec_eq _ s⟩
    exact State.frame_of_write_side hq (hb.symm.trans ht) rfl rfl rfl
  · obtain ⟨b, hb⟩ : ∃ b, exec i s = takeR p b s := by
      rcases hi with rfl | rfl <;> exact ⟨_, exec_eq _ s⟩
    exact State.frame_of_read_side hq (hb.symm.trans ht) rfl rfl rfl
  · obtain ⟨here, hhere⟩ : ∃ here, exec i s = readAccess here s := by
      rcases hi with rfl | rfl | rfl | rfl | rfl | rfl | rfl <;> exact ⟨_, exec_eq _ s⟩
    exact State.frame_of_read_side hq (hhere.symm.trans ht) rfl rfl rfl

/-- Settles O56: the beat drives W of its slave, behind which lies one store at most, written at the cursor's cell. -/
theorem writeBeatFrame : Obligations.WriteBeatFrame := by
  intro s t p strb data i hq ht hi
  obtain ⟨last, hexec⟩ := exec_wBeat_or_wLast hi s
  obtain ⟨-, -, rfl⟩ := State.clock_eq_next_iff.1 (hexec.symm.trans ht)
  obtain ⟨hmem, hfifo⟩ := State.drivePort_nextMem (p := p) (f := fun q => { q with w := some ⟨last, strb, data⟩ }) hq
  have hrst := State.drivePort_rst_of_quiet (p := p) (f := fun q => { q with w := some ⟨last, strb, data⟩ }) hq
  refine ⟨rfl, hfifo, fun x => ?_, fun q => (State.edge_rm q _).trans (State.drivePort_nextR hq rfl rfl),
    fun q h => (State.edge_wm q _).trans (State.drivePort_nextW_ne hq h),
    fun h => State.drivePort_nextEng_rest hq (.inl h.symm), fun h => State.drivePort_nextCells hq (.inl h.symm),
    fun h x => ?_, fun j hj => ?_, ?_⟩
  · rw [State.edge_mem, hmem]
  · rw [State.edge_refMem, State.drivePort_nextRefMem hq (.inl h.symm)]
  · by_contra hne
    obtain ⟨-, -, hcell⟩ := State.of_nextCells_ne hrst hne
    exact hj hcell.symm
  · rintro _ rfl x hx
    by_contra hne
    obtain ⟨-, -, k, hk, hlane⟩ := State.of_nextRefMem_ne hne
    exact hx k hk hlane

end

section
/-! PROOF. Frames of the register writes and of the memory-facing bus: what of the engine an operation reaches. -/

namespace Sys2Proof.Machine

/-! ## The register a write access is for -/

/-- The word a register write is for (R230); the write outside the six words is for none. -/
def registerWritten : Instr → Option Nat
  | .wrAddr .. => some 0
  | .wrCount .. => some 1
  | .wrStatus .. => some 2
  | .wrCtrl .. => some 3
  | .wrIntcfg .. => some 4
  | .wrIntstat .. => some 5
  | _ => none

/-- Each of the five words with an effect is written by its own row only. -/
theorem registerWritten_ne {i : Instr} {last : Bool} {be : BitVec 4} {d : Word} {o : BitVec 1}
    (hi : i = .wrAddr last be d ∨ i = .wrCount last be d ∨ i = .wrStatus last be d ∨ i = .wrCtrl last be d ∨
      i = .wrIntcfg last be d ∨ i = .wrIntstat last be d ∨ i = .wrUnmapped o last be d) :
    (i ≠ .wrAddr last be d → registerWritten i ≠ some 0) ∧ (i ≠ .wrCount last be d → registerWritten i ≠ some 1) ∧
    (i ≠ .wrIntcfg last be d → registerWritten i ≠ some 4) ∧ (i ≠ .wrIntstat last be d → registerWritten i ≠ some 5) ∧
    (i ≠ .wrCtrl last be d → registerWritten i ≠ some 3) := by
  rcases hi with rfl | rfl | rfl | rfl | rfl | rfl | rfl <;> simp [registerWritten]

section
variable {c : Config} {r : DmaRegs} {wr : Option RegWrite}

/-- A register write that is not for word 0 keeps `reg_addr`. -/
theorem DmaRegs.next_addr (h : ∀ a, wr = some a → a.word ≠ 0) : (r.next c wr).addr = r.addr := by
  cases wr with
  | none => rfl
  | some a =>
    simp only [DmaRegs.next, if_neg (h a rfl)]
    split_ifs <;> rfl

theorem DmaRegs.next_count (h : ∀ a, wr = some a → a.word ≠ 1) : (r.next c wr).count = r.count := by
  cases wr with
  | none => rfl
  | some a =>
    simp only [DmaRegs.next, if_neg (h a rfl)]
    split_ifs <;> rfl

theorem DmaRegs.next_intEn (h : ∀ a, wr = some a → a.word ≠ 4) : (r.next c wr).intEn = r.intEn := by
  cases wr with
  | none => rfl
  | some a =>
    simp only [DmaRegs.next, if_neg (h a rfl)]
    split_ifs <;> rfl

theorem startPulse_eq_false (h : ∀ a, wr = some a → a.word ≠ 3) : startPulse wr = false := by
  refine Bool.eq_false_iff.2 fun hpulse => ?_
  obtain ⟨a, ha, hbits⟩ := exists_of_startPulse hpulse
  simp [h a ha] at hbits

theorem clearPulse_eq_false (h : ∀ a, wr = some a → a.word ≠ 5) : clearPulse wr = false := by
  refine Bool.eq_false_iff.2 fun hpulse => ?_
  obtain ⟨a, ha, hbits⟩ := exists_of_clearPulse hpulse
  simp [h a ha] at hbits

end

/-- A write access puts its beat on W where the machine is at the access (log 21). -/
def beatIf (here : Bool) (b : WBeat) (q : SlaveIn) : SlaveIn := { q with w := if here then some b else none }

theorem writeAccess_eq_clock (here : Bool) (b : WBeat) (s : State) :
    writeAccess here b s = (s.drivePort .dma (beatIf here b)).clock := rfl

section
variable {s : State} (hq : s.quiet) {here : Bool} {b : WBeat}
include hq

/-- The register write of a write access is for the word the machine is at. -/
theorem State.beatIf_regWrite {a : RegWrite} (ha : (s.drivePort .dma (beatIf here b)).regWrite = some a) :
    here = true ∧ s.atWriteOf a.word = true := by
  obtain ⟨hat, b', hpin, -⟩ := State.of_regWrite ha
  refine ⟨?_, hat⟩
  have hport : (s.drivePort .dma (beatIf here b)).inputs.dma = _ := State.drivePort_port_of_quiet (p := .dma) hq
  rw [hport] at hpin
  cases here with
  | true => rfl
  | false => cases hpin

/-- On quiet pins a write access reaches nothing but the write machine of the DMA block and, where the machine is at the
access, the register write of the edge. -/
theorem State.frame_of_writeAccess {t : State} (ht : writeAccess here b s = .next t) :
    s.sameStorage t ∧ (∀ q, t.rm q = (s.rm q).rest) ∧ (∀ q, q ≠ .dma → t.wm q = (s.wm q).rest) ∧
    ∃ wr, (∀ a, wr = some a → here = true ∧ s.atWriteOf a.word = true) ∧
      t.eng = s.eng.next s.cfg .idle s.fifo wr (Config.outlastsStart s.cycle) := by
  rw [writeAccess_eq_clock] at ht
  obtain ⟨-, -, rfl⟩ := State.clock_eq_next_iff.1 ht
  obtain ⟨hmem, hfifo⟩ := State.drivePort_nextMem (p := .dma) (f := beatIf here b) hq
  have hne : Port.ref ≠ .dma := by decide
  refine ⟨⟨rfl, State.drivePort_nextCells hq (.inl nofun), hfifo, fun a => ?_, fun a => ?_⟩,
    fun q => (State.edge_rm q _).trans (State.drivePort_nextR hq rfl rfl),
    fun q h => (State.edge_wm q _).trans (State.drivePort_nextW_ne hq h),
    (s.drivePort .dma (beatIf here b)).regWrite, fun a => State.beatIf_regWrite hq, ?_⟩
  · rw [State.edge_refMem, State.drivePort_nextRefMem hq (.inl hne)]
  · rw [State.edge_mem, hmem]
  · rw [← hq.2]
    exact State.drivePort_nextEng (by rw [hq.2]; rfl) _ _

end

/-- A register write is a write access at its word, or outside the six words. -/
theorem exec_registerWrite {i : Instr} {last : Bool} {be : BitVec 4} {d : Word} {o : BitVec 1}
    (hi : i = .wrAddr last be d ∨ i = .wrCount last be d ∨ i = .wrStatus last be d ∨ i = .wrCtrl last be d ∨
      i = .wrIntcfg last be d ∨ i = .wrIntstat last be d ∨ i = .wrUnmapped o last be d) (s : State) :
    ∃ here, exec i s = writeAccess here ⟨last, be, d⟩ s ∧
      ∀ k, here = true → s.atWriteOf k = true → registerWritten i = some k := by
  have hword (j : Nat) {k : Nat} (hj : s.atWriteOf j = true) (hk : s.atWriteOf k = true) : j = k := by
    by_contra hne
    rw [State.atWriteOf_ne hj hne] at hk
    cases hk
  rcases hi with rfl | rfl | rfl | rfl | rfl | rfl | rfl
  case inr.inr.inr.inr.inr.inr =>
    refine ⟨_, exec_eq _ s, fun k hout hk => ?_⟩
    rw [State.atWriteOf_of_outside hout] at hk
    cases hk
  all_goals exact ⟨_, exec_eq _ s, fun k hj hk => congrArg some (hword _ hj hk)⟩

/-! ## The memory-facing bus driven on quiet pins -/

/-- DMA.AW drives the ready of the address channel, a response the response: neither touches a slave, the ready of the data
channel or the FIFO. -/
theorem exec_memoryAddressOrResponse {i : Instr} {id : Nat} {len : BitVec 4} {addr : Word}
    (hi : i = .dmaAw id len addr ∨ i = .mbOkay id ∨ i = .mbExokay id ∨ i = .mbSlverr id ∨ i = .mbDecerr id) (s : State) :
    ∃ f : Inputs → Inputs, exec i s = (s.drive f).clock ∧ (∀ p, (f .idle).port p = .idle) ∧
      ((f .idle).rst = false ∧ (f .idle).mWready = false ∧ (f .idle).fifoPush = []) ∧
      (i ≠ .dmaAw id len addr → (f .idle).mAwready = false) ∧ (i = .dmaAw id len addr → (f .idle).mB = none) := by
  rcases hi with rfl | rfl | rfl | rfl | rfl
  · exact ⟨_, exec_eq _ s, fun p => by cases p <;> rfl, ⟨rfl, rfl, rfl⟩, fun h => absurd rfl h, fun _ => rfl⟩
  all_goals exact ⟨_, exec_eq _ s, fun p => by cases p <;> rfl, ⟨rfl, rfl, rfl⟩, fun _ => rfl, nofun⟩

section
variable {s : State} (hq : s.quiet) {f : Inputs → Inputs}
include hq

theorem State.drive_inputs_of_quiet : (s.drive f).inputs = (f .idle).fit s.cfg := by
  rw [State.drive_inputs, hq.2]

variable (hport : ∀ p, (f .idle).port p = .idle) (hrst : (f .idle).rst = false)
include hport hrst

/-- Driving the memory-facing bus leaves every slave and the stores behind them, and the engine moves on the pins driven,
with no register write. -/
theorem State.frame_of_memory_side :
    (s.drive f).nextCells = s.bankCells ∧ (s.drive f).nextRefMem = s.refMem ∧
    (∀ q, (s.drive f).nextW q = (s.wm q).rest) ∧ (∀ q, (s.drive f).nextR q = (s.rm q).rest) ∧
    (s.drive f).nextEng = s.eng.next s.cfg ((f .idle).fit s.cfg) s.fifo none (Config.outlastsStart s.cycle) := by
  have hin := State.drive_inputs_of_quiet (f := f) hq
  have hlow : (s.drive f).inputs.rst = false := by rw [hin, Inputs.fit_rst, hrst]
  have hidle (q : Port) : (s.drive f).inputs.port q = .idle := by rw [hin, Inputs.fit_port, hport, SlaveIn.fit_idle]
  have hw (q : Port) : ((s.drive f).inputs.port q).w = none := by rw [hidle]; rfl
  refine ⟨State.nextCells_of_no_beat hlow (hw .bank), State.nextRefMem_of_no_beat (hw .ref), fun q => ?_, fun q => ?_, ?_⟩
  · rw [State.nextW_of_idle hlow (by rw [hidle]; rfl) (hw q) (by rw [hidle]; rfl), State.drive_wm]
  · rw [State.nextR_of_idle hlow (by rw [hidle]; rfl) (by rw [hidle]; rfl), State.drive_rm]
  · rw [State.nextEng_of_low hlow, State.regWrite_of_no_beat (hw .dma), hin]
    rfl

end

/-- With nothing put in, the FIFO keeps its words or loses its head. -/
theorem State.nextFifo_of_no_push {s : State} (h : s.inputs.fifoPush = []) :
    s.nextFifo = s.fifo ∨ s.nextFifo = s.fifo.tail := by
  rw [State.nextFifo, h, List.append_nil]
  split
  · exact .inr rfl
  · exact .inl rfl

/-! ## The engine on pins of the memory-facing bus alone -/

section
variable (c : Config) (e : Engine) (i : Inputs) (fifo : List DWord) (o : Bool)

/-- Without a register write the configuration is kept, the interrupt registers and the state make their own edge. -/
theorem Engine.next_no_write : (e.next c i fifo none o).regs = e.regs ∧ (e.next c i fifo none o).irq = e.restIrq ∧
    (e.next c i fifo none o).dstate = e.restState :=
  ⟨rfl, Engine.next_irq_of_no_clear _ _ _ _ rfl, rfl⟩

/-- Without a word handed over, or a start, the data channel holds. -/
theorem Engine.next_dc_of_not_ready (h : i.mWready = false) : (e.next c i fifo none o).dc = e.dc := by
  simp [Engine.next, Engine.starts, startPulse, Engine.dataHandshake, h]

/-- Without an address handed over, or a start, the address channel holds. -/
theorem Engine.next_ac_of_not_ready (h : i.mAwready = false) : (e.next c i fifo none o).ac = e.ac := by
  simp [Engine.next, Engine.starts, startPulse, Engine.addrHandshake, h]

/-- Without a response, or a start, the latches hold. -/
theorem Engine.next_latches_of_no_response (h : i.mB = none) :
    (e.next c i fifo none o).trk.err = e.trk.err ∧ (e.next c i fifo none o).trk.errResp = e.trk.errResp := by
  simp [Engine.next, Engine.starts, startPulse, Tracker.next, Tracker.latched, Tracker.cleared, h]

/-- With neither an address nor a response handed over the tracker holds. -/
theorem Engine.next_trk_of_quiet (ha : i.mAwready = false) (hb : i.mB = none) : (e.next c i fifo none o).trk = e.trk := by
  simp [Engine.next, Engine.starts, startPulse, Tracker.next, Tracker.latched, Tracker.cleared, Engine.addrHandshake,
    nextInflight, ha, hb]

end

end Sys2Proof.Machine

open Sys2Proof Sys2Proof.Machine

/-- Settles O58: the write drives W of the DMA block, and the register write of the edge, if any, is for the word named. -/
theorem registerWriteFrame : Obligations.RegisterWriteFrame := by
  intro s t last be d o i hq ht hi
  obtain ⟨here, hexec, hword⟩ := exec_registerWrite hi s
  obtain ⟨hstore, hrm, hwm, wr, hwr, heng⟩ := State.frame_of_writeAccess hq (hexec.symm.trans ht)
  have hne {k : Nat} (hk : registerWritten i ≠ some k) (a : RegWrite) (ha : wr = some a) : a.word ≠ k := fun hak => by
    obtain ⟨hhere, hat⟩ := hwr a ha
    exact hk (hak ▸ hword _ hhere hat)
  obtain ⟨h0, h1, h4, h5, h3⟩ := registerWritten_ne hi
  refine ⟨hstore, hrm, hwm, fun h => ?_, fun h => ?_, fun h => ?_, fun h => ?_, fun h => ?_⟩ <;> rw [heng]
  · exact DmaRegs.next_addr (hne (h0 h))
  · exact DmaRegs.next_count (hne (h1 h))
  · exact DmaRegs.next_intEn (hne (h4 h))
  · exact Engine.next_irq_of_no_clear _ _ _ _ (clearPulse_eq_false (hne (h5 h)))
  · rw [Engine.next_of_no_start _ _ _ _ (startPulse_eq_false (hne (h3 h))), Engine.next_idle _ _ _ _ rfl rfl rfl]
    exact ⟨rfl, rfl, rfl, rfl⟩

/-- Settles O59: the operation drives the ready of the address channel, or the response, and nothing else. -/
theorem memoryAddressAndResponseFrame : Obligations.MemoryAddressAndResponseFrame := by
  intro s t id len addr i hq ht hi
  obtain ⟨f, hexec, hport, hpins, haw, hmb⟩ := exec_memoryAddressOrResponse hi s
  obtain ⟨-, -, rfl⟩ := State.clock_eq_next_iff.1 (hexec.symm.trans ht)
  have hin := State.drive_inputs_of_quiet (f := f) hq
  obtain ⟨hrst, hready, hpush⟩ := hpins
  obtain ⟨hcells, href, hwm, hrm, heng⟩ := State.frame_of_memory_side hq hport hrst
  have hnot : (s.drive f).inputs.mWready = false := by rw [hin, Inputs.fit_mWready, hready]
  obtain ⟨hregs, hirq, hstate⟩ := Engine.next_no_write s.cfg s.eng ((f .idle).fit s.cfg) s.fifo
    (Config.outlastsStart s.cycle)
  refine ⟨⟨rfl, hcells, ?_, fun a => ?_, fun a => ?_⟩, fun q => (State.edge_wm q _).trans (hwm q),
    fun q => (State.edge_rm q _).trans (hrm q), ?_⟩
  · rw [State.edge_fifo, State.nextFifo_of_not_ready hnot, hin, Inputs.fit_fifoPush, hpush, List.append_nil]
    rfl
  · rw [State.edge_refMem, href]
  · rw [State.edge_mem, State.nextMem_of_not_ready hnot]
    rfl
  · rw [State.edge_eng, heng]
    exact ⟨hregs, Engine.next_dc_of_not_ready _ _ _ _ _ hready, hirq, hstate,
      fun h => Engine.next_latches_of_no_response _ _ _ _ _ (by rw [Inputs.fit_mB, hmb h]; rfl),
      fun h => Engine.next_ac_of_not_ready _ _ _ _ _ (haw h)⟩

/-- Settles O60: the operation drives the ready of the data channel and nothing else. -/
theorem memoryDataFrame : Obligations.MemoryDataFrame := by
  intro s t d i hq ht hi
  obtain ⟨b, hb⟩ : ∃ b, exec i s = takeMW b s := by
    rcases hi with rfl | rfl <;> exact ⟨_, exec_eq _ s⟩
  obtain ⟨-, -, rfl⟩ := State.clock_eq_next_iff.1 (hb.symm.trans ht)
  obtain ⟨hcells, href, hwm, hrm, heng⟩ := State.frame_of_memory_side
    (f := fun i => { i with mWready := decide (s.eng.offersW s.fifo = some b) }) hq (fun p => by cases p <;> rfl) rfl
  obtain ⟨hregs, hirq, hstate⟩ := Engine.next_no_write s.cfg s.eng
    (({ Inputs.idle with mWready := decide (s.eng.offersW s.fifo = some b) } : Inputs).fit s.cfg) s.fifo
    (Config.outlastsStart s.cycle)
  refine ⟨rfl, hcells, fun x => ?_, fun q => (State.edge_wm q _).trans (hwm q),
    fun q => (State.edge_rm q _).trans (hrm q), ?_⟩
  · rw [State.edge_refMem, href]
  · rw [State.edge_eng, heng]
    refine ⟨Engine.next_ac_of_not_ready _ _ _ _ _ rfl, Engine.next_trk_of_quiet _ _ _ _ _ rfl rfl, hregs, hirq, hstate,
      State.nextFifo_of_no_push (by rw [State.drive_inputs_of_quiet hq]; rfl), fun x hx => ?_⟩
    by_contra hne
    obtain ⟨-, k, hk, hlane⟩ := State.of_nextMem_ne hne
    exact hx k hk hlane

end
